-- ==== Sys2Proof/Word.lean ====
section
/-! DEFINITION. The word types of the engine and nothing else. -/

namespace Sys2Proof

/-- A sample of IN or OUT (R10). -/
abbrev Byte := BitVec 8

/-- A register, a bus address, a bus word, a command word (R10, R20, R70). -/
abbrev Word := BitVec 32

/-- The encoding of one binary64 value: sign bit 63, exponent 62:52, fraction 51:0 (R14). -/
abbrev F64 := BitVec 64

end Sys2Proof
end

