-- ==== Sys2Proof/Config.lean ====
section
/-! DEFINITION. What an implementation fixes (the synthesis parameters of R7, R8, R9) and the free values: constants
with no body, so that no proof can see what they are. -/

namespace Sys2Proof

/-- The values P_BASIS_DIV may take (R8). -/
inductive BasisDiv where
  | two
  | four
  deriving DecidableEq, Repr

/-- A position of the 8×8 grid of macro-blocks, (row, col) (R9, R127). -/
abbrev BlockPos := Fin 8 × Fin 8

/-- The synthesis parameters. Every value of this type is a legal parameter set, and every legal set is a value:
`P_LOG2N = 3 + log2nLess3` (R7); entry 0 of P_MB_PRIORITY is (0, 0), and `mbRest` holds entries 1 to 63, in any order and
with any repeats (R9, R129). -/
structure Params where
  log2nLess3 : Fin 8
  basisDiv   : BasisDiv
  mbRest     : Vector BlockPos 63
  deriving DecidableEq, Repr

/-- The arithmetic operations whose NaN result IEEE 754 leaves open (log 12). -/
inductive FloatOp where
  | add
  | sub
  | mul
  deriving DecidableEq, Repr

/-- FREE VALUE (R45; 93 items I3, I9, I10; log 4): the byte that memory holds at an address nothing has written since
reset number `epoch`. -/
opaque Config.unspecifiedByte (epoch : Nat) (addr : Nat) : Byte

/-- FREE VALUE (R77, R174, R175; 93 item I13; log 6): how many further host events may pass before the command accepted
as number `n` completes. It is finite, as R175 says. -/
opaque Config.completionDelay (n : Nat) : Nat

/-- FREE VALUE (R9; 93 item I5; log 2): entry `k` of P_MB_PRIORITY, for `k` from 1 to 63, of the machine in its reset state. -/
opaque Config.mbPriorityEntry (k : Nat) : BlockPos

/-- FREE VALUE (R14; log 12): sign (bit 51) and low 51 fraction bits of the quiet NaN that an operation delivers. -/
opaque Config.nanBits (op : FloatOp) (a b : F64) : BitVec 52

/-- The spec's defaults: P_LOG2N = 9 (R7) and P_BASIS_DIV = 4 (R8). P_MB_PRIORITY has no default beyond entry 0 (R9). -/
def Params.default : Params where
  log2nLess3 := 6
  basisDiv := .four
  mbRest := Vector.ofFn fun k => Config.mbPriorityEntry (k.val + 1)

end Sys2Proof
end

