-- ==== Sys2Proof/Syntax.lean ====
section
/-! DEFINITION. The commands of spec/opcode_table.json, one constructor a row, and the names their encodings use. -/

namespace Sys2Proof

/-- The three colour channels, R = 0, G = 1, B = 2 (R10). -/
inductive Channel where
  | red
  | green
  | blue
  deriving DecidableEq, Repr

/-- The channel mask of a channel command: CH[0] is R, CH[1] is G, CH[2] is B (R70). -/
structure ChanMask where
  red   : Bool
  green : Bool
  blue  : Bool
  deriving DecidableEq, Repr

/-- Whether the command applies to the channel: its CH bit is 1 (R71). -/
def ChanMask.has (m : ChanMask) : Channel → Bool
  | .red => m.red
  | .green => m.green
  | .blue => m.blue

/-- The ten commands (R73). A channel command carries its mask, and the others take none (R71). The budget is no field of
the command (R72). -/
inductive Instr where
  | nop
  | basisgen
  | dctf (m : ChanMask)
  | zzsel (m : ChanMask)
  | dcti (m : ChanMask)
  | dwtf (m : ChanMask)
  | dwtselr (m : ChanMask)
  | dwtselb (m : ChanMask)
  | dwti (m : ChanMask)
  | asm
  deriving DecidableEq, Repr

/-- The named command errors (R143). Code 0, no error, is `none` where one of these is optional. -/
inductive CmdError where
  | illegal
  | reserved
  | noChan
  | noBasis
  | kind
  | notReady
  deriving DecidableEq, Repr

end Sys2Proof
end

