-- ==== Sys2Proof/WellFormed.lean ====
section
/-! DEFINITION. Which commands the assembler syntax of R81 can write: a channel command must have CHANS. -/

namespace Sys2Proof

/-- CHANS is a non-empty string of channel letters (R81). -/
def ChanMask.nonempty (m : ChanMask) : Bool :=
  m.red || m.green || m.blue

/-- The mask of a channel command (R71); NOP, BASISGEN and ASM have none. -/
def Instr.mask? : Instr → Option ChanMask
  | .nop => none
  | .basisgen => none
  | .dctf m => some m
  | .zzsel m => some m
  | .dcti m => some m
  | .dwtf m => some m
  | .dwtselr m => some m
  | .dwtselb m => some m
  | .dwti m => some m
  | .asm => none

/-- A command the syntax of R81 admits. An empty mask is an encoding the engine decodes and turns away with E_NOCHAN
(R75 check 3), so it is no decoding error (log 10). -/
def Instr.wellFormed (i : Instr) : Bool :=
  match i.mask? with
  | none => true
  | some m => m.nonempty

end Sys2Proof
end

