-- ==== Sys2Proof/Decode.lean ====
section
/-! DEFINITION. Command words to commands (R70 to R75) and back (R81). -/

namespace Sys2Proof

/-- OPC = w[7:0] (R70). -/
def opcField (w : Word) : BitVec 8 := w.extractLsb' 0 8

/-- CH = w[10:8] (R70). -/
def chField (w : Word) : BitVec 3 := w.extractLsb' 8 3

/-- RSV = w[31:11] (R70). -/
def rsvField (w : Word) : BitVec 21 := w.extractLsb' 11 21

/-- Bit 0 of CH is R, bit 1 G, bit 2 B (R70). -/
def ChanMask.ofBits (b : BitVec 3) : ChanMask where
  red := b.getLsbD 0
  green := b.getLsbD 1
  blue := b.getLsbD 2

/-- The CH field of a mask (R70). -/
def ChanMask.bits (m : ChanMask) : BitVec 3 :=
  BitVec.ofBool m.blue ++ BitVec.ofBool m.green ++ BitVec.ofBool m.red

/-- What an assigned opcode stands for: a command without a mask, or a channel command. -/
inductive OpcForm where
  | plain (i : Instr)
  | channel (mk : ChanMask → Instr)

/-- The opcode map of R73; every value it does not list is unassigned. -/
def opcForm (opc : Nat) : Option OpcForm :=
  match opc with
  | 0x00 => some (.plain .nop)
  | 0x01 => some (.plain .basisgen)
  | 0x10 => some (.channel .dctf)
  | 0x11 => some (.channel .zzsel)
  | 0x12 => some (.channel .dcti)
  | 0x20 => some (.channel .dwtf)
  | 0x21 => some (.channel .dwtselr)
  | 0x22 => some (.channel .dwtselb)
  | 0x23 => some (.channel .dwti)
  | 0x30 => some (.plain .asm)
  | _ => none

/-- The decoder: total on every word, and a word it rejects is rejected with the error that R75 checks 1 and 2 give it. -/
def decode (w : Word) : Except CmdError Instr :=
  match opcForm (opcField w).toNat with
  | none => .error .illegal
  | some form =>
    if rsvField w ≠ 0 then .error .reserved
    else match form with
      | .plain i => if chField w ≠ 0 then .error .reserved else .ok i
      | .channel mk => .ok (mk (ChanMask.ofBits (chField w)))

/-- The opcode of a command (R73). -/
def Instr.opc : Instr → BitVec 8
  | .nop => 0x00
  | .basisgen => 0x01
  | .dctf _ => 0x10
  | .zzsel _ => 0x11
  | .dcti _ => 0x12
  | .dwtf _ => 0x20
  | .dwtselr _ => 0x21
  | .dwtselb _ => 0x22
  | .dwti _ => 0x23
  | .asm => 0x30

/-- The CH field of a command: 000 where it takes no mask (R71). -/
def Instr.chBits (i : Instr) : BitVec 3 :=
  match i.mask? with
  | none => 0
  | some m => m.bits

/-- The encoder: RSV = 0, then CH, then OPC, that is `w = OPC | (CH << 8)` (R81). -/
def encode (i : Instr) : Word :=
  (0 : BitVec 21) ++ i.chBits ++ i.opc

/-- The decoder's reading of a table word: bit 0 of `w` is bit 0 of the command word (R12), and bits from `nbits` on are 0. -/
def decodeTableWord (nbits w : Nat) : Option Instr :=
  match decode (BitVec.ofNat 32 (w % 2 ^ nbits)) with
  | .ok i => some i
  | .error _ => none

end Sys2Proof
end

