-- ==== Sys2Proof/Machine/State.lean ====
section
/-! DEFINITION. The state of the engine as plain data, the reasons a step can stop, and the state after reset. -/

namespace Sys2Proof.Machine

/-- The transform a frequency plane holds (R16, R24). -/
inductive Kind where
  | none
  | dct
  | dwt
  deriving DecidableEq, Repr

/-- PHASE (R33). -/
inductive Phase where
  | idle
  | busy
  deriving DecidableEq, Repr

/-- One value for each colour channel. -/
structure PerChan (α : Type) where
  red   : α
  green : α
  blue  : α
  deriving DecidableEq, Repr

/-- The value of one channel. -/
def PerChan.get {α : Type} (p : PerChan α) : Channel → α
  | .red => p.red
  | .green => p.green
  | .blue => p.blue

/-- The fields of STATUS other than BUSY, which mirrors PHASE (R24, R33). -/
structure StatusFlags where
  basisValid : Bool
  outValid   : Bool
  fkind      : PerChan Kind
  skind      : PerChan Kind
  rvalid     : PerChan Bool
  deriving DecidableEq, Repr

/-- The fields of ERR (R26). CODE is `none` for code 0; codes 7 to 15 are never written (R143), so they have no value here. -/
structure ErrReg where
  code : Option CmdError
  opc  : Byte
  ovr  : Bool
  acc  : Bool
  deriving DecidableEq, Repr

/-- A DONE bit and an ERR bit: the fields of IRQ_EN (R27) and of IRQ_PEND (R28). -/
structure IrqBits where
  done : Bool
  err  : Bool
  deriving DecidableEq, Repr

/-- Memory: (address, byte) pairs, addresses strictly rising. An address that is not listed holds no written byte; what it
reads as is `readByte` of Machine/Memory.lean. -/
abbrev Memory := List Host.Cell

/-- What the outside does to the engine: the four bus transactions (R46) and the reset input (R160). -/
inductive HostEvent where
  | read8 (addr : Word)
  | read32 (addr : Word)
  | write8 (addr : Word) (v : Byte)
  | write32 (addr : Word) (v : Word)
  | reset
  deriving DecidableEq, Repr

/-- What the latest bus transaction returned: data for a read, nothing for a write (R46). -/
inductive Response where
  | none
  | byte (b : Byte)
  | word (w : Word)
  deriving DecidableEq, Repr

/-- The state. The last five fields are the model's own (logs 4, 6, 7, 8); all others are named by the spec. -/
structure State where
  params    : Params
  phase     : Phase
  curCmd    : Word
  curBudget : Word
  flags     : StatusFlags
  budget    : Word
  err       : ErrReg
  irqEn     : IrqBits
  irqPend   : IrqBits
  lastCmd   : Word
  accAddr   : Word
  mem       : Memory
  epoch     : Nat
  accepted  : Nat
  delay     : Nat
  host      : List HostEvent
  response  : Response
  deriving DecidableEq, Repr

/-- Why the machine stops. -/
inductive Fault where
  /-- Raised by `step` when the engine's turn comes in PHASE = BUSY and CUR_CMD is no command's word. Acceptance writes only
  commands' words to CUR_CMD (R76), so no run reaches it (log 9). Safe: the model stops and claims nothing. -/
  | noRunningCommand
  deriving DecidableEq, Repr

/-- Why the machine has no answer. -/
inductive Refusal where
  /-- Raised by `exec` for an instruction that has no meaning yet. Safe: the model stops. No arm raises it now. -/
  | notModelled (mnemonic : String)
  deriving DecidableEq, Repr

/-- The registers, flags and memories of a machine with these parameters right after a reset (R44, R45, R160): every STATUS
flag clear, PHASE = IDLE, no memory byte written. CUR_CMD and CUR_BUDGET are unspecified there; 0 is the model's choice (log 3). -/
def State.afterReset (p : Params) (epoch accepted : Nat) (host : List HostEvent) : State where
  params := p
  phase := .idle
  curCmd := 0
  curBudget := 0
  flags :=
    { basisValid := false
      outValid := false
      fkind := ⟨.none, .none, .none⟩
      skind := ⟨.none, .none, .none⟩
      rvalid := ⟨false, false, false⟩ }
  budget := 0
  err := { code := none, opc := 0, ovr := false, acc := false }
  irqEn := { done := false, err := false }
  irqPend := { done := false, err := false }
  lastCmd := 0
  accAddr := 0
  mem := []
  epoch := epoch
  accepted := accepted
  delay := 0
  host := host
  response := .none

/-- The machine right after reset, at the spec's default parameters (R7, R8), with no host event pending. -/
def State.reset : State :=
  State.afterReset Params.default 0 0 []

end Sys2Proof.Machine
end

