-- ==== Sys2Proof/Machine/Flags.lean ====
section
/-! DEFINITION. The register views of the flags (R24, R26, R27, R28), the irq line (R148) and the flag updates of R42. -/

namespace Sys2Proof.Machine

/-- NONE = 0, DCT = 1, DWT = 2 (R24). -/
def kindBits : Kind → BitVec 2
  | .none => 0
  | .dct => 1
  | .dwt => 2

/-- The codes of R143. -/
def errorCode : CmdError → BitVec 4
  | .illegal => 1
  | .reserved => 2
  | .noChan => 3
  | .noBasis => 4
  | .kind => 5
  | .notReady => 6

/-- ERR.CODE (R26): 0 where the most recent command completed. -/
def codeBits : Option CmdError → BitVec 4
  | none => 0
  | some e => errorCode e

/-- STATUS.BUSY mirrors PHASE (R33). -/
def busyBit (s : State) : Bool := decide (s.phase = .busy)

/-- STATUS as the host reads it (R24). -/
def statusWord (s : State) : Word :=
  (0 : BitVec 14)
    ++ BitVec.ofBool s.flags.rvalid.blue ++ BitVec.ofBool s.flags.rvalid.green ++ BitVec.ofBool s.flags.rvalid.red
    ++ kindBits s.flags.skind.blue ++ kindBits s.flags.skind.green ++ kindBits s.flags.skind.red
    ++ kindBits s.flags.fkind.blue ++ kindBits s.flags.fkind.green ++ kindBits s.flags.fkind.red
    ++ BitVec.ofBool s.flags.outValid ++ BitVec.ofBool s.flags.basisValid ++ BitVec.ofBool (busyBit s)

/-- ERR as the host reads it (R26). -/
def errWord (s : State) : Word :=
  (0 : BitVec 14) ++ BitVec.ofBool s.err.acc ++ BitVec.ofBool s.err.ovr ++ s.err.opc ++ (0 : BitVec 4) ++ codeBits s.err.code

/-- IRQ_EN (R27) and IRQ_PEND (R28) as the host reads them: bit 0 DONE, bit 1 ERR. -/
def irqWord (b : IrqBits) : Word :=
  (0 : BitVec 30) ++ BitVec.ofBool b.err ++ BitVec.ofBool b.done

/-- The irq output (R27, R148). -/
def State.irq (s : State) : Bool :=
  (s.irqPend.done && s.irqEn.done) || (s.irqPend.err && s.irqEn.err)

/-- Set the value of every channel in the mask; a channel outside it keeps its own (R42). -/
def setChannels {α : Type} (m : ChanMask) (v : α) (p : PerChan α) : PerChan α where
  red := if m.red then v else p.red
  green := if m.green then v else p.green
  blue := if m.blue then v else p.blue

/-- The row of DCTF or DWTF in the table of R42. -/
def flagsForward (m : ChanMask) (k : Kind) (f : StatusFlags) : StatusFlags :=
  { f with
    fkind := setChannels m k f.fkind
    skind := setChannels m .none f.skind
    rvalid := setChannels m false f.rvalid
    outValid := false }

/-- The row of ZZSEL, or of DWTSELR and DWTSELB, in the table of R42. -/
def flagsSelect (m : ChanMask) (k : Kind) (f : StatusFlags) : StatusFlags :=
  { f with
    skind := setChannels m k f.skind
    rvalid := setChannels m false f.rvalid
    outValid := false }

/-- The row of DCTI and DWTI in the table of R42. -/
def flagsInverse (m : ChanMask) (f : StatusFlags) : StatusFlags :=
  { f with
    rvalid := setChannels m true f.rvalid
    outValid := false }

/-- The row of ASM in the table of R42. -/
def flagsAssembled (f : StatusFlags) : StatusFlags := { f with outValid := true }

/-- The row of BASISGEN in the table of R42. -/
def flagsBasis (f : StatusFlags) : StatusFlags := { f with basisValid := true }

end Sys2Proof.Machine
end

