-- ==== Sys2Proof/Machine/Float.lean ====
section
/-! DEFINITION. Binary64 arithmetic as R14 names it: unpack to exact integers, compute exactly, round once to nearest,
ties to even. Also the clamp and the truncation of R134 and R135. -/

namespace Sys2Proof.Machine

/-- The value of an encoding. `finite neg m e` is `(-1)^neg · m · 2^e`; a zero has `m = 0` and keeps its sign. -/
inductive FloatVal where
  | nan
  | inf (neg : Bool)
  | finite (neg : Bool) (m : Nat) (e : Int)
  deriving DecidableEq, Repr

/-- The biased exponent, bits 62:52 (R14). -/
def expField (v : F64) : Nat := (v.extractLsb' 52 11).toNat

/-- The stored fraction, bits 51:0 (R14). -/
def fracField (v : F64) : Nat := (v.extractLsb' 0 52).toNat

/-- The sign bit, bit 63 (R14). -/
def signBit (v : F64) : Bool := v.getLsbD 63

/-- The value of a binary64 encoding (R14; log 13 for the subnormal and special exponents). -/
def unpack (v : F64) : FloatVal :=
  if expField v = 2047 then
    if fracField v = 0 then .inf (signBit v) else .nan
  else if expField v = 0 then .finite (signBit v) (fracField v) (-1074)
  else .finite (signBit v) (2 ^ 52 + fracField v) (expField v - 1075)

/-- `m / 2^sh` rounded to the nearest integer, ties to even. -/
def roundShift (m sh : Nat) : Nat :=
  let q := m / 2 ^ sh
  let r := m % 2 ^ sh
  if 2 ^ sh < 2 * r then q + 1
  else if 2 * r = 2 ^ sh then q + q % 2
  else q

/-- The unit in the last place, as a power of two, of the binary64 format at the magnitude `m · 2^e`. -/
def ulpExp (m : Nat) (e : Int) : Int :=
  max (e + (Nat.log2 m + 1) - 53) (-1074)

/-- The encoding of infinity, without its sign. -/
def infMagnitude : Nat := 2047 * 2 ^ 52

/-- The magnitude bits of the binary64 nearest `m · 2^e`, ties to even. A significand that rounds up to 2^53 carries into the
exponent field, and a magnitude past the largest finite number is infinity. -/
def roundMagnitude (m : Nat) (e : Int) : Nat :=
  if m = 0 then 0
  else
    let q := ulpExp m e
    let sig := if q ≤ e then m * 2 ^ (e - q).toNat else roundShift m (q - e).toNat
    min ((q + 1074).toNat * 2 ^ 52 + sig) infMagnitude

/-- `f64(x)` of R14 for `x = (-1)^neg · m · 2^e`. -/
def roundPack (neg : Bool) (m : Nat) (e : Int) : F64 :=
  BitVec.ofBool neg ++ BitVec.ofNat 63 (roundMagnitude m e)

/-- The NaN an operation delivers: a quiet NaN whose other bits are free (log 12). -/
def nanOf (op : FloatOp) (a b : F64) : F64 :=
  let bits := Config.nanBits op a b
  bits.extractLsb' 51 1 ++ (0xFFF : BitVec 12) ++ bits.extractLsb' 0 51

/-- Infinity with a sign. -/
def infOf (neg : Bool) : F64 :=
  BitVec.ofBool neg ++ BitVec.ofNat 63 infMagnitude

/-- +0.0 (R14). -/
def fzero : F64 := 0

/-- The opposite sign, every other bit kept. -/
def fneg (v : F64) : F64 := v ^^^ (1 <<< 63)

/-- The signed integer `(-1)^neg · m`. -/
def signed (neg : Bool) (m : Nat) : Int := if neg then -(m : Int) else m

/-- The sum of two finite values, exact and then rounded. An exact zero is +0.0 unless both operands are negative zeros (R119). -/
def addFinite (n1 : Bool) (m1 : Nat) (e1 : Int) (n2 : Bool) (m2 : Nat) (e2 : Int) : F64 :=
  let e := min e1 e2
  let s := signed n1 (m1 * 2 ^ (e1 - e).toNat) + signed n2 (m2 * 2 ^ (e2 - e).toNat)
  if s = 0 then roundPack (n1 && n2) 0 0
  else roundPack (decide (s < 0)) s.natAbs e

/-- The IEEE 754 sum of the values of `a` and `b`; `op` names the operation whose NaN is delivered. -/
def addVals (op : FloatOp) (a b : F64) (x y : FloatVal) : F64 :=
  match x, y with
  | .nan, _ => nanOf op a b
  | _, .nan => nanOf op a b
  | .inf n1, .inf n2 => if n1 = n2 then infOf n1 else nanOf op a b
  | .inf n1, .finite _ _ _ => infOf n1
  | .finite _ _ _, .inf n2 => infOf n2
  | .finite n1 m1 e1, .finite n2 m2 e2 => addFinite n1 m1 e1 n2 m2 e2

/-- The value with its sign turned. -/
def FloatVal.neg : FloatVal → FloatVal
  | .nan => .nan
  | .inf n => .inf (!n)
  | .finite n m e => .finite (!n) m e

/-- fadd(a, b) (R14). -/
def fadd (a b : F64) : F64 := addVals .add a b (unpack a) (unpack b)

/-- fsub(a, b) (R14): the sum of `a` and the opposite of `b`. -/
def fsub (a b : F64) : F64 := addVals .sub a b (unpack a) (unpack b).neg

/-- fmul(a, b) (R14): the product of the integers, rounded once, with the sign of the product. -/
def fmul (a b : F64) : F64 :=
  match unpack a, unpack b with
  | .nan, _ => nanOf .mul a b
  | _, .nan => nanOf .mul a b
  | .inf n1, .inf n2 => infOf (n1 != n2)
  | .inf n1, .finite n2 m _ => if m = 0 then nanOf .mul a b else infOf (n1 != n2)
  | .finite n1 m _, .inf n2 => if m = 0 then nanOf .mul a b else infOf (n1 != n2)
  | .finite n1 m1 e1, .finite n2 m2 e2 => roundPack (n1 != n2) (m1 * m2) (e1 + e2)

/-- Whether the encoding is a NaN. -/
def isNaN (v : F64) : Bool := decide (unpack v = .nan)

/-- A number that orders the encodings that are no NaN as their values are ordered: both zeros are 0. -/
def orderKey (v : F64) : Int := signed (signBit v) (v.extractLsb' 0 63).toNat

/-- The comparison `a > b` of binary64 values: false where either is a NaN. -/
def fgt (a b : F64) : Bool :=
  !isNaN a && !isNaN b && decide (orderKey b < orderKey a)

/-- The exact widening of a byte to binary64 (R35). -/
def f64OfByte (b : Byte) : F64 := roundPack false b.toNat 0

/-- 0.5. -/
def fhalf : F64 := 0x3FE0000000000000

/-- 0.25. -/
def fquarter : F64 := 0x3FD0000000000000

/-- 1.0. -/
def fone : F64 := 0x3FF0000000000000

/-- 255.0. -/
def f255 : F64 := 0x406FE00000000000

/-- `clamp255(v)` (R134). -/
def clamp255 (v : F64) : F64 :=
  if !fgt v fzero then fzero
  else if fgt v f255 then f255
  else v

/-- The integer part of a finite value that is not negative. -/
def floorNat (v : F64) : Nat :=
  match unpack v with
  | .finite _ m e => if 0 ≤ e then m * 2 ^ e.toNat else m / 2 ^ (-e).toNat
  | _ => 0

/-- `trunc8(v)` for `0 <= v <= 255` (R135). It is applied to clamped values only. -/
def trunc8 (v : F64) : Byte := BitVec.ofNat 8 (floorNat v)

end Sys2Proof.Machine
end

