-- ==== Sys2Proof/Machine/Memory.lean ====
section
/-! DEFINITION. The address map (R50 to R54), the one memory and its two operations, byte order (R48, R49). -/

namespace Sys2Proof.Machine

/-- P_LOG2N (R7). -/
def log2N (p : Params) : Nat := p.log2nLess3.val + 3

/-- N, the plane side (R7). -/
def side (p : Params) : Nat := 2 ^ log2N p

/-- S = N/8, the macro-block side (R10, R127). -/
def mbSide (p : Params) : Nat := side p / 8

/-- N·N/64: the number of DCT tiles and the area of a macro-block (R11). -/
def tileCount (p : Params) : Nat := side p * side p / 64

/-- The six memory windows (R50). `recon` is REC. -/
inductive Window where
  | input
  | output
  | basis
  | freq
  | sel
  | recon
  deriving DecidableEq, Repr

/-- The base address of a window (R50). -/
def Window.base : Window → Nat
  | .input => 0x01000000
  | .output => 0x02000000
  | .basis => 0x03000000
  | .freq => 0x04000000
  | .sel => 0x06000000
  | .recon => 0x08000000

/-- The size of a window in bytes (R50). -/
def Window.size (p : Params) : Window → Nat
  | .input => 3 * (side p * side p)
  | .output => 3 * (side p * side p)
  | .basis => 1024
  | .freq => 3 * (side p * side p) * 8
  | .sel => 3 * (side p * side p) * 8
  | .recon => 3 * (side p * side p) * 8

/-- The six windows, in the order of their bases. -/
def Window.all : List Window := [.input, .output, .basis, .freq, .sel, .recon]

/-- Whether an address is in a window (R50). -/
def Window.contains (p : Params) (w : Window) (a : Nat) : Bool :=
  decide (w.base ≤ a ∧ a < w.base + w.size p)

/-- The window an address is in, if any (R50). -/
def windowAt (p : Params) (a : Nat) : Option Window :=
  Window.all.find? (fun w => w.contains p a)

/-- R = 0, G = 1, B = 2 (R10). -/
def Channel.index : Channel → Nat
  | .red => 0
  | .green => 1
  | .blue => 2

/-- The channels in the order R, G, B (R71). -/
def Channel.all : List Channel := [.red, .green, .blue]

/-- The address of IN[ch][p] (R51). -/
def inputAddr (p : Params) (ch : Channel) (idx : Nat) : Nat :=
  Window.input.base + Channel.index ch * (side p * side p) + idx

/-- The address of the first byte of element [ch][idx div N][idx mod N] of FREQ, SEL or REC (R54). -/
def elemAddr (p : Params) (w : Window) (ch : Channel) (idx : Nat) : Nat :=
  w.base + 8 * (Channel.index ch * (side p * side p) + idx)

/-- The address of U[k][i] (R53). -/
def basisUAddr (k i : Nat) : Nat := Window.basis.base + 8 * (8 * k + i)

/-- The address of V[k][i] (R53). -/
def basisVAddr (k i : Nat) : Nat := Window.basis.base + 512 + 8 * (8 * k + i)

/-- The form of memory: addresses strictly rising. An entry is a written byte, and an unlisted address holds none, so no entry
equals what an unlisted address holds. -/
abbrev Memory.wf (m : Memory) : Prop := m.Pairwise (fun x y => x.1 < y.1)

/-- The byte written at an address, if any. -/
def Memory.lookup : Memory → Nat → Option Byte
  | [], _ => none
  | (k, b) :: m, a => if k = a then some b else Memory.lookup m a

/-- The cells of bytes that lie one after the other from an address on. -/
def cellsFrom : Nat → List Byte → Memory
  | _, [] => []
  | a, b :: bs => (a, b) :: cellsFrom (a + 1) bs

/-- Store bytes one after the other from an address on: the one write operation of memory. -/
def Memory.store (m : Memory) (a : Nat) (bs : List Byte) : Memory :=
  m.filter (fun c => decide (c.1 < a)) ++ cellsFrom a bs ++ m.filter (fun c => decide (a + bs.length ≤ c.1))

/-- What an unlisted address reads as: a free value, drawn anew at every reset (R45; 93 items I3, I9, I10; log 4). -/
def unwrittenByte (epoch a : Nat) : Byte := Config.unspecifiedByte epoch a

/-- The one read of a byte of memory. -/
def readByte (s : State) (a : Nat) : Byte :=
  (s.mem.lookup a).getD (unwrittenByte s.epoch a)

/-- The `n` bytes from an address on. -/
def readBytes (s : State) (a n : Nat) : List Byte :=
  (List.range n).map (fun i => readByte s (a + i))

/-- The first `n` bytes of a value, least significant first (R48, R49). -/
def bytesLE {w : Nat} (v : BitVec w) (n : Nat) : List Byte :=
  (List.range n).map (fun i => v.extractLsb' (8 * i) 8)

/-- The number whose bytes, least significant first, these are (R48, R49). -/
def natOfBytesLE : List Byte → Nat
  | [] => 0
  | b :: bs => b.toNat + 256 * natOfBytesLE bs

/-- The 32-bit word at an address (R48). -/
def readWord (s : State) (a : Nat) : Word :=
  BitVec.ofNat 32 (natOfBytesLE (readBytes s a 4))

/-- The binary64 element whose first byte is at an address: low word first (R49). -/
def readF64 (s : State) (a : Nat) : F64 :=
  BitVec.ofNat 64 (natOfBytesLE (readBytes s a 8))

/-- Store bytes into the memory of the machine. -/
def storeBytes (s : State) (a : Nat) (bs : List Byte) : State :=
  { s with mem := s.mem.store a bs }

end Sys2Proof.Machine
end

