-- ==== Sys2Proof/Machine/Operands.lean ====
section
/-! DEFINITION. The operands of the commands: whole planes, the basis tables, and the quotas drawn from CUR_BUDGET (R17, R72). -/

namespace Sys2Proof.Machine

/-- A plane of binary64 samples, row by row (R12). -/
abbrev Plane := List (List F64)

/-- Element [r][c] (R12). Every index the commands use is inside the plane; outside it the value is +0.0 (log 14). -/
def Plane.at (W : Plane) (r c : Nat) : F64 := (W.getD r []).getD c fzero

/-- The n×n plane whose element [r][c] is `f r c`. -/
def tabulate (n : Nat) (f : Nat → Nat → F64) : Plane :=
  (List.range n).map fun r => (List.range n).map fun c => f r c

/-- IN[ch], each byte widened to binary64 (R35). -/
def inputPlane (s : State) (ch : Channel) : Plane :=
  tabulate (side s.params) fun r c => f64OfByte (readByte s (inputAddr s.params ch (r * side s.params + c)))

/-- FREQ[ch], SEL[ch] or REC[ch] (R37, R38, R39). -/
def coefPlane (s : State) (w : Window) (ch : Channel) : Plane :=
  tabulate (side s.params) fun r c => readF64 s (elemAddr s.params w ch (r * side s.params + c))

/-- U as BASISGEN left it (R36). -/
def basisU (s : State) : Plane := tabulate 8 fun k i => readF64 s (basisUAddr k i)

/-- V as BASISGEN left it (R36). -/
def basisV (s : State) : Plane := tabulate 8 fun k i => readF64 s (basisVAddr k i)

/-- The bytes of an N×N plane as its window lays them out: elements in raster order, 8 bytes each (R54). -/
def planeBytes (n : Nat) (W : Plane) : List Byte :=
  (List.range (n * n)).flatMap fun idx => bytesLE (W.at (idx / n) (idx % n)) 8

/-- Write a plane to FREQ[ch], SEL[ch] or REC[ch]. -/
def storePlane (w : Window) (ch : Channel) (W : Plane) (s : State) : State :=
  storeBytes s (elemAddr s.params w ch 0) (planeBytes (side s.params) W)

/-- Write the plane of every channel in the mask. The planes are given by a function of the channel that the caller computes
from the state before any of them is written (R15, R77). -/
def storePlanes (m : ChanMask) (w : Window) (plane : Channel → Plane) (s : State) : State :=
  Channel.all.foldl (fun t ch => if m.has ch then storePlane w ch (plane ch) t else t) s

/-- `rhu(n, B)`: the nearest integer to n/B, halves up (R106). -/
def rhu (n b : Nat) : Nat := (2 * n + b) / (2 * b)

/-- One bit of the integer square root: keep bit `k` if the square still fits. -/
def isqrtBits (n : Nat) : Nat → Nat → Nat
  | 0, acc => acc
  | k + 1, acc =>
    let cand := acc + 2 ^ k
    isqrtBits n k (if cand * cand ≤ n then cand else acc)

/-- `isqrt(n)`, the largest d with d·d <= n (R12), for a 32-bit budget: 16 bits from the top. -/
def isqrt (n : Word) : Nat := isqrtBits n.toNat 16 0

/-- The per-tile quota m of ZZSEL (R105). -/
def zigzagQuota (s : State) : Nat := min (rhu s.curBudget.toNat (tileCount s.params)) 64

/-- The side d of the square DWTSELR keeps (R124). -/
def radius (s : State) : Nat := min (isqrt s.curBudget) (side s.params)

/-- The macro-block count m of DWTSELB (R128): S·S = N·N/64 (R11). -/
def blockQuota (s : State) : Nat :=
  min (rhu s.curBudget.toNat (mbSide s.params * mbSide s.params)) 64

/-- P_MB_PRIORITY, 64 entries, entry 0 = (0, 0) (R9). -/
def mbPriority (p : Params) : List BlockPos := (0, 0) :: p.mbRest.toList

/-- The two directions of the zig-zag walk (R107). -/
inductive WalkDir where
  | upRight
  | downLeft
  deriving DecidableEq, Repr

/-- One step of the walk of R107 from (r, c). -/
def walkStep (r c : Nat) : WalkDir → Nat × Nat × WalkDir
  | .upRight =>
    if c = 7 then (r + 1, c, .downLeft)
    else if r = 0 then (r, c + 1, .downLeft)
    else (r - 1, c + 1, .upRight)
  | .downLeft =>
    if r = 7 then (r, c + 1, .upRight)
    else if c = 0 then (r + 1, c, .upRight)
    else (r + 1, c - 1, .downLeft)

/-- The next `n` positions of the walk, the current one first. -/
def walk : Nat → Nat → Nat → WalkDir → List (Nat × Nat)
  | 0, _, _, _ => []
  | n + 1, r, c, d => (r, c) :: walk n (walkStep r c d).1 (walkStep r c d).2.1 (walkStep r c d).2.2

/-- ZZ[0..63] (R107). -/
def zigzag : List (Nat × Nat) := walk 64 0 0 .upRight

/-- The value of P_BASIS_DIV (R8). -/
def basisDivNat : BasisDiv → Nat
  | .two => 2
  | .four => 4

/-- PARAM (R22). -/
def paramWord (p : Params) : Word :=
  (0 : BitVec 20) ++ BitVec.ofNat 4 (basisDivNat p.basisDiv) ++ (3 : BitVec 4) ++ BitVec.ofNat 4 (log2N p)

/-- MBPRIO[k] (R31): ROW in bits 10:8, COL in bits 2:0. -/
def mbPrioWord (p : Params) (k : Nat) : Word :=
  let e := (mbPriority p).getD k (0, 0)
  (0 : BitVec 21) ++ BitVec.ofNat 3 e.1.val ++ (0 : BitVec 5) ++ BitVec.ofNat 3 e.2.val

end Sys2Proof.Machine
end

