-- ==== Sys2Proof/Machine/Ops.lean ====
section
/-! DEFINITION. The shared operations: the checks of R75, rejection (R145), acceptance (R76), completion (R77), the other two
error events (R78, R58), the host's acknowledgement (R152) and reset (R160). -/

namespace Sys2Proof.Machine

/-- Whether a property holds of every channel of the mask. -/
def everyChannel (m : ChanMask) (ok : Channel → Bool) : Bool :=
  Channel.all.all fun ch => !m.has ch || ok ch

/-- The error, unless the condition holds. -/
def require (ok : Bool) (e : CmdError) : Option CmdError := if ok then none else some e

/-- E_NOCHAN: a channel command needs a channel (R75 check 3). -/
def needChannel (m : ChanMask) : Option CmdError := require m.nonempty .noChan

/-- E_NOBASIS (R75 check 4). -/
def needBasis (s : State) : Option CmdError := require s.flags.basisValid .noBasis

/-- E_KIND for a selector: FKIND of every selected channel (R75 check 5). -/
def needFreqKind (m : ChanMask) (k : Kind) (s : State) : Option CmdError :=
  require (everyChannel m fun ch => decide (s.flags.fkind.get ch = k)) .kind

/-- E_KIND for an inverse: SKIND of every selected channel (R75 check 5). -/
def needSelKind (m : ChanMask) (k : Kind) (s : State) : Option CmdError :=
  require (everyChannel m fun ch => decide (s.flags.skind.get ch = k)) .kind

/-- E_NOTREADY: RVALID of all three channels (R75 check 6). -/
def needAllRecon (s : State) : Option CmdError :=
  require (Channel.all.all fun ch => s.flags.rvalid.get ch) .notReady

/-- The first error of a list of checks (R75, R146). -/
def firstError : List (Option CmdError) → Option CmdError
  | [] => none
  | some e :: _ => some e
  | none :: rest => firstError rest

/-- Checks 3 to 6 of R75, in order, for each command. Checks 1 and 2 are the decoder's. -/
def check (i : Instr) (s : State) : Option CmdError :=
  match i with
  | .nop => none
  | .basisgen => none
  | .dctf m => firstError [needChannel m, needBasis s]
  | .zzsel m => firstError [needChannel m, needFreqKind m .dct s]
  | .dcti m => firstError [needChannel m, needBasis s, needSelKind m .dct s]
  | .dwtf m => firstError [needChannel m]
  | .dwtselr m => firstError [needChannel m, needFreqKind m .dwt s]
  | .dwtselb m => firstError [needChannel m, needFreqKind m .dwt s]
  | .dwti m => firstError [needChannel m, needSelKind m .dwt s]
  | .asm => firstError [needAllRecon s]

/-- TAKING THE ERROR of a command: the whole of what a rejection does (R145). LAST_CMD is the word of R74. -/
def reject (w : Word) (e : CmdError) (s : State) : State :=
  { s with
    lastCmd := w
    err := { s.err with code := some e, opc := opcField w }
    irqPend := { s.irqPend with err := true } }

/-- Acceptance (R76), with LAST_CMD (R74) and the draw of the completion's place in the order of events (log 6). -/
def accept (w : Word) (s : State) : State :=
  { s with
    lastCmd := w
    phase := .busy
    curCmd := w
    curBudget := s.budget
    delay := Config.completionDelay s.accepted
    accepted := s.accepted + 1 }

/-- What the CMD write does with a decoded command in IDLE: check, then accept or reject (R74). -/
def issue (i : Instr) (s : State) : State :=
  match check i s with
  | some e => reject (encode i) e s
  | none => accept (encode i) s

/-- The common part of the completion step: points 3, 4 and 5 of R77. -/
def finish (s : State) : State :=
  { s with
    phase := .idle
    err := { s.err with code := none, opc := opcField s.curCmd }
    irqPend := { s.irqPend with done := true } }

/-- What every command does, given its effect and flag updates: in IDLE it is the command being issued (R74, R75, R76), in BUSY
it is the running command, and it completes (R77; log 15). -/
def runCommand (i : Instr) (effect : State → State) (s : State) : Host.Outcome State Fault Refusal :=
  match s.phase with
  | .idle => .next (issue i s)
  | .busy => .next (finish (effect s))

/-- A CMD write while BUSY (R78). -/
def overrun (s : State) : State :=
  { s with
    err := { s.err with ovr := true }
    irqPend := { s.irqPend with err := true } }

/-- A host access error (R58): what it records. -/
def accessError (a : Word) (s : State) : State :=
  { s with
    err := { s.err with acc := true }
    accAddr := a
    irqPend := { s.irqPend with err := true } }

/-- The return from an event: the host's write of 1 to IRQ_PEND bits clears them (R28, R152). -/
def acknowledgeIrq (w : Word) (s : State) : State :=
  { s with
    irqPend :=
      { done := s.irqPend.done && !w.getLsbD 0
        err := s.irqPend.err && !w.getLsbD 1 } }

/-- A write to ERR clears OVR (bit 16) and ACC (bit 17) where it writes 1 (R26). -/
def clearErr (w : Word) (s : State) : State :=
  { s with
    err :=
      { s.err with
        ovr := s.err.ovr && !w.getLsbD 16
        acc := s.err.acc && !w.getLsbD 17 } }

/-- A write to IRQ_EN stores bits 0 and 1 (R27). -/
def writeIrqEn (w : Word) (s : State) : State :=
  { s with irqEn := { done := w.getLsbD 0, err := w.getLsbD 1 } }

/-- A write to BUDGET (R25). -/
def writeBudget (w : Word) (s : State) : State := { s with budget := w }

/-- What a bus transaction returns (R46). -/
def respond (r : Response) (s : State) : State := { s with response := r }

/-- The reset event (R160): every register as R44 says, every memory byte a fresh draw, the running command abandoned. The
host's events still to come and the parameters stay (log 11). -/
def resetEvent (s : State) : State :=
  State.afterReset s.params (s.epoch + 1) s.accepted s.host

end Sys2Proof.Machine
end

