-- ==== Sys2Proof/Machine/Assemble.lean ====
section
/-! DEFINITION. The assembler: ASM (R138). -/

namespace Sys2Proof.Machine

/-- The three bytes of pixel `idx`, in the order R, G, B (R137), each clamped and truncated (R138). -/
def pixelBytes (n : Nat) (plane : Channel → Plane) (idx : Nat) : List Byte :=
  Channel.all.map fun ch => trunc8 (clamp255 ((plane ch).at (idx / n) (idx % n)))

/-- The 3·N·N bytes of OUT (R137, R138). -/
def outputBytes (n : Nat) (plane : Channel → Plane) : List Byte :=
  (List.range (n * n)).flatMap (pixelBytes n plane)

/-- ASM at completion (R138). -/
def asmEffect (s : State) : State :=
  let red := coefPlane s .recon .red
  let green := coefPlane s .recon .green
  let blue := coefPlane s .recon .blue
  let plane : Channel → Plane := fun
    | .red => red
    | .green => green
    | .blue => blue
  let t := storeBytes s Window.output.base (outputBytes (side s.params) plane)
  { t with flags := flagsAssembled t.flags }

/-- ASM (R138). -/
def execAsm (s : State) : Host.Outcome State Fault Refusal :=
  runCommand .asm asmEffect s

end Sys2Proof.Machine
end

