-- ==== Sys2Proof/Machine/Control.lean ====
section
/-! DEFINITION. The control family: NOP (R85) and BASISGEN (R88), with the basis tables of R89 and R90. -/

namespace Sys2Proof.Machine

/-- The basis at P_BASIS_DIV = 4: entry [k][i], transcribed from R89. -/
def basisTable4 : Plane :=
  [[0x3FF0000000000000, 0x3FF0000000000000, 0x3FF0000000000000, 0x3FF0000000000000, 0x3FF0000000000000, 0x3FF0000000000000, 0x3FF0000000000000, 0x3FF0000000000000]]
    ++ [[0x3FEFD88DA3D12526, 0x3FEE9F4156C62DDA, 0x3FEC38B2F180BDB1, 0x3FE8BC806B151741, 0x3FE44CF325091DD6, 0x3FDE2B5D3806F63B, 0x3FD294062ED59F06, 0x3FB917A6BC29B42C]]
    ++ [[0x3FEF6297CFF75CB0, 0x3FEA9B66290EA1A3, 0x3FE1C73B39AE68C8, 0x3FC8F8B83C69A60B, 0xBFC8F8B83C69A60B, 0xBFE1C73B39AE68C8, 0xBFEA9B66290EA1A3, 0xBFEF6297CFF75CB0]]
    ++ [[0x3FEE9F4156C62DDA, 0x3FE44CF325091DD6, 0x3FB917A6BC29B42C, 0xBFDE2B5D3806F63B, 0xBFEC38B2F180BDB1, 0xBFEFD88DA3D12526, 0xBFE8BC806B151741, 0xBFD294062ED59F06]]
    ++ [[0x3FED906BCF328D46, 0x3FD87DE2A6AEA963, 0xBFD87DE2A6AEA963, 0xBFED906BCF328D46, 0xBFED906BCF328D46, 0xBFD87DE2A6AEA963, 0x3FD87DE2A6AEA963, 0x3FED906BCF328D46]]
    ++ [[0x3FEC38B2F180BDB1, 0x3FB917A6BC29B42C, 0xBFE8BC806B151741, 0xBFEE9F4156C62DDA, 0xBFD294062ED59F06, 0x3FE44CF325091DD6, 0x3FEFD88DA3D12526, 0x3FDE2B5D3806F63B]]
    ++ [[0x3FEA9B66290EA1A3, 0xBFC8F8B83C69A60B, 0xBFEF6297CFF75CB0, 0xBFE1C73B39AE68C8, 0x3FE1C73B39AE68C8, 0x3FEF6297CFF75CB0, 0x3FC8F8B83C69A60B, 0xBFEA9B66290EA1A3]]
    ++ [[0x3FE8BC806B151741, 0xBFDE2B5D3806F63B, 0xBFEE9F4156C62DDA, 0x3FB917A6BC29B42C, 0x3FEFD88DA3D12526, 0x3FD294062ED59F06, 0xBFEC38B2F180BDB1, 0xBFE44CF325091DD6]]

/-- The basis at P_BASIS_DIV = 2: entry [k][i], transcribed from R90. -/
def basisTable2 : Plane :=
  [[0x3FF0000000000000, 0x3FF0000000000000, 0x3FF0000000000000, 0x3FF0000000000000, 0x3FF0000000000000, 0x3FF0000000000000, 0x3FF0000000000000, 0x3FF0000000000000]]
    ++ [[0x3FEF6297CFF75CB0, 0x3FEA9B66290EA1A3, 0x3FE1C73B39AE68C8, 0x3FC8F8B83C69A60B, 0xBFC8F8B83C69A60B, 0xBFE1C73B39AE68C8, 0xBFEA9B66290EA1A3, 0xBFEF6297CFF75CB0]]
    ++ [[0x3FED906BCF328D46, 0x3FD87DE2A6AEA963, 0xBFD87DE2A6AEA963, 0xBFED906BCF328D46, 0xBFED906BCF328D46, 0xBFD87DE2A6AEA963, 0x3FD87DE2A6AEA963, 0x3FED906BCF328D46]]
    ++ [[0x3FEA9B66290EA1A3, 0xBFC8F8B83C69A60B, 0xBFEF6297CFF75CB0, 0xBFE1C73B39AE68C8, 0x3FE1C73B39AE68C8, 0x3FEF6297CFF75CB0, 0x3FC8F8B83C69A60B, 0xBFEA9B66290EA1A3]]
    ++ [[0x3FE6A09E667F3BCD, 0xBFE6A09E667F3BCD, 0xBFE6A09E667F3BCD, 0x3FE6A09E667F3BCD, 0x3FE6A09E667F3BCD, 0xBFE6A09E667F3BCD, 0xBFE6A09E667F3BCD, 0x3FE6A09E667F3BCD]]
    ++ [[0x3FE1C73B39AE68C8, 0xBFEF6297CFF75CB0, 0x3FC8F8B83C69A60B, 0x3FEA9B66290EA1A3, 0xBFEA9B66290EA1A3, 0xBFC8F8B83C69A60B, 0x3FEF6297CFF75CB0, 0xBFE1C73B39AE68C8]]
    ++ [[0x3FD87DE2A6AEA963, 0xBFED906BCF328D46, 0x3FED906BCF328D46, 0xBFD87DE2A6AEA963, 0xBFD87DE2A6AEA963, 0x3FED906BCF328D46, 0xBFED906BCF328D46, 0x3FD87DE2A6AEA963]]
    ++ [[0x3FC8F8B83C69A60B, 0xBFE1C73B39AE68C8, 0x3FEA9B66290EA1A3, 0xBFEF6297CFF75CB0, 0x3FEF6297CFF75CB0, 0xBFEA9B66290EA1A3, 0x3FE1C73B39AE68C8, 0xBFC8F8B83C69A60B]]

/-- The basis table of the machine: the correctly rounded cosines of R87. -/
def basisTable (p : Params) : Plane :=
  match p.basisDiv with
  | .two => basisTable2
  | .four => basisTable4

/-- The 512 bytes of U, and of V, as the BASIS window lays them out (R53). -/
def basisBytes (p : Params) : List Byte := planeBytes 8 (basisTable p)

/-- NOP (R85): no effect of its own. -/
def execNop (s : State) : Host.Outcome State Fault Refusal :=
  runCommand .nop (fun t => t) s

/-- BASISGEN (R88): U takes the table of R87, V takes U, and BASIS_VALID is set. -/
def basisgenEffect (s : State) : State :=
  let u := storeBytes s (basisUAddr 0 0) (basisBytes s.params)
  let v := storeBytes u (basisVAddr 0 0) (basisBytes s.params)
  { v with flags := flagsBasis v.flags }

/-- BASISGEN (R88). -/
def execBasisgen (s : State) : Host.Outcome State Fault Refusal :=
  runCommand .basisgen basisgenEffect s

end Sys2Proof.Machine
end

