-- ==== Sys2Proof/Machine/Dct.lean ====
section
/-! DEFINITION. The DCT family: DCTF (R95), ZZSEL (R109) and DCTI (R98). -/

namespace Sys2Proof.Machine

/-- Cs(0) = f64(1/√2), the constant of R92. -/
def csZero : F64 := 0x3FE6A09E667F3BCD

/-- Cs(k) (R92). -/
def cs (k : Nat) : F64 := if k = 0 then csZero else fone

/-- The sum of 64 terms from +0.0, first index outer, second inner, both increasing (R94, R97). -/
def sum64 (term : Nat → Nat → F64) : F64 :=
  (List.range 8).foldl (fun s i => (List.range 8).foldl (fun s j => fadd s (term i j)) s) fzero

/-- `dct_fwd_tile` (R94) for the coefficient (u, v) of the tile whose sample at row x and column y is `f x y`. -/
def dctForwardTile (f : Nat → Nat → F64) (U V : Plane) (u v : Nat) : F64 :=
  fmul (fmul (fmul (cs u) (cs v)) fquarter)
    (sum64 fun x y => fmul (fmul (f x y) (U.at u x)) (V.at v y))

/-- `dct_inv_tile` (R97) for the sample at row x and column y of the tile whose coefficient (u, v) is `F u v`. -/
def dctInverseTile (F : Nat → Nat → F64) (U V : Plane) (x y : Nat) : F64 :=
  clamp255 (fmul fquarter
    (sum64 fun u v => fmul (fmul (fmul (fmul (cs u) (cs v)) (F u v)) (U.at u x)) (V.at v y)))

/-- A function of the 8×8 tile applied to every tile of a plane, in place: element [r][c] is element (r mod 8, c mod 8) of the
result for tile (r div 8, c div 8) (R91). -/
def tilewise (n : Nat) (W : Plane) (g : (Nat → Nat → F64) → Nat → Nat → F64) : Plane :=
  tabulate n fun r c => g (fun x y => W.at (8 * (r / 8) + x) (8 * (c / 8) + y)) (r % 8) (c % 8)

/-- The forward block DCT of a plane (R95). -/
def dctForward (n : Nat) (U V W : Plane) : Plane :=
  tilewise n W fun f u v => dctForwardTile f U V u v

/-- The inverse block DCT of a plane (R98). -/
def dctInverse (n : Nat) (U V W : Plane) : Plane :=
  tilewise n W fun F x y => dctInverseTile F U V x y

/-- DCTF at completion (R95): FREQ of every channel in the mask, and the flags of R42. -/
def dctfEffect (m : ChanMask) (s : State) : State :=
  let t := storePlanes m .freq
    (fun ch => dctForward (side s.params) (basisU s) (basisV s) (inputPlane s ch)) s
  { t with flags := flagsForward m .dct t.flags }

/-- DCTF (R95). -/
def execDctf (m : ChanMask) (s : State) : Host.Outcome State Fault Refusal :=
  runCommand (.dctf m) (dctfEffect m) s

/-- Keep the tile positions ZZ[0..q-1] of a plane bit for bit; the others are +0.0 (R109). -/
def zigzagSelect (n q : Nat) (W : Plane) : Plane :=
  let kept := zigzag.take q
  tabulate n fun r c => if kept.contains (r % 8, c % 8) then W.at r c else fzero

/-- ZZSEL at completion (R109). -/
def zzselEffect (m : ChanMask) (s : State) : State :=
  let t := storePlanes m .sel
    (fun ch => zigzagSelect (side s.params) (zigzagQuota s) (coefPlane s .freq ch)) s
  { t with flags := flagsSelect m .dct t.flags }

/-- ZZSEL (R109). -/
def execZzsel (m : ChanMask) (s : State) : Host.Outcome State Fault Refusal :=
  runCommand (.zzsel m) (zzselEffect m) s

/-- DCTI at completion (R98). -/
def dctiEffect (m : ChanMask) (s : State) : State :=
  let t := storePlanes m .recon
    (fun ch => dctInverse (side s.params) (basisU s) (basisV s) (coefPlane s .sel ch)) s
  { t with flags := flagsInverse m t.flags }

/-- DCTI (R98). -/
def execDcti (m : ChanMask) (s : State) : Host.Outcome State Fault Refusal :=
  runCommand (.dcti m) (dctiEffect m) s

end Sys2Proof.Machine
end

