-- ==== Sys2Proof/Machine/Dwt.lean ====
section
/-! DEFINITION. The DWT family: DWTF (R116), DWTSELR (R126), DWTSELB (R130) and DWTI (R120). -/

namespace Sys2Proof.Machine

/-- `(a + b) / 2` (R115). -/
def lowPass (a b : F64) : F64 := fmul (fadd a b) fhalf

/-- `(a - b) / 2` (R115). -/
def highPass (a b : F64) : F64 := fmul (fsub a b) fhalf

/-- Sample j of the row or column of length w that analysis makes of `a`: low-pass in the first half, high-pass in the second (R114). -/
def analyse (w : Nat) (a : Nat → F64) (j : Nat) : F64 :=
  if j < w / 2 then lowPass (a (2 * j)) (a (2 * j + 1))
  else highPass (a (2 * (j - w / 2))) (a (2 * (j - w / 2) + 1))

/-- Sample j of the row or column of length 2·w that synthesis makes of `a`: the low half holds L, the high half H, and the pair
(2i, 2i+1) is L + H, L − H (R117). -/
def synthesise (w : Nat) (a : Nat → F64) (j : Nat) : F64 :=
  if j % 2 = 0 then fadd (a (j / 2)) (a (j / 2 + w))
  else fsub (a (j / 2)) (a (j / 2 + w))

/-- A pass over the rows of the working region, the top-left w×w square: `g` gives each row's new samples from a copy of the row,
and samples outside the region stay (R114, R115, R118). -/
def rowPass (n w : Nat) (g : (Nat → F64) → Nat → F64) (W : Plane) : Plane :=
  tabulate n fun r c => if r < w ∧ c < w then g (fun j => W.at r j) c else W.at r c

/-- The same pass over the columns of the working region. -/
def colPass (n w : Nat) (g : (Nat → F64) → Nat → F64) (W : Plane) : Plane :=
  tabulate n fun r c => if r < w ∧ c < w then g (fun j => W.at j c) r else W.at r c

/-- One forward level on the working region w: rows, then columns (R114). -/
def forwardLevel (n w : Nat) (W : Plane) : Plane :=
  colPass n w (analyse w) (rowPass n w (analyse w) W)

/-- The forward levels w = 2^k, 2^(k-1), …, 2 (R113, R115). -/
def forwardLevels (n : Nat) : Nat → Plane → Plane
  | 0, W => W
  | k + 1, W => forwardLevels n k (forwardLevel n (2 ^ (k + 1)) W)

/-- One synthesis level from w×w quadrants to the 2w×2w region: columns, then rows (R117). -/
def inverseLevel (n w : Nat) (W : Plane) : Plane :=
  rowPass n (2 * w) (synthesise w) (colPass n (2 * w) (synthesise w) W)

/-- The synthesis levels w = 1, 2, …, 2^(k-1) (R117, R118). -/
def inverseLevels (n : Nat) : Nat → Plane → Plane
  | 0, W => W
  | k + 1, W => inverseLevel n (2 ^ k) (inverseLevels n k W)

/-- Every sample clamped (R118). -/
def clampPlane (n : Nat) (W : Plane) : Plane := tabulate n fun r c => clamp255 (W.at r c)

/-- `dwt_fwd` (R115) of the widened input plane. -/
def dwtForward (p : Params) (W : Plane) : Plane := forwardLevels (side p) (log2N p) W

/-- `dwt_inv` (R118) of the selected plane: one clamp, at the end. -/
def dwtInverse (p : Params) (W : Plane) : Plane := clampPlane (side p) (inverseLevels (side p) (log2N p) W)

/-- DWTF at completion (R116). -/
def dwtfEffect (m : ChanMask) (s : State) : State :=
  let t := storePlanes m .freq (fun ch => dwtForward s.params (inputPlane s ch)) s
  { t with flags := flagsForward m .dwt t.flags }

/-- DWTF (R116). -/
def execDwtf (m : ChanMask) (s : State) : Host.Outcome State Fault Refusal :=
  runCommand (.dwtf m) (dwtfEffect m) s

/-- Keep the top-left d×d square bit for bit; the rest is +0.0 (R125, R126). -/
def radiusSelect (n d : Nat) (W : Plane) : Plane :=
  tabulate n fun r c => if r < d ∧ c < d then W.at r c else fzero

/-- DWTSELR at completion (R126). -/
def dwtselrEffect (m : ChanMask) (s : State) : State :=
  let t := storePlanes m .sel
    (fun ch => radiusSelect (side s.params) (radius s) (coefPlane s .freq ch)) s
  { t with flags := flagsSelect m .dwt t.flags }

/-- DWTSELR (R126). -/
def execDwtselr (m : ChanMask) (s : State) : Host.Outcome State Fault Refusal :=
  runCommand (.dwtselr m) (dwtselrEffect m) s

/-- Whether macro-block (br, bc) is in K, the set of the first `q` entries of the priority table (R129). -/
def blockKept (p : Params) (q br bc : Nat) : Bool :=
  ((mbPriority p).take q).any fun e => decide (e.1.val = br ∧ e.2.val = bc)

/-- Keep the macro-blocks of K bit for bit; the rest is +0.0 (R130). -/
def blockSelect (p : Params) (q : Nat) (W : Plane) : Plane :=
  tabulate (side p) fun r c => if blockKept p q (r / mbSide p) (c / mbSide p) then W.at r c else fzero

/-- DWTSELB at completion (R130). -/
def dwtselbEffect (m : ChanMask) (s : State) : State :=
  let t := storePlanes m .sel
    (fun ch => blockSelect s.params (blockQuota s) (coefPlane s .freq ch)) s
  { t with flags := flagsSelect m .dwt t.flags }

/-- DWTSELB (R130). -/
def execDwtselb (m : ChanMask) (s : State) : Host.Outcome State Fault Refusal :=
  runCommand (.dwtselb m) (dwtselbEffect m) s

/-- DWTI at completion (R120). -/
def dwtiEffect (m : ChanMask) (s : State) : State :=
  let t := storePlanes m .recon (fun ch => dwtInverse s.params (coefPlane s .sel ch)) s
  { t with flags := flagsInverse m t.flags }

/-- DWTI (R120). -/
def execDwti (m : ChanMask) (s : State) : Host.Outcome State Fault Refusal :=
  runCommand (.dwti m) (dwtiEffect m) s

end Sys2Proof.Machine
end

