-- ==== Sys2Proof/Machine/Dispatch.lean ====
section
/-! DEFINITION. One arm for each command of spec/opcode_table.json. -/

namespace Sys2Proof.Machine

def exec (i : Instr) (s : State) : Host.Outcome State Fault Refusal :=
  match i with
  | .nop => Sys2Proof.Machine.execNop s
  | .basisgen => Sys2Proof.Machine.execBasisgen s
  | .dctf m => Sys2Proof.Machine.execDctf m s
  | .zzsel m => Sys2Proof.Machine.execZzsel m s
  | .dcti m => Sys2Proof.Machine.execDcti m s
  | .dwtf m => Sys2Proof.Machine.execDwtf m s
  | .dwtselr m => Sys2Proof.Machine.execDwtselr m s
  | .dwtselb m => Sys2Proof.Machine.execDwtselb m s
  | .dwti m => Sys2Proof.Machine.execDwti m s
  | .asm => Sys2Proof.Machine.execAsm s

end Sys2Proof.Machine
end

