-- ==== Sys2Proof/Machine/Bus.lean ====
section
/-! DEFINITION. The host side: the register block (R20 to R32), the windows (R50 to R59) and the four bus transactions (R46). -/

namespace Sys2Proof.Machine

/-- The registers of the map of R20. -/
inductive Reg where
  | id
  | param
  | cmd
  | status
  | budget
  | err
  | irqEn
  | irqPend
  | lastCmd
  | accAddr
  | mbprio (k : Nat)
  deriving DecidableEq, Repr

/-- The register at an aligned offset; `none` is a reserved offset (R20, R32). -/
def regAt (off : Nat) : Option Reg :=
  match off with
  | 0x000 => some .id
  | 0x004 => some .param
  | 0x008 => some .cmd
  | 0x00C => some .status
  | 0x010 => some .budget
  | 0x014 => some .err
  | 0x018 => some .irqEn
  | 0x01C => some .irqPend
  | 0x020 => some .lastCmd
  | 0x024 => some .accAddr
  | _ => if 0x100 ≤ off ∧ off < 0x200 ∧ off % 4 = 0 then some (.mbprio ((off - 0x100) / 4)) else none

/-- ID, "DCTW" (R21). -/
def idWord : Word := 0x44435457

/-- What a read of a register returns; reading changes nothing (R20 to R31, R60). CMD reads 0 (R23). -/
def readReg (s : State) : Reg → Word
  | .id => idWord
  | .param => paramWord s.params
  | .cmd => 0
  | .status => statusWord s
  | .budget => s.budget
  | .err => errWord s
  | .irqEn => irqWord s.irqEn
  | .irqPend => irqWord s.irqPend
  | .lastCmd => s.lastCmd
  | .accAddr => s.accAddr
  | .mbprio k => mbPrioWord s.params k

/-- A word written to CMD (R74): dropped as an overrun while BUSY (R78); in IDLE decoded, rejected by the decoder's error (R75
checks 1 and 2), or issued as the command it encodes. -/
def writeCmd (w : Word) (s : State) : Host.Outcome State Fault Refusal :=
  match s.phase with
  | .busy => .next (overrun s)
  | .idle =>
    match decode w with
    | .error e => .next (reject w e s)
    | .ok i => exec i s

/-- A word written to a register (R20, R60). A write to a read-only register is an access error (R58). -/
def writeReg (a v : Word) (r : Reg) (s : State) : Host.Outcome State Fault Refusal :=
  match r with
  | .cmd => writeCmd v s
  | .budget => .next (writeBudget v s)
  | .err => .next (clearErr v s)
  | .irqEn => .next (writeIrqEn v s)
  | .irqPend => .next (acknowledgeIrq v s)
  | .id => .next (accessError a s)
  | .param => .next (accessError a s)
  | .status => .next (accessError a s)
  | .lastCmd => .next (accessError a s)
  | .accAddr => .next (accessError a s)
  | .mbprio _ => .next (accessError a s)

/-- Where an access goes. -/
inductive Target where
  | reg (r : Reg)
  | window (w : Window)
  deriving DecidableEq, Repr

/-- What an address names (R32, R50); `none` is a reserved offset or an unmapped address. -/
def targetAt (p : Params) (a : Nat) : Option Target :=
  if a < 0x1000 then (regAt a).map .reg
  else (windowAt p a).map .window

/-- What a word access reaches: nothing if the address is misaligned (R56) or unmapped, or a window while BUSY (R59). -/
def wordTarget (s : State) (a : Nat) : Option Target :=
  if a % 4 = 0 then
    match targetAt s.params a with
    | some (.reg r) => some (.reg r)
    | some (.window w) => if busyBit s then none else some (.window w)
    | none => none
  else none

/-- The window a byte access reaches: none if it names a register (R55), an unmapped address, or a window while BUSY (R59). -/
def byteTarget (s : State) (a : Nat) : Option Window :=
  match targetAt s.params a with
  | some (.window w) => if busyBit s then none else some w
  | _ => none

/-- MemRead(addr, 4). -/
def busRead32 (a : Word) (s : State) : State :=
  match wordTarget s a.toNat with
  | some (.reg r) => respond (.word (readReg s r)) s
  | some (.window _) => respond (.word (readWord s a.toNat)) s
  | none => respond (.word 0) (accessError a s)

/-- Whether a window admits byte reads (R55). -/
def Window.byteReadable : Window → Bool
  | .input => true
  | .output => true
  | .basis => false
  | .freq => false
  | .sel => false
  | .recon => false

/-- MemRead(addr, 1). -/
def busRead8 (a : Word) (s : State) : State :=
  match byteTarget s a.toNat with
  | some w =>
    if w.byteReadable then respond (.byte (readByte s a.toNat)) s
    else respond (.byte 0) (accessError a s)
  | none => respond (.byte 0) (accessError a s)

/-- Store bytes into IN, the one window the host may write (R55); any other window is an access error. -/
def writeWindow (a : Word) (bs : List Byte) (w : Window) (s : State) : State :=
  match w with
  | .input => storeBytes s a.toNat bs
  | .output => accessError a s
  | .basis => accessError a s
  | .freq => accessError a s
  | .sel => accessError a s
  | .recon => accessError a s

/-- MemWrite(addr, 1, v). -/
def busWrite8 (a : Word) (v : Byte) (s : State) : State :=
  match byteTarget s a.toNat with
  | some w => writeWindow a [v] w s
  | none => accessError a s

/-- MemWrite(addr, 4, v). -/
def busWrite32 (a v : Word) (s : State) : Host.Outcome State Fault Refusal :=
  match wordTarget s a.toNat with
  | some (.reg r) => writeReg a v r s
  | some (.window w) => .next (writeWindow a (bytesLE v 4) w s)
  | none => .next (accessError a s)

/-- One host event (R46, R160). A write returns nothing. -/
def hostEvent (e : HostEvent) (s : State) : Host.Outcome State Fault Refusal :=
  match e with
  | .read8 a => .next (busRead8 a s)
  | .read32 a => .next (busRead32 a s)
  | .write8 a v => .next (busWrite8 a v (respond .none s))
  | .write32 a v => busWrite32 a v (respond .none s)
  | .reset => .next (resetEvent s)

/-- Take the first pending host event off the list; one of the events that may precede a running command's completion is used up. -/
def takeEvent (rest : List HostEvent) (s : State) : State :=
  { s with host := rest, delay := s.delay - 1 }

/-- Whether the next event is the completion of the running command (R64, R77; log 6): the host events it waits for have passed,
or no host event is left. -/
def engineTurn (s : State) : Bool :=
  busyBit s && (decide (s.delay = 0) || s.host.isEmpty)

/-- The engine's step: the command in CUR_CMD completes (R77). -/
def engineStep (s : State) : Host.Outcome State Fault Refusal :=
  match decode s.curCmd with
  | .ok i => exec i s
  | .error _ => .fault .noRunningCommand

/-- The host's step: its next pending event. With none pending, nothing happens (R161). -/
def hostStep (s : State) : Host.Outcome State Fault Refusal :=
  match s.host with
  | [] => .next s
  | e :: rest => hostEvent e (takeEvent rest s)

/-- The address of CMD (R74). -/
def cmdAddr : Word := 0x00000008

/-- The command word of a table word (R12). -/
def tableWord (nbits w : Nat) : Word := BitVec.ofNat 32 (w % 2 ^ nbits)

/-- An idle engine whose next event is the host's write of a word to CMD (R74; log 16). -/
def placeCommand (s : State) (w : Word) : State :=
  { s with phase := .idle, host := .write32 cmdAddr w :: s.host }

end Sys2Proof.Machine
end

