-- ==== Sys2Proof/Machine/Step.lean ====
section
/-! DEFINITION. One step: the next event of the one total order of R63. -/

namespace Sys2Proof.Machine

/-- The next event: the running command's completion where it is due, else the host's next event. -/
def step (s : State) : Host.Outcome State Fault Refusal :=
  if engineTurn s then engineStep s else hostStep s

/-- The state in which the very next step issues the command of a table word (log 16). -/
def State.withFetchWord (s : State) (nbits w : Nat) : State :=
  placeCommand s (tableWord nbits w)

end Sys2Proof.Machine
end

