-- ==== Sys2Proof/Safety.lean ====
section
/-! DEFINITION. What a good state is: the properties that reset has and every step keeps, in the terms claims use. -/

namespace Sys2Proof.Machine

/-- Memory has its canonical form, and every byte that was ever written is in one of the six windows (R47, R50). -/
def MemoryGood (s : State) : Prop :=
  s.mem.wf ∧ ∀ c ∈ s.mem, ∃ w : Window, w.contains s.params c.1 = true

/-- While BUSY, CUR_CMD is a command whose checks all passed (R75, R76), and LAST_CMD equals it (R29). -/
def RunningGood (s : State) : Prop :=
  s.phase = .busy → s.lastCmd = s.curCmd ∧ ∃ i, decode s.curCmd = .ok i ∧ check i s = none

/-- The order the pipeline of R163 leaves in the flags: a DCT plane needs the basis, a selection is of the kind of its FREQ plane, a
reconstruction needs a selection, and a valid output needs all three reconstructions. -/
def FlagsGood (f : StatusFlags) : Prop :=
  (∀ ch, f.fkind.get ch = .dct → f.basisValid = true)
    ∧ (∀ ch, f.skind.get ch ≠ .none → f.skind.get ch = f.fkind.get ch)
    ∧ (∀ ch, f.rvalid.get ch = true → f.skind.get ch ≠ .none)
    ∧ (f.outValid = true → ∀ ch, f.rvalid.get ch = true)

/-- BASIS_VALID = 1 once U and V hold the basis (R24, R87, R88). -/
def BasisGood (s : State) : Prop :=
  s.flags.basisValid = true →
    ∀ k i, k < 8 → i < 8 →
      readF64 s (basisUAddr k i) = (basisTable s.params).at k i ∧ readF64 s (basisVAddr k i) = (basisTable s.params).at k i

/-- A value in [0, 255] as clamp255 leaves it: +0.0, or above 0.0 and not above 255.0 (R134). -/
def clamped (v : F64) : Bool := decide (v = fzero) || (fgt v fzero && !fgt v f255)

/-- A plane of REC that an inverse transform wrote holds clamped values (R39). -/
def ReconGood (s : State) : Prop :=
  ∀ ch, s.flags.rvalid.get ch = true →
    ∀ idx, idx < side s.params * side s.params → clamped (readF64 s (elemAddr s.params .recon ch idx)) = true

/-- A plane of SEL that a selector wrote is a filtered copy of FREQ: each element is FREQ's, bit for bit, or +0.0 (R38). -/
def SelectionGood (s : State) : Prop :=
  ∀ ch, s.flags.skind.get ch ≠ .none →
    ∀ idx, idx < side s.params * side s.params →
      readF64 s (elemAddr s.params .sel ch idx) = readF64 s (elemAddr s.params .freq ch idx)
        ∨ readF64 s (elemAddr s.params .sel ch idx) = fzero

/-- OUT_VALID = 1 when OUT holds the assembly of the current REC planes (R24, R52). -/
def OutputGood (s : State) : Prop :=
  s.flags.outValid = true →
    ∀ ch idx, idx < side s.params * side s.params →
      readByte s (Window.output.base + (3 * idx + Channel.index ch))
        = trunc8 (clamp255 (readF64 s (elemAddr s.params .recon ch idx)))

/-- All of it together. -/
structure Inv (s : State) : Prop where
  memory    : MemoryGood s
  running   : RunningGood s
  flags     : FlagsGood s.flags
  basis     : BasisGood s
  recon     : ReconGood s
  selection : SelectionGood s
  output    : OutputGood s

/-- Run the machine for `k` steps, stopping where a step stops. -/
def runSteps : Nat → State → Host.Outcome State Fault Refusal
  | 0, s => .next s
  | k + 1, s =>
    match step s with
    | .next t => runSteps k t
    | .fault f => .fault f
    | .refused r => .refused r

end Sys2Proof.Machine
end

