-- ==== Sys2Proof/Certificates/Slice0/Obligations.lean ====
section
/-! DEFINITION. The statements for the provers. Each docstring names the rules of spec/ it formalises; where a clause is the
model's choice, the docstring names the log entry. -/

open Sys2Proof Sys2Proof.Machine

namespace Sys2Proof.Claims

/-! ### The terms the statements share -/

/-- A state after completion (R77): BUSY clear, ERR.CODE = 0, ERR.OPC the running command's opcode, IRQ_PEND.DONE set, with these
flags and this memory. Every other field of the state is as before. -/
def completed (s : State) (f : StatusFlags) (m : Memory) : State :=
  { s with
    phase := .idle
    err := { s.err with code := none, opc := s.curCmd.extractLsb' 0 8 }
    irqPend := { s.irqPend with done := true }
    flags := f
    mem := m }

/-- The DCTF, DWTF row of R42: `k` is the kind the command writes. -/
def forwardFlags (m : ChanMask) (k : Kind) (f g : StatusFlags) : Prop :=
  (∀ ch, g.fkind.get ch = if m.has ch then k else f.fkind.get ch)
    ∧ (∀ ch, g.skind.get ch = if m.has ch then .none else f.skind.get ch)
    ∧ (∀ ch, g.rvalid.get ch = if m.has ch then false else f.rvalid.get ch)
    ∧ g.outValid = false ∧ g.basisValid = f.basisValid

/-- The ZZSEL, DWTSELR and DWTSELB rows of R42. -/
def selectFlags (m : ChanMask) (k : Kind) (f g : StatusFlags) : Prop :=
  (∀ ch, g.fkind.get ch = f.fkind.get ch)
    ∧ (∀ ch, g.skind.get ch = if m.has ch then k else f.skind.get ch)
    ∧ (∀ ch, g.rvalid.get ch = if m.has ch then false else f.rvalid.get ch)
    ∧ g.outValid = false ∧ g.basisValid = f.basisValid

/-- The DCTI, DWTI row of R42. -/
def inverseFlags (m : ChanMask) (f g : StatusFlags) : Prop :=
  (∀ ch, g.fkind.get ch = f.fkind.get ch)
    ∧ (∀ ch, g.skind.get ch = f.skind.get ch)
    ∧ (∀ ch, g.rvalid.get ch = if m.has ch then true else f.rvalid.get ch)
    ∧ g.outValid = false ∧ g.basisValid = f.basisValid

/-- Every byte outside the planes of the mask in a window reads in `t` as in `s`: plane ch lies from `elemAddr … ch 0` on and is
8·N·N bytes long (R54). -/
def sameOutsidePlanes (m : ChanMask) (w : Window) (s t : State) : Prop :=
  ∀ a, (∀ ch, m.has ch = true →
      ¬ (elemAddr s.params w ch 0 ≤ a ∧ a < elemAddr s.params w ch 0 + 8 * (side s.params * side s.params))) →
    readByte t a = readByte s a

/-- Element [ch][r][c] of FREQ, SEL or REC (R54). -/
def element (s : State) (w : Window) (ch : Channel) (r c : Nat) : F64 :=
  readF64 s (elemAddr s.params w ch (r * side s.params + c))

/-- Sample [ch][r][c] of IN, widened (R35, R51). -/
def sample (s : State) (ch : Channel) (r c : Nat) : F64 :=
  f64OfByte (readByte s (inputAddr s.params ch (r * side s.params + c)))

/-- The sum of the 64 bytes of tile (tr, tc) of IN[ch] (R91, R101). -/
def tileSum (s : State) (ch : Channel) (tr tc : Nat) : Nat :=
  ((List.range 8).map fun x => ((List.range 8).map fun y =>
    (readByte s (inputAddr s.params ch ((8 * tr + x) * side s.params + (8 * tc + y)))).toNat).sum).sum

/-- The state with the command running again, at a budget: acceptance of a further command (R76) as far as a completion sees it. -/
def running (s : State) (n : Word) : State := { s with phase := .busy, curBudget := n }

/-- The ten assigned opcodes (R73). -/
def assigned : List Nat := [0x00, 0x01, 0x10, 0x11, 0x12, 0x20, 0x21, 0x22, 0x23, 0x30]

/-- The opcodes that take no channel mask (R71). -/
def maskless : List Nat := [0x00, 0x01, 0x30]

/-- OPC, CH and RSV of a word as numbers (R70). -/
def opcOf (w : Word) : Nat := (w.extractLsb' 0 8).toNat

def chOf (w : Word) : Nat := (w.extractLsb' 8 3).toNat

def rsvOf (w : Word) : Nat := (w.extractLsb' 11 21).toNat

/-- Whether a word fails the check that raises an error, in the bits of the word and the flags (R75). -/
def fails (w : Word) (s : State) : CmdError → Prop
  | .illegal => opcOf w ∉ assigned
  | .reserved => rsvOf w ≠ 0 ∨ (opcOf w ∈ maskless ∧ chOf w ≠ 0)
  | .noChan => opcOf w ∉ maskless ∧ chOf w = 0
  | .noBasis => (opcOf w = 0x10 ∨ opcOf w = 0x12) ∧ s.flags.basisValid = false
  | .kind => ∃ ch : Channel, w.getLsbD (8 + Channel.index ch) = true
      ∧ ((opcOf w = 0x11 ∧ s.flags.fkind.get ch ≠ .dct)
        ∨ ((opcOf w = 0x21 ∨ opcOf w = 0x22) ∧ s.flags.fkind.get ch ≠ .dwt)
        ∨ (opcOf w = 0x12 ∧ s.flags.skind.get ch ≠ .dct)
        ∨ (opcOf w = 0x23 ∧ s.flags.skind.get ch ≠ .dwt))
  | .notReady => opcOf w = 0x30 ∧ ∃ ch : Channel, s.flags.rvalid.get ch = false

/-- The first failing check of R75: the codes of R143 are in the order of the checks. -/
def firstFailing (w : Word) (s : State) (e : CmdError) : Prop :=
  fails w s e ∧ ∀ e', (errorCode e').toNat < (errorCode e).toNat → ¬ fails w s e'

/-- The state after a rejection of `w` with `e` (R145). -/
def rejected (w : Word) (e : CmdError) (s : State) : State :=
  { s with
    lastCmd := w
    err := { s.err with code := some e, opc := w.extractLsb' 0 8 }
    irqPend := { s.irqPend with err := true } }

/-- The state after the acceptance of `w` (R74, R76). `delay` and `accepted` are the model's own: the draw of the completion's
place in the order of events (log 6). -/
def accepted (w : Word) (s : State) : State :=
  { s with
    lastCmd := w
    phase := .busy
    curCmd := w
    curBudget := s.budget
    delay := Config.completionDelay s.accepted
    accepted := s.accepted + 1 }

/-- What a write leaves as the answer of its transaction: nothing (R46; log 8). -/
def answered (s : State) : State := { s with response := .none }

/-- The offsets of the register map (R20). -/
def registerOffset (a : Nat) : Prop :=
  a ∈ [0x000, 0x004, 0x008, 0x00C, 0x010, 0x014, 0x018, 0x01C, 0x020, 0x024] ∨ (0x100 ≤ a ∧ a < 0x200 ∧ a % 4 = 0)

/-- The offsets of the read-only registers (R20). -/
def readOnlyOffset (a : Nat) : Prop :=
  a ∈ [0x000, 0x004, 0x00C, 0x020, 0x024] ∨ (0x100 ≤ a ∧ a < 0x200)

/-- An address inside a window (R50). -/
def inWindow (p : Params) (w : Window) (a : Nat) : Prop := w.base ≤ a ∧ a < w.base + w.size p

/-- Word reads that are no access error (R55, R56, R58, R59). -/
def wordReadLegal (s : State) (a : Nat) : Prop :=
  a % 4 = 0 ∧ (registerOffset a ∨ (s.phase = .idle ∧ ∃ w, inWindow s.params w a))

/-- Byte reads that are no access error. -/
def byteReadLegal (s : State) (a : Nat) : Prop :=
  s.phase = .idle ∧ (inWindow s.params .input a ∨ inWindow s.params .output a)

/-- Word writes that are no access error. -/
def wordWriteLegal (s : State) (a : Nat) : Prop :=
  a % 4 = 0 ∧ ((registerOffset a ∧ ¬ readOnlyOffset a) ∨ (s.phase = .idle ∧ inWindow s.params .input a))

/-- Byte writes that are no access error. -/
def byteWriteLegal (s : State) (a : Nat) : Prop :=
  s.phase = .idle ∧ inWindow s.params .input a

/-- The state after a host access error at `a` (R58) that answered `r`. -/
def accessErred (a : Word) (r : Response) (s : State) : State :=
  { s with
    err := { s.err with acc := true }
    accAddr := a
    irqPend := { s.irqPend with err := true }
    response := r }

/-- Host events that touch nothing a completion touches or depends on: writes of BUDGET, IRQ_EN and ERR, and reads of the registers
that a completion does not change. -/
def besideCompletion : HostEvent → Prop
  | .write32 a _ => a = 0x10 ∨ a = 0x14 ∨ a = 0x18
  | .read32 a => a = 0x00 ∨ a = 0x04 ∨ a = 0x08 ∨ a = 0x10 ∨ a = 0x18 ∨ a = 0x20 ∨ a = 0x24 ∨ (0x100 ≤ a.toNat ∧ a.toNat < 0x200)
  | .read8 _ => False
  | .write8 _ _ => False
  | .reset => False

/-- U and V hold the basis of the machine (R87, R88). -/
def basisHeld (s : State) : Prop :=
  ∀ k i, k < 8 → i < 8 →
    readF64 s (basisUAddr k i) = (basisTable s.params).at k i ∧ readF64 s (basisVAddr k i) = (basisTable s.params).at k i

/-- Cs(k) of R92, as the spec writes its bits. -/
def scale (k : Nat) : F64 := if k = 0 then 0x3FE6A09E667F3BCD else 0x3FF0000000000000

/-- `s` of R94 and R97 after the first `n` of the 64 rounds of its two loops: +0.0, then in round `k` the term of outer index k div 8
and inner index k mod 8 is added. -/
def loopSum (term : Nat → Nat → F64) : Nat → F64
  | 0 => 0x0000000000000000
  | k + 1 => fadd (loopSum term k) (term (k / 8) (k % 8))

/-- `(a + b) / 2` and `(a - b) / 2` as R115 computes them. -/
def halfSum (a b : F64) : F64 := fmul (fadd a b) 0x3FE0000000000000

def halfDifference (a b : F64) : F64 := fmul (fsub a b) 0x3FE0000000000000

/-- f64(cos(j·π/32)) for j = 0 to 15, from the first entries of R89's rows. -/
def cosines : List F64 :=
  [0x3FF0000000000000, 0x3FEFD88DA3D12526, 0x3FEF6297CFF75CB0, 0x3FEE9F4156C62DDA, 0x3FED906BCF328D46, 0x3FEC38B2F180BDB1]
    ++ [0x3FEA9B66290EA1A3, 0x3FE8BC806B151741, 0x3FE6A09E667F3BCD, 0x3FE44CF325091DD6, 0x3FE1C73B39AE68C8, 0x3FDE2B5D3806F63B]
    ++ [0x3FD87DE2A6AEA963, 0x3FD294062ED59F06, 0x3FC8F8B83C69A60B, 0x3FB917A6BC29B42C]

/-- f64(cos(a·π/32)) from `cosines`, by the symmetries of the cosine, for an `a` that is no odd multiple of 16. -/
def cosine (a : Nat) : F64 :=
  let b := if a % 64 ≤ 32 then a % 64 else 64 - a % 64
  if b < 16 then cosines.getD b 0 else cosines.getD (32 - b) 0 ^^^ 0x8000000000000000

/-- The basis entry of R86 and R87: the angle is (2i + 1)·k·π / (P_BASIS_DIV · 8). -/
def basisEntry (p : Params) (k i : Nat) : F64 :=
  match p.basisDiv with
  | .four => cosine ((2 * i + 1) * k)
  | .two => cosine (2 * ((2 * i + 1) * k))

/-- A binary64 zero of either sign. -/
def isZero (v : F64) : Prop := v = 0x0000000000000000 ∨ v = 0x8000000000000000

end Sys2Proof.Claims

open Sys2Proof.Claims

/-! ### Encoding -/

/-- R70, R71, R73, R81: no bit of a command's encoding is dropped, for every command and every mask. -/
def Obligations.DecodeOfEncode : Prop :=
  ∀ i : Instr, decode (encode i) = .ok i

/-- R70, R73, R80: a word has one meaning, so a decoded command encodes to the very word. -/
def Obligations.EncodeOfDecode : Prop :=
  ∀ (w : Word) (i : Instr), decode w = .ok i → encode i = w

/-- R73, R75, R79: which words the decoder turns away, and with which error; every other word is a command. -/
def Obligations.DecoderRejectsExactly : Prop :=
  ∀ w : Word,
    (decode w = .error .illegal ↔ opcOf w ∉ assigned)
      ∧ (decode w = .error .reserved ↔ opcOf w ∈ assigned ∧ (rsvOf w ≠ 0 ∨ (opcOf w ∈ maskless ∧ chOf w ≠ 0)))
      ∧ (∀ e, decode w = .error e → e = .illegal ∨ e = .reserved)

/-- R81 and the encodings of R85, R88, R95, R98, R109, R116, R120, R126, R130, R138: words of the spec, one of each command. -/
def Obligations.SpecWordsDecode : Prop :=
  decode 0x00000000 = .ok .nop
    ∧ decode 0x00000001 = .ok .basisgen
    ∧ decode 0x00000710 = .ok (.dctf ⟨true, true, true⟩)
    ∧ decode 0x00000111 = .ok (.zzsel ⟨true, false, false⟩)
    ∧ decode 0x00000412 = .ok (.dcti ⟨false, false, true⟩)
    ∧ decode 0x00000520 = .ok (.dwtf ⟨true, false, true⟩)
    ∧ decode 0x00000321 = .ok (.dwtselr ⟨true, true, false⟩)
    ∧ decode 0x00000622 = .ok (.dwtselb ⟨false, true, true⟩)
    ∧ decode 0x00000723 = .ok (.dwti ⟨true, true, true⟩)
    ∧ decode 0x00000030 = .ok .asm

/-! ### A step runs the decoded command -/

/-- R77, R33: when the completion is the next event, the step is the command in CUR_CMD. When it is the next event is the model's
choice of log 6: `engineTurn`. -/
def Obligations.StepCompletesRunningCommand : Prop :=
  ∀ (s : State) (i : Instr), s.phase = .busy → (s.delay = 0 ∨ s.host = []) → decode s.curCmd = .ok i →
    step s = exec i s

/-- R74, R67: the host's write of a command word to CMD in IDLE runs that command; the event is taken off the list (logs 6, 7, 8). -/
def Obligations.StepIssuesWrittenCommand : Prop :=
  ∀ (s : State) (w : Word) (rest : List HostEvent) (i : Instr), s.phase = .idle → s.host = .write32 0x00000008 w :: rest →
    decode w = .ok i →
    step s = exec i { s with host := rest, delay := s.delay - 1, response := .none }

/-! ### Issue -/

/-- R75, R146: a word written to CMD in IDLE meets the six checks in order. The first that fails is the error, and the write does
what R145 says of it. If none fails the word is accepted as R76 says. -/
def Obligations.CmdWriteFollowsTheChecks : Prop :=
  ∀ (s : State) (w : Word), s.phase = .idle →
    (∀ e, firstFailing w s e → hostEvent (.write32 0x00000008 w) s = .next (rejected w e (answered s)))
      ∧ ((∀ e, ¬ fails w s e) → hostEvent (.write32 0x00000008 w) s = .next (accepted w (answered s)))

/-- R76: acceptance sets BUSY, CUR_CMD, CUR_BUDGET, after LAST_CMD (R74), and nothing else but the model's draw of the completion's
place (log 6). It holds for each of the ten commands. -/
def Obligations.AcceptanceChangesNothingElse : Prop :=
  ∀ (s : State) (i : Instr), s.phase = .idle → check i s = none →
    exec i s = .next
      { s with
        phase := .busy
        curCmd := encode i
        curBudget := s.budget
        lastCmd := encode i
        delay := Config.completionDelay s.accepted
        accepted := s.accepted + 1 }

/-- R145: what a rejection writes, and nothing else, for every word and every error that turns it away in IDLE. -/
def Obligations.RejectionIsPrecise : Prop :=
  ∀ (s : State) (w : Word) (e : CmdError), s.phase = .idle →
    (decode w = .error e ∨ ∃ i, decode w = .ok i ∧ check i s = some e) →
    writeCmd w s = .next
      { s with
        lastCmd := w
        err := { s.err with code := some e, opc := w.extractLsb' 0 8 }
        irqPend := { s.irqPend with err := true } }

/-- R78: a CMD write while BUSY sets ERR.OVR and IRQ_PEND.ERR; the word is dropped and everything else stays. -/
def Obligations.OverrunDropsTheWord : Prop :=
  ∀ (s : State) (w : Word), s.phase = .busy →
    hostEvent (.write32 0x00000008 w) s = .next
      { s with
        err := { s.err with ovr := true }
        irqPend := { s.irqPend with err := true }
        response := .none }

/-! ### Completion, command by command -/

/-- R85, R77: NOP completes with nothing but the common completion. -/
def Obligations.NopCompletes : Prop :=
  ∀ s : State, s.phase = .busy → exec .nop s = .next (completed s s.flags s.mem)

/-- R87, R88: BASISGEN completes with the table of the divisor in U and in V, entry by entry the nearest cosine of R86, BASIS_VALID set,
and every byte outside the BASIS window and every other field as before. -/
def Obligations.BasisgenCompletes : Prop :=
  ∀ s : State, s.phase = .busy →
    ∃ t, exec .basisgen s = .next t
      ∧ t = completed s { s.flags with basisValid := true } t.mem
      ∧ basisHeld t
      ∧ (∀ k i, k < 8 → i < 8 →
          readF64 t (basisUAddr k i) = basisEntry s.params k i ∧ readF64 t (basisVAddr k i) = basisEntry s.params k i)
      ∧ ∀ a, ¬ inWindow s.params .basis a → readByte t a = readByte s a

/-- R91, R92, R94, R95: DCTF completes with the coefficients of R94, summed in its order (x outer, y inner, both increasing, from +0.0)
from the bytes of IN and the entries of U and V;
the flags of R42; every byte outside the FREQ planes of the mask, and every other field, as before. -/
def Obligations.DctfCompletes : Prop :=
  ∀ (s : State) (m : ChanMask), s.phase = .busy →
    ∃ t, exec (.dctf m) s = .next t
      ∧ t = completed s t.flags t.mem
      ∧ forwardFlags m .dct s.flags t.flags
      ∧ (∀ ch r c, m.has ch = true → r < side s.params → c < side s.params →
          element t .freq ch r c
            = fmul (fmul (fmul (scale (r % 8)) (scale (c % 8))) 0x3FD0000000000000)
                (loopSum (fun x y =>
                  fmul (fmul (sample s ch (8 * (r / 8) + x) (8 * (c / 8) + y)) (readF64 s (basisUAddr (r % 8) x)))
                    (readF64 s (basisVAddr (c % 8) y))) 64))
      ∧ sameOutsidePlanes m .freq s t

/-- R105, R109: ZZSEL completes with the first m positions of the zig-zag order kept bit for bit in every tile and +0.0 elsewhere. -/
def Obligations.ZzselCompletes : Prop :=
  ∀ (s : State) (m : ChanMask), s.phase = .busy →
    ∃ t, exec (.zzsel m) s = .next t
      ∧ t = completed s t.flags t.mem
      ∧ selectFlags m .dct s.flags t.flags
      ∧ (∀ ch r c, m.has ch = true → r < side s.params → c < side s.params →
          element t .sel ch r c
            = if (r % 8, c % 8) ∈ zigzag.take (min (rhu s.curBudget.toNat (side s.params * side s.params / 64)) 64)
              then element s .freq ch r c else 0)
      ∧ sameOutsidePlanes m .sel s t

/-- R91, R92, R97, R98: DCTI completes with the clamped samples of R97, summed in its order (u outer, v inner, both increasing, from
+0.0) from SEL, U and V. -/
def Obligations.DctiCompletes : Prop :=
  ∀ (s : State) (m : ChanMask), s.phase = .busy →
    ∃ t, exec (.dcti m) s = .next t
      ∧ t = completed s t.flags t.mem
      ∧ inverseFlags m s.flags t.flags
      ∧ (∀ ch r c, m.has ch = true → r < side s.params → c < side s.params →
          element t .recon ch r c
            = clamp255 (fmul 0x3FD0000000000000
                (loopSum (fun u v =>
                  fmul (fmul (fmul (fmul (scale u) (scale v)) (element s .sel ch (8 * (r / 8) + u) (8 * (c / 8) + v)))
                    (readF64 s (basisUAddr u (r % 8)))) (readF64 s (basisVAddr v (c % 8)))) 64)))
      ∧ sameOutsidePlanes m .recon s t

/-- R113, R115, R116: DWTF completes with the P_LOG2N forward levels of the widened input plane, at w = N = 2^P_LOG2N first, then N/2,
down to 2. What one level does is `ForwardLevelFormula`. -/
def Obligations.DwtfCompletes : Prop :=
  (∀ (s : State) (m : ChanMask), s.phase = .busy →
    ∃ t, exec (.dwtf m) s = .next t
      ∧ t = completed s t.flags t.mem
      ∧ forwardFlags m .dwt s.flags t.flags
      ∧ (∀ ch r c, m.has ch = true → r < side s.params → c < side s.params →
          element t .freq ch r c
            = (forwardLevels (side s.params) (log2N s.params) (tabulate (side s.params) (sample s ch))).at r c)
      ∧ sameOutsidePlanes m .freq s t)
    ∧ (∀ p, side p = 2 ^ log2N p)
    ∧ ∀ (n k : Nat) (W : Plane),
        forwardLevels n 0 W = W ∧ forwardLevels n (k + 1) W = forwardLevels n k (forwardLevel n (2 ^ (k + 1)) W)

/-- R124, R126: DWTSELR completes with the top-left d×d square kept bit for bit and +0.0 elsewhere, d = min(isqrt(n), N). -/
def Obligations.DwtselrCompletes : Prop :=
  ∀ (s : State) (m : ChanMask), s.phase = .busy →
    ∃ t, exec (.dwtselr m) s = .next t
      ∧ t = completed s t.flags t.mem
      ∧ selectFlags m .dwt s.flags t.flags
      ∧ (∀ ch r c, m.has ch = true → r < side s.params → c < side s.params →
          element t .sel ch r c
            = if r < min (isqrt s.curBudget) (side s.params) ∧ c < min (isqrt s.curBudget) (side s.params)
              then element s .freq ch r c else 0)
      ∧ sameOutsidePlanes m .sel s t

/-- R127, R128, R129, R130: DWTSELB completes with the macro-blocks of the first m entries of the priority table kept whole and bit
for bit and +0.0 elsewhere, for every table. -/
def Obligations.DwtselbCompletes : Prop :=
  ∀ (s : State) (m : ChanMask), s.phase = .busy →
    ∃ t, exec (.dwtselb m) s = .next t
      ∧ t = completed s t.flags t.mem
      ∧ selectFlags m .dwt s.flags t.flags
      ∧ (∀ ch r c, m.has ch = true → r < side s.params → c < side s.params →
          ((∃ e ∈ (mbPriority s.params).take
                (min (rhu s.curBudget.toNat ((side s.params / 8) * (side s.params / 8))) 64),
              e.1.val = r / (side s.params / 8) ∧ e.2.val = c / (side s.params / 8)) →
            element t .sel ch r c = element s .freq ch r c)
          ∧ ((¬ ∃ e ∈ (mbPriority s.params).take
                (min (rhu s.curBudget.toNat ((side s.params / 8) * (side s.params / 8))) 64),
              e.1.val = r / (side s.params / 8) ∧ e.2.val = c / (side s.params / 8)) →
            element t .sel ch r c = 0))
      ∧ sameOutsidePlanes m .sel s t

/-- R117, R118, R120: DWTI completes with the P_LOG2N synthesis levels of the selected plane, from w = 1 upwards, clamped once. What one
level does is `InverseLevelFormula`. -/
def Obligations.DwtiCompletes : Prop :=
  (∀ (s : State) (m : ChanMask), s.phase = .busy →
    ∃ t, exec (.dwti m) s = .next t
      ∧ t = completed s t.flags t.mem
      ∧ inverseFlags m s.flags t.flags
      ∧ (∀ ch r c, m.has ch = true → r < side s.params → c < side s.params →
          element t .recon ch r c
            = clamp255 ((inverseLevels (side s.params) (log2N s.params)
                (tabulate (side s.params) (element s .sel ch))).at r c))
      ∧ sameOutsidePlanes m .recon s t)
    ∧ ∀ (n k : Nat) (W : Plane),
        inverseLevels n 0 W = W ∧ inverseLevels n (k + 1) W = inverseLevel n (2 ^ k) (inverseLevels n k W)

/-- R137, R138: ASM completes with byte 3·p + ch of OUT the truncated, clamped sample p of REC[ch], OUT_VALID set, and every byte
outside the OUT window and every other field as before. -/
def Obligations.AsmCompletes : Prop :=
  ∀ s : State, s.phase = .busy →
    ∃ t, exec .asm s = .next t
      ∧ t = completed s { s.flags with outValid := true } t.mem
      ∧ (∀ ch r c, r < side s.params → c < side s.params →
          readByte t (Window.output.base + (3 * (r * side s.params + c) + Channel.index ch))
            = trunc8 (clamp255 (element s .recon ch r c)))
      ∧ ∀ a, ¬ inWindow s.params .output a → readByte t a = readByte s a

/-! ### The transforms level by level -/

/-- R114, with the arithmetic of R115: one forward level on the working region w = 2h of an N×N plane gives the four bands, rows before columns, and leaves every
sample outside the region. -/
def Obligations.ForwardLevelFormula : Prop :=
  ∀ (n h : Nat) (W : Plane), 2 * h ≤ n →
    (∀ r c, r < h → c < h →
      (forwardLevel n (2 * h) W).at r c
          = halfSum (halfSum (W.at (2 * r) (2 * c)) (W.at (2 * r) (2 * c + 1)))
              (halfSum (W.at (2 * r + 1) (2 * c)) (W.at (2 * r + 1) (2 * c + 1)))
        ∧ (forwardLevel n (2 * h) W).at r (h + c)
          = halfSum (halfDifference (W.at (2 * r) (2 * c)) (W.at (2 * r) (2 * c + 1)))
              (halfDifference (W.at (2 * r + 1) (2 * c)) (W.at (2 * r + 1) (2 * c + 1)))
        ∧ (forwardLevel n (2 * h) W).at (h + r) c
          = halfDifference (halfSum (W.at (2 * r) (2 * c)) (W.at (2 * r) (2 * c + 1)))
              (halfSum (W.at (2 * r + 1) (2 * c)) (W.at (2 * r + 1) (2 * c + 1)))
        ∧ (forwardLevel n (2 * h) W).at (h + r) (h + c)
          = halfDifference (halfDifference (W.at (2 * r) (2 * c)) (W.at (2 * r) (2 * c + 1)))
              (halfDifference (W.at (2 * r + 1) (2 * c)) (W.at (2 * r + 1) (2 * c + 1))))
      ∧ ∀ r c, r < n → c < n → (2 * h ≤ r ∨ 2 * h ≤ c) → (forwardLevel n (2 * h) W).at r c = W.at r c

/-- R117: one synthesis level from w×w quadrants to the 2w×2w region gives L + H and L − H, columns before rows, and leaves every
sample outside the region. -/
def Obligations.InverseLevelFormula : Prop :=
  ∀ (n w : Nat) (W : Plane), 2 * w ≤ n →
    (∀ i j, i < w → j < w →
      (inverseLevel n w W).at (2 * i) (2 * j)
          = fadd (fadd (W.at i j) (W.at (i + w) j)) (fadd (W.at i (j + w)) (W.at (i + w) (j + w)))
        ∧ (inverseLevel n w W).at (2 * i) (2 * j + 1)
          = fsub (fadd (W.at i j) (W.at (i + w) j)) (fadd (W.at i (j + w)) (W.at (i + w) (j + w)))
        ∧ (inverseLevel n w W).at (2 * i + 1) (2 * j)
          = fadd (fsub (W.at i j) (W.at (i + w) j)) (fsub (W.at i (j + w)) (W.at (i + w) (j + w)))
        ∧ (inverseLevel n w W).at (2 * i + 1) (2 * j + 1)
          = fsub (fsub (W.at i j) (W.at (i + w) j)) (fsub (W.at i (j + w)) (W.at (i + w) (j + w))))
      ∧ ∀ r c, r < n → c < n → (2 * w ≤ r ∨ 2 * w ≤ c) → (inverseLevel n w W).at r c = W.at r c

/-- R116, corner case: a constant plane of bytes k transforms to k at [0][0] and +0.0 everywhere else, at every N. -/
def Obligations.ConstantPlaneTransformsToItsMean : Prop :=
  ∀ (p : Params) (k : Byte) (r c : Nat), r < side p → c < side p →
    (dwtForward p (tabulate (side p) fun _ _ => f64OfByte k)).at r c = if r = 0 ∧ c = 0 then f64OfByte k else 0

/-- R121: DWTF, a selector that keeps every coefficient, and DWTI reproduce IN exactly in binary64, for every input and every N:
with DWTSELR at n >= N·N, and with DWTSELB at m = 64 and a table that lists every macro-block. -/
def Obligations.DwtRoundTripIsExact : Prop :=
  ∀ (s t₁ t₂ t₃ : State) (m : ChanMask) (n₁ n₂ n₃ : Word),
    exec (.dwtf m) (running s n₁) = .next t₁ →
    ((exec (.dwtselr m) (running t₁ n₂) = .next t₂ ∧ side s.params * side s.params ≤ n₂.toNat)
      ∨ (exec (.dwtselb m) (running t₁ n₂) = .next t₂
          ∧ min (rhu n₂.toNat ((side s.params / 8) * (side s.params / 8))) 64 = 64
          ∧ ∀ e : BlockPos, e ∈ mbPriority s.params)) →
    exec (.dwti m) (running t₂ n₃) = .next t₃ →
    ∀ ch r c, m.has ch = true → r < side s.params → c < side s.params → element t₃ .recon ch r c = sample s ch r c

/-! ### Selection -/

/-- R106: rhu(n, B) is the integer nearest n/B, halves up. -/
def Obligations.RhuRoundsHalfUp : Prop :=
  ∀ n b : Nat, 0 < b → 2 * (b * rhu n b) ≤ 2 * n + b ∧ 2 * n + b < 2 * (b * (rhu n b + 1))

/-- R12: isqrt(n) is the largest d with d·d <= n, for every 32-bit n. -/
def Obligations.IsqrtIsTheFloorRoot : Prop :=
  ∀ n : Word, isqrt n * isqrt n ≤ n.toNat ∧ n.toNat < (isqrt n + 1) * (isqrt n + 1)

/-- R108: the 64 positions in the spec's order, which the walk of R107 produces; each position once. -/
def Obligations.ZigzagOrderIsTheSpecTable : Prop :=
  zigzag
      = [(0, 0), (0, 1), (1, 0), (2, 0), (1, 1), (0, 2), (0, 3), (1, 2)]
        ++ [(2, 1), (3, 0), (4, 0), (3, 1), (2, 2), (1, 3), (0, 4), (0, 5)]
        ++ [(1, 4), (2, 3), (3, 2), (4, 1), (5, 0), (6, 0), (5, 1), (4, 2)]
        ++ [(3, 3), (2, 4), (1, 5), (0, 6), (0, 7), (1, 6), (2, 5), (3, 4)]
        ++ [(4, 3), (5, 2), (6, 1), (7, 0), (7, 1), (6, 2), (5, 3), (4, 4)]
        ++ [(3, 5), (2, 6), (1, 7), (2, 7), (3, 6), (4, 5), (5, 4), (6, 3)]
        ++ [(7, 2), (7, 3), (6, 4), (5, 5), (4, 6), (3, 7), (4, 7), (5, 6)]
        ++ [(6, 5), (7, 4), (7, 5), (6, 6), (5, 7), (6, 7), (7, 6), (7, 7)]
    ∧ zigzag.Nodup ∧ ∀ r c, r < 8 → c < 8 → (r, c) ∈ zigzag

/-- R110, R131: a coefficient position that a selector keeps at a budget it keeps at every larger budget, for the three policies and
for every priority table. -/
def Obligations.LargerBudgetKeepsMore : Prop :=
  ∀ (s : State) (n₁ n₂ : Word), n₁.toNat ≤ n₂.toNat →
    (∀ q, q ∈ zigzag.take (zigzagQuota { s with curBudget := n₁ }) → q ∈ zigzag.take (zigzagQuota { s with curBudget := n₂ }))
      ∧ radius { s with curBudget := n₁ } ≤ radius { s with curBudget := n₂ }
      ∧ ∀ br bc, blockKept s.params (blockQuota { s with curBudget := n₁ }) br bc = true →
          blockKept s.params (blockQuota { s with curBudget := n₂ }) br bc = true

/-- R111, R133: the exact thresholds below which ZZSEL and DWTSELB truncate, and the radius policy's. -/
def Obligations.TruncationThresholds : Prop :=
  ∀ s : State,
    (zigzagQuota s < 64 ↔ 2 * s.curBudget.toNat + side s.params * side s.params / 64
        < 128 * (side s.params * side s.params / 64))
      ∧ (blockQuota s < 64 ↔ 2 * s.curBudget.toNat + side s.params / 8 * (side s.params / 8)
        < 128 * (side s.params / 8 * (side s.params / 8)))
      ∧ (s.curBudget.toNat < side s.params * side s.params → radius s ≤ side s.params - 1)

/-- R112: at n = 0 ZZSEL writes +0.0 to every SEL coefficient of every selected channel. -/
def Obligations.ZzselAtZeroBudgetWritesZeros : Prop :=
  ∀ (s t : State) (m : ChanMask), exec (.zzsel m) (running s 0) = .next t →
    ∀ ch r c, m.has ch = true → r < side s.params → c < side s.params → element t .sel ch r c = 0

/-- R132: at n = 0 both DWT policies write +0.0 to every SEL coefficient, and after DWTI the reconstruction is +0.0 everywhere. -/
def Obligations.DwtSelectorsAtZeroBudgetWriteZeros : Prop :=
  ∀ (s t u : State) (m : ChanMask) (n : Word),
    (exec (.dwtselr m) (running s 0) = .next t ∨ exec (.dwtselb m) (running s 0) = .next t) →
    exec (.dwti m) (running t n) = .next u →
    ∀ ch r c, m.has ch = true → r < side s.params → c < side s.params →
      element t .sel ch r c = 0 ∧ element u .recon ch r c = 0

/-- R102: a SEL tile of zeros of either sign reconstructs to +0.0 at every position of the tile, when U and V hold the basis. -/
def Obligations.ZeroTileReconstructsToZero : Prop :=
  ∀ (s t : State) (m : ChanMask) (ch : Channel) (tr tc : Nat),
    s.phase = .busy → basisHeld s → exec (.dcti m) s = .next t → m.has ch = true →
    8 * tr + 7 < side s.params → 8 * tc + 7 < side s.params →
    (∀ u v, u < 8 → v < 8 → isZero (element s .sel ch (8 * tr + u) (8 * tc + v))) →
    ∀ x y, x < 8 → y < 8 → element t .recon ch (8 * tr + x) (8 * tc + y) = 0

/-- R101, the source's end-to-end case: DCTF, ZZSEL at a quota of 1 and DCTI make every position of a tile the same value, and its
byte is the floor of the mean of the tile's 64 bytes, at both values of P_BASIS_DIV. -/
def Obligations.DctAtOneCoefficientShowsTileMeans : Prop :=
  ∀ (s t₁ t₂ t₃ : State) (m : ChanMask) (n₁ n₂ n₃ : Word),
    basisHeld s →
    min (rhu n₂.toNat (side s.params * side s.params / 64)) 64 = 1 →
    exec (.dctf m) (running s n₁) = .next t₁ →
    exec (.zzsel m) (running t₁ n₂) = .next t₂ →
    exec (.dcti m) (running t₂ n₃) = .next t₃ →
    ∀ ch r c, m.has ch = true → r < side s.params → c < side s.params →
      element t₃ .recon ch r c = element t₃ .recon ch (8 * (r / 8)) (8 * (c / 8))
        ∧ (trunc8 (element t₃ .recon ch r c)).toNat = tileSum s ch (r / 8) (c / 8) / 64

/-! ### Clamp and truncation -/

/-- R134, R139: clamp255 lands on +0.0 or in (0, 255], returns an in-range value bit for bit, and is idempotent. -/
def Obligations.ClampLandsInRange : Prop :=
  ∀ v : F64,
    (clamp255 v = 0 ∨ (fgt (clamp255 v) 0 = true ∧ fgt (clamp255 v) 0x406FE00000000000 = false))
      ∧ (fgt v 0 = true → fgt v 0x406FE00000000000 = false → clamp255 v = v)
      ∧ (fgt v 0 = false → clamp255 v = 0)
      ∧ (fgt v 0x406FE00000000000 = true → clamp255 v = 0x406FE00000000000)
      ∧ clamp255 (clamp255 v) = clamp255 v

/-- R135: for a value from 0 to 255, -0.0 among them, trunc8 is the largest integer not above it. R35: it undoes the widening of every
byte, which the clamp leaves; with R121 this is the DWT clause of R141. -/
def Obligations.TruncationIsTheFloor : Prop :=
  (∀ v : F64, isNaN v = false → fgt 0 v = false → fgt v 0x406FE00000000000 = false →
      fgt (f64OfByte (trunc8 v)) v = false
        ∧ (trunc8 v ≠ 255 → fgt (f64OfByte (trunc8 v + 1)) v = true))
    ∧ ∀ b : Byte, clamp255 (f64OfByte b) = f64OfByte b ∧ trunc8 (f64OfByte b) = b

/-! ### The host's side -/

/-- R58, with the accesses R55, R56 and R59 allow: an access error returns 0, records itself, and changes nothing else. -/
def Obligations.AccessErrorsRecordAndChangeNothingElse : Prop :=
  ∀ (s : State) (a v : Word) (b : Byte),
    (¬ wordReadLegal s a.toNat → hostEvent (.read32 a) s = .next (accessErred a (.word 0) s))
      ∧ (¬ byteReadLegal s a.toNat → hostEvent (.read8 a) s = .next (accessErred a (.byte 0) s))
      ∧ (¬ wordWriteLegal s a.toNat → hostEvent (.write32 a v) s = .next (accessErred a .none s))
      ∧ (¬ byteWriteLegal s a.toNat → hostEvent (.write8 a b) s = .next (accessErred a .none s))

/-- R60, R48: a read without an access error changes nothing and returns the word, or the byte, at its address. -/
def Obligations.LegalReadsHaveNoSideEffect : Prop :=
  ∀ (s : State) (a : Word),
    (wordReadLegal s a.toNat → a.toNat < 0x1000 →
        ∃ r, regAt a.toNat = some r ∧ hostEvent (.read32 a) s = .next { s with response := .word (readReg s r) })
      ∧ (wordReadLegal s a.toNat → 0x1000 ≤ a.toNat →
        hostEvent (.read32 a) s = .next { s with response := .word (readWord s a.toNat) })
      ∧ (byteReadLegal s a.toNat → hostEvent (.read8 a) s = .next { s with response := .byte (readByte s a.toNat) })

/-- R51, R55, R61: a legal write to IN stores its four bytes, least significant first (R48), or its one byte, and changes nothing
else. -/
def Obligations.InputWritesStoreTheirBytes : Prop :=
  ∀ (s : State) (a v : Word) (b : Byte), s.phase = .idle → inWindow s.params .input a.toNat →
    (a.toNat % 4 = 0 →
      ∃ t, hostEvent (.write32 a v) s = .next t
        ∧ t = { s with mem := t.mem, response := .none }
        ∧ readByte t a.toNat = v.extractLsb' 0 8
        ∧ readByte t (a.toNat + 1) = v.extractLsb' 8 8
        ∧ readByte t (a.toNat + 2) = v.extractLsb' 16 8
        ∧ readByte t (a.toNat + 3) = v.extractLsb' 24 8
        ∧ readWord t a.toNat = v
        ∧ ∀ x, ¬ (a.toNat ≤ x ∧ x < a.toNat + 4) → readByte t x = readByte s x)
      ∧ ∃ t, hostEvent (.write8 a b) s = .next t
        ∧ t = { s with mem := t.mem, response := .none }
        ∧ readByte t a.toNat = b
        ∧ ∀ x, x ≠ a.toNat → readByte t x = readByte s x

/-- R49: the word at an element's offset is bits 31:0 of its encoding, the word at offset + 4 is bits 63:32. -/
def Obligations.ElementIsTwoWordsLowFirst : Prop :=
  ∀ (s : State) (e : Nat),
    readWord s e = (readF64 s e).extractLsb' 0 32 ∧ readWord s (e + 4) = (readF64 s e).extractLsb' 32 32

/-- R54, R49: the host reads element [ch][r][c] of FREQ, SEL and REC by two word reads at its window offset, in IDLE. -/
def Obligations.CoefficientWindowsReadTheirElements : Prop :=
  ∀ (s : State) (w : Window) (ch : Channel) (r c : Nat), s.phase = .idle → (w = .freq ∨ w = .sel ∨ w = .recon) →
    r < side s.params → c < side s.params →
    let e := elemAddr s.params w ch (r * side s.params + c)
    hostEvent (.read32 (BitVec.ofNat 32 e)) s = .next { s with response := .word ((element s w ch r c).extractLsb' 0 32) }
      ∧ hostEvent (.read32 (BitVec.ofNat 32 (e + 4))) s = .next { s with response := .word ((element s w ch r c).extractLsb' 32 32) }

/-- R25, R26, R27, R28, R60, R152: what a write to each writable register other than CMD does, whatever the phase: BUDGET and IRQ_EN
store, ERR and IRQ_PEND clear the bits written 1. -/
def Obligations.RegisterWrites : Prop :=
  ∀ (s : State) (v : Word),
    hostEvent (.write32 0x10 v) s = .next { s with budget := v, response := .none }
      ∧ hostEvent (.write32 0x14 v) s = .next
          { s with
            err := { s.err with ovr := s.err.ovr && !v.getLsbD 16, acc := s.err.acc && !v.getLsbD 17 }
            response := .none }
      ∧ hostEvent (.write32 0x18 v) s = .next
          { s with irqEn := { done := v.getLsbD 0, err := v.getLsbD 1 }, response := .none }
      ∧ hostEvent (.write32 0x1C v) s = .next
          { s with
            irqPend := { done := s.irqPend.done && !v.getLsbD 0, err := s.irqPend.err && !v.getLsbD 1 }
            response := .none }

/-- R20, R21, R22, R23, R25, R29, R30, R31: what a host word read of each register of the map returns, whatever the phase. The fields of
PARAM and MBPRIO are `ParameterRegisters`, those of STATUS, ERR, IRQ_EN and IRQ_PEND are `StatusAndErrFields`. -/
def Obligations.RegisterReads : Prop :=
  ∀ s : State,
    hostEvent (.read32 0x00) s = .next { s with response := .word 0x44435457 }
      ∧ hostEvent (.read32 0x04) s = .next { s with response := .word (paramWord s.params) }
      ∧ hostEvent (.read32 0x08) s = .next { s with response := .word 0 }
      ∧ hostEvent (.read32 0x0C) s = .next { s with response := .word (statusWord s) }
      ∧ hostEvent (.read32 0x10) s = .next { s with response := .word s.budget }
      ∧ hostEvent (.read32 0x14) s = .next { s with response := .word (errWord s) }
      ∧ hostEvent (.read32 0x18) s = .next { s with response := .word (irqWord s.irqEn) }
      ∧ hostEvent (.read32 0x1C) s = .next { s with response := .word (irqWord s.irqPend) }
      ∧ hostEvent (.read32 0x20) s = .next { s with response := .word s.lastCmd }
      ∧ hostEvent (.read32 0x24) s = .next { s with response := .word s.accAddr }
      ∧ ∀ k, k < 64 →
          hostEvent (.read32 (BitVec.ofNat 32 (0x100 + 4 * k))) s = .next { s with response := .word (mbPrioWord s.params k) }

/-- R24, R26, R27, R28, R143: the fields of STATUS, ERR, IRQ_EN and IRQ_PEND, bit by bit, and the numbers of the kinds and of the error
codes. -/
def Obligations.StatusAndErrFields : Prop :=
  (∀ s : State,
    (statusWord s).getLsbD 0 = decide (s.phase = .busy)
      ∧ (statusWord s).getLsbD 1 = s.flags.basisValid
      ∧ (statusWord s).getLsbD 2 = s.flags.outValid
      ∧ (∀ ch, (statusWord s).extractLsb' (3 + 2 * Channel.index ch) 2 = kindBits (s.flags.fkind.get ch))
      ∧ (∀ ch, (statusWord s).extractLsb' (9 + 2 * Channel.index ch) 2 = kindBits (s.flags.skind.get ch))
      ∧ (∀ ch, (statusWord s).getLsbD (15 + Channel.index ch) = s.flags.rvalid.get ch)
      ∧ (statusWord s).extractLsb' 18 14 = 0
      ∧ (errWord s).extractLsb' 0 4 = codeBits s.err.code
      ∧ (errWord s).extractLsb' 4 4 = 0
      ∧ (errWord s).extractLsb' 8 8 = s.err.opc
      ∧ (errWord s).getLsbD 16 = s.err.ovr
      ∧ (errWord s).getLsbD 17 = s.err.acc
      ∧ (errWord s).extractLsb' 18 14 = 0)
    ∧ (kindBits .none = 0 ∧ kindBits .dct = 1 ∧ kindBits .dwt = 2)
    ∧ (codeBits none = 0 ∧ codeBits (some .illegal) = 1 ∧ codeBits (some .reserved) = 2 ∧ codeBits (some .noChan) = 3
      ∧ codeBits (some .noBasis) = 4 ∧ codeBits (some .kind) = 5 ∧ codeBits (some .notReady) = 6)
    ∧ (∀ e, codeBits (some e) = errorCode e)
    ∧ ∀ b : IrqBits, (irqWord b).getLsbD 0 = b.done ∧ (irqWord b).getLsbD 1 = b.err ∧ (irqWord b).extractLsb' 2 30 = 0

/-- R22, R31: PARAM and MBPRIO report the synthesis parameters, for every parameter set; at the spec's defaults PARAM is 0x00000439. -/
def Obligations.ParameterRegisters : Prop :=
  (∀ p : Params,
      ((paramWord p).extractLsb' 0 4).toNat = log2N p
        ∧ ((paramWord p).extractLsb' 4 4).toNat = 3
        ∧ ((paramWord p).extractLsb' 8 4).toNat = (match p.basisDiv with | .two => 2 | .four => 4)
        ∧ (paramWord p).extractLsb' 12 20 = 0
        ∧ (∀ k, k < 64 → ∃ e, (mbPriority p)[k]? = some e
            ∧ ((mbPrioWord p k).extractLsb' 0 3).toNat = e.2.val
            ∧ ((mbPrioWord p k).extractLsb' 8 3).toNat = e.1.val
            ∧ (mbPrioWord p k).extractLsb' 3 5 = 0 ∧ (mbPrioWord p k).extractLsb' 11 21 = 0)
        ∧ mbPrioWord p 0 = 0)
    ∧ paramWord Params.default = 0x00000439

/-- R27, R148: the irq line, and that it follows in the very step that sets or clears an enabled pending bit. -/
def Obligations.IrqFollowsTheEnabledPendingBits : Prop :=
  ∀ (s : State) (i : Instr),
    (s.irq = true ↔ (s.irqPend.done = true ∧ s.irqEn.done = true) ∨ (s.irqPend.err = true ∧ s.irqEn.err = true))
      ∧ (s.phase = .busy → s.irqEn.done = true → ∃ t, exec i s = .next t ∧ t.irq = true)
      ∧ (∀ t, hostEvent (.write32 0x1C 3) s = .next t → t.irq = false)
      ∧ (∀ t, hostEvent (.write32 0x18 0) s = .next t → t.irq = false)

/-! ### Reset -/

/-- R44, R160, R45: what a reset event leaves: every register and flag of R44's table, irq = 0, no byte of memory written, the draw of
the unwritten bytes changed. CUR_CMD and CUR_BUDGET are left out: the spec leaves them open (log 3). -/
def Obligations.ResetEventLeavesTheResetState : Prop :=
  ∀ s : State, ∃ t, hostEvent .reset s = .next t
    ∧ statusWord t = 0 ∧ t.budget = 0 ∧ errWord t = 0 ∧ irqWord t.irqEn = 0 ∧ irqWord t.irqPend = 0
    ∧ t.lastCmd = 0 ∧ t.accAddr = 0 ∧ t.phase = .idle ∧ t.irq = false
    ∧ t.params = s.params
    ∧ ∀ a, readByte t a = Config.unspecifiedByte (s.epoch + 1) a

/-- R44, R45, R162: after a reset no command that reads U, V, FREQ, SEL or REC is accepted; a non-empty DWTF, NOP and BASISGEN are. -/
def Obligations.AfterResetOnlySourceCommandsRun : Prop :=
  ∀ (p : Params) (e n : Nat) (host : List HostEvent) (m : ChanMask), m.nonempty = true →
    let s := State.afterReset p e n host
    check .nop s = none ∧ check .basisgen s = none ∧ check (.dwtf m) s = none
      ∧ check (.dctf m) s = some .noBasis ∧ check (.dcti m) s = some .noBasis
      ∧ check (.zzsel m) s = some .kind ∧ check (.dwtselr m) s = some .kind ∧ check (.dwtselb m) s = some .kind
      ∧ check (.dwti m) s = some .kind ∧ check .asm s = some .notReady

/-! ### Whole-machine rules -/

/-- R34: CUR_BUDGET is BUDGET at acceptance, and a running selector's result does not depend on BUDGET. -/
def Obligations.BudgetIsLatched : Prop :=
  (∀ (s t : State) (i : Instr), s.phase = .idle → exec i s = .next t → t.phase = .busy → t.curBudget = s.budget)
    ∧ ∀ (s t : State) (i : Instr) (b : Word), s.phase = .busy → exec i s = .next t →
        exec i { s with budget := b } = .next { t with budget := b }

/-- R171, R37, R54: a completion changes bytes of the one memory its command writes, and a host event other than reset changes bytes
of IN alone. So FREQ is written by the forward commands only, and no host path writes a coefficient. -/
def Obligations.EachMemoryHasItsWriters : Prop :=
  ∀ (s t : State) (a : Nat), step s = .next t → t.epoch = s.epoch → readByte t a ≠ readByte s a →
    (engineTurn s = false ∧ s.phase = .idle ∧ inWindow s.params .input a)
      ∨ (engineTurn s = true ∧ ∃ i, decode s.curCmd = .ok i ∧
          ((i = .basisgen ∧ inWindow s.params .basis a)
            ∨ ((∃ m, i = .dctf m ∨ i = .dwtf m) ∧ inWindow s.params .freq a)
            ∨ ((∃ m, i = .zzsel m ∨ i = .dwtselr m ∨ i = .dwtselb m) ∧ inWindow s.params .sel a)
            ∨ ((∃ m, i = .dcti m ∨ i = .dwti m) ∧ inWindow s.params .recon a)
            ∨ (i = .asm ∧ inWindow s.params .output a)))

/-- R42, R169: a command leaves every flag, and every FREQ, SEL and REC byte, of a channel outside its mask. -/
def Obligations.OtherChannelsAreUntouched : Prop :=
  ∀ (s t : State) (i : Instr) (m : ChanMask) (ch : Channel), s.phase = .busy → i.mask? = some m → m.has ch = false →
    exec i s = .next t →
    t.flags.fkind.get ch = s.flags.fkind.get ch ∧ t.flags.skind.get ch = s.flags.skind.get ch
      ∧ t.flags.rvalid.get ch = s.flags.rvalid.get ch
      ∧ ∀ w r c, (w = .freq ∨ w = .sel ∨ w = .recon) → r < side s.params → c < side s.params →
          element t w ch r c = element s w ch r c

/-- R19, R43, R145: only completion and reset write the flags of STATUS other than BUSY; PARAM and MBPRIO never change (R22, R31). -/
def Obligations.OnlyCompletionAndResetWriteFlags : Prop :=
  ∀ s t : State, step s = .next t →
    t.params = s.params ∧ (t.flags ≠ s.flags → engineTurn s = true ∨ ∃ rest, s.host = .reset :: rest)

/-- R64, R76, R77, R160: BUSY is set only by the acceptance of a written word, and cleared only by its completion or by a reset. -/
def Obligations.BusyChangesOnlyAtItsEvents : Prop :=
  ∀ s t : State, step s = .next t →
    (s.phase = .idle → t.phase = .busy → ∃ w rest, s.host = .write32 0x00000008 w :: rest ∧ t.curCmd = w ∧ t.lastCmd = w)
      ∧ (s.phase = .busy → t.phase = .idle → engineTurn s = true ∨ ∃ rest, s.host = .reset :: rest)

/-- R150: within one event at most one of DONE and ERR is set. -/
def Obligations.OneEventSetsOnePendingBit : Prop :=
  ∀ s t : State, step s = .next t →
    ¬ (s.irqPend.done = false ∧ t.irqPend.done = true ∧ s.irqPend.err = false ∧ t.irqPend.err = true)

/-- R63, R174, R77: a completion and a host event that touches nothing a completion touches give the same state in either order. -/
def Obligations.CompletionCommutesWithOtherEvents : Prop :=
  ∀ (s s₁ t t₁ t₂ : State) (i : Instr) (e : HostEvent), s.phase = .busy → besideCompletion e →
    hostEvent e s = .next s₁ → exec i s₁ = .next t₁ →
    exec i s = .next t → hostEvent e t = .next t₂ →
    t₁ = t₂

/-- The invariant holds in the state after a reset, whatever the parameters, and so in the machine's reset state (R44, R45). -/
def Obligations.InvariantAtReset : Prop :=
  Inv State.reset ∧ ∀ (p : Params) (e n : Nat) (host : List HostEvent), Inv (State.afterReset p e n host)

/-- Memory keeps its canonical form (logs 4, 5) and never holds a byte outside the six windows (R47, R50). -/
def Obligations.StepKeepsMemoryGood : Prop :=
  ∀ s t : State, MemoryGood s → step s = .next t → MemoryGood t

/-- R163, R29: the flags stay in the pipeline's order, and a running command is one whose checks passed. -/
def Obligations.StepKeepsPipelineOrder : Prop :=
  ∀ s t : State, FlagsGood s.flags → RunningGood s → step s = .next t → FlagsGood t.flags ∧ RunningGood t

/-- R24, R38, R39, R87, R163: the headline invariant. Every step keeps it: the flags tell the truth about the memories. BASIS_VALID says U
and V hold the basis, RVALID that REC is clamped, SKIND that SEL is a filtered copy of FREQ, OUT_VALID that OUT is the assembly of
the current REC planes. -/
def Obligations.StepKeepsTheInvariant : Prop :=
  ∀ s t : State, Inv s → step s = .next t → Inv t

/-- R147 and 93, "Treatments not used": in a state with the invariant no step stops. -/
def Obligations.NoStepStops : Prop :=
  ∀ s : State, RunningGood s → ∃ t, step s = .next t

/-- R175: without a reset, the running command completes: after at most `delay` host events (log 6), which leave it running and the
memories as they were, the next step is its completion. -/
def Obligations.RunningCommandCompletes : Prop :=
  ∀ s : State, s.phase = .busy → RunningGood s → (∀ e ∈ s.host, e ≠ .reset) →
    ∃ k t u, k ≤ s.delay ∧ runSteps k s = .next t ∧ engineTurn t = true ∧ t.curCmd = s.curCmd ∧ t.curBudget = s.curBudget
      ∧ t.mem = s.mem ∧ t.flags = s.flags ∧ step t = .next u ∧ u.phase = .idle
end

