-- ==== Sys2Proof/Laws/Decode.lean ====
section
/-! SUPPORT. The fields of an encoded command, and what the decoder can answer. -/

namespace Sys2Proof

@[simp] theorem ChanMask.ofBits_bits (m : ChanMask) : ChanMask.ofBits m.bits = m := by
  obtain ⟨r, g, b⟩ := m
  cases r <;> cases g <;> cases b <;> rfl

@[simp] theorem ChanMask.bits_ofBits (b : BitVec 3) : (ChanMask.ofBits b).bits = b := by
  revert b
  decide

/-- A property of every command follows from its values on the ten constructors and the eight masks. -/
theorem forall_instr {P : Instr → Prop} (h0 : P .nop) (h1 : P .basisgen) (h2 : P .asm)
    (hm : ∀ r g b, P (.dctf ⟨r, g, b⟩) ∧ P (.zzsel ⟨r, g, b⟩) ∧ P (.dcti ⟨r, g, b⟩) ∧ P (.dwtf ⟨r, g, b⟩)
      ∧ P (.dwtselr ⟨r, g, b⟩) ∧ P (.dwtselb ⟨r, g, b⟩) ∧ P (.dwti ⟨r, g, b⟩)) (i : Instr) : P i := by
  cases i with
  | nop => exact h0
  | basisgen => exact h1
  | asm => exact h2
  | dctf m => exact (hm m.red m.green m.blue).1
  | zzsel m => exact (hm m.red m.green m.blue).2.1
  | dcti m => exact (hm m.red m.green m.blue).2.2.1
  | dwtf m => exact (hm m.red m.green m.blue).2.2.2.1
  | dwtselr m => exact (hm m.red m.green m.blue).2.2.2.2.1
  | dwtselb m => exact (hm m.red m.green m.blue).2.2.2.2.2.1
  | dwti m => exact (hm m.red m.green m.blue).2.2.2.2.2.2

@[simp] theorem opcField_encode (i : Instr) : opcField (encode i) = i.opc := by
  refine forall_instr (P := fun i => opcField (encode i) = i.opc) ?_ ?_ ?_ ?_ i <;> decide

@[simp] theorem chField_encode (i : Instr) : chField (encode i) = i.chBits := by
  refine forall_instr (P := fun i => chField (encode i) = i.chBits) ?_ ?_ ?_ ?_ i <;> decide

@[simp] theorem rsvField_encode (i : Instr) : rsvField (encode i) = 0 := by
  refine forall_instr (P := fun i => rsvField (encode i) = 0) ?_ ?_ ?_ ?_ i <;> decide

/-- A word is its three fields (R70). -/
theorem word_of_fields (w : Word) : w = (rsvField w ++ chField w ++ opcField w : BitVec (21 + 3 + 8)) := by
  unfold rsvField chField opcField
  apply BitVec.eq_of_getLsbD_eq
  intro k hk
  simp only [BitVec.getLsbD_append, BitVec.getLsbD_extractLsb']
  split_ifs with h1 h2
  · simp [h1]
  · have : 8 + (k - 8) = k := by omega
    simp [h2, this]
  · have : 11 + (k - 8 - 3) = k := by omega
    have : k - 8 - 3 < 21 := by omega
    simp_all

/-- Two words with the same fields are the same word. -/
theorem word_ext {v w : Word} (hr : rsvField v = rsvField w) (hc : chField v = chField w) (ho : opcField v = opcField w) :
    v = w := by
  rw [word_of_fields v, word_of_fields w, hr, hc, ho]

/-- What the decoder accepts: an assigned opcode, RSV = 0, and CH = 000 unless the opcode is a channel command's (R70, R71, R73). -/
theorem decode_ok {w : Word} {i : Instr} (h : decode w = .ok i) :
    rsvField w = 0 ∧ ((opcForm (opcField w).toNat = some (.plain i) ∧ chField w = 0)
      ∨ ∃ mk, opcForm (opcField w).toNat = some (.channel mk) ∧ i = mk (ChanMask.ofBits (chField w))) := by
  unfold decode at h
  cases hform : opcForm (opcField w).toNat with
  | none => simp [hform] at h
  | some form =>
    by_cases hr : rsvField w = 0
    · refine ⟨hr, ?_⟩
      cases form with
      | plain j =>
        by_cases hc : chField w = 0
        · simp [hform, hr, hc] at h
          exact .inl ⟨by rw [h], hc⟩
        · simp [hform, hr, show ¬chField w = 0#3 from hc] at h
      | channel mk =>
        simp [hform, hr] at h
        exact .inr ⟨mk, rfl, h.symm⟩
    · simp [hform, show ¬rsvField w = 0#21 from hr] at h

/-- The assigned opcodes, one by one (R73). -/
theorem opcForm_some {o : Nat} {form : OpcForm} (h : opcForm o = some form) :
    (o = 0x00 ∧ form = .plain .nop) ∨ (o = 0x01 ∧ form = .plain .basisgen) ∨ (o = 0x10 ∧ form = .channel .dctf)
      ∨ (o = 0x11 ∧ form = .channel .zzsel) ∨ (o = 0x12 ∧ form = .channel .dcti) ∨ (o = 0x20 ∧ form = .channel .dwtf)
      ∨ (o = 0x21 ∧ form = .channel .dwtselr) ∨ (o = 0x22 ∧ form = .channel .dwtselb)
      ∨ (o = 0x23 ∧ form = .channel .dwti) ∨ (o = 0x30 ∧ form = .plain .asm) := by
  unfold opcForm at h
  split at h <;> simp_all

end Sys2Proof
end

