-- ==== Sys2Proof/Laws/State.lean ====
section
/-! SUPPORT. One lemma per field per update, true by rfl, so that no proof unfolds a record update. -/

namespace Sys2Proof.Machine

@[simp] theorem reject_params (w : Word) (e : CmdError) (s : State) : (reject w e s).params = s.params := rfl
@[simp] theorem reject_phase (w : Word) (e : CmdError) (s : State) : (reject w e s).phase = s.phase := rfl
@[simp] theorem reject_curCmd (w : Word) (e : CmdError) (s : State) : (reject w e s).curCmd = s.curCmd := rfl
@[simp] theorem reject_curBudget (w : Word) (e : CmdError) (s : State) : (reject w e s).curBudget = s.curBudget := rfl
@[simp] theorem reject_flags (w : Word) (e : CmdError) (s : State) : (reject w e s).flags = s.flags := rfl
@[simp] theorem reject_budget (w : Word) (e : CmdError) (s : State) : (reject w e s).budget = s.budget := rfl
@[simp] theorem reject_err (w : Word) (e : CmdError) (s : State) : (reject w e s).err = { s.err with code := some e, opc := opcField w } := rfl
@[simp] theorem reject_irqEn (w : Word) (e : CmdError) (s : State) : (reject w e s).irqEn = s.irqEn := rfl
@[simp] theorem reject_irqPend (w : Word) (e : CmdError) (s : State) : (reject w e s).irqPend = { s.irqPend with err := true } := rfl
@[simp] theorem reject_lastCmd (w : Word) (e : CmdError) (s : State) : (reject w e s).lastCmd = w := rfl
@[simp] theorem reject_accAddr (w : Word) (e : CmdError) (s : State) : (reject w e s).accAddr = s.accAddr := rfl
@[simp] theorem reject_mem (w : Word) (e : CmdError) (s : State) : (reject w e s).mem = s.mem := rfl
@[simp] theorem reject_epoch (w : Word) (e : CmdError) (s : State) : (reject w e s).epoch = s.epoch := rfl
@[simp] theorem reject_accepted (w : Word) (e : CmdError) (s : State) : (reject w e s).accepted = s.accepted := rfl
@[simp] theorem reject_delay (w : Word) (e : CmdError) (s : State) : (reject w e s).delay = s.delay := rfl
@[simp] theorem reject_host (w : Word) (e : CmdError) (s : State) : (reject w e s).host = s.host := rfl
@[simp] theorem reject_response (w : Word) (e : CmdError) (s : State) : (reject w e s).response = s.response := rfl

@[simp] theorem accept_params (w : Word) (s : State) : (accept w s).params = s.params := rfl
@[simp] theorem accept_phase (w : Word) (s : State) : (accept w s).phase = .busy := rfl
@[simp] theorem accept_curCmd (w : Word) (s : State) : (accept w s).curCmd = w := rfl
@[simp] theorem accept_curBudget (w : Word) (s : State) : (accept w s).curBudget = s.budget := rfl
@[simp] theorem accept_flags (w : Word) (s : State) : (accept w s).flags = s.flags := rfl
@[simp] theorem accept_budget (w : Word) (s : State) : (accept w s).budget = s.budget := rfl
@[simp] theorem accept_err (w : Word) (s : State) : (accept w s).err = s.err := rfl
@[simp] theorem accept_irqEn (w : Word) (s : State) : (accept w s).irqEn = s.irqEn := rfl
@[simp] theorem accept_irqPend (w : Word) (s : State) : (accept w s).irqPend = s.irqPend := rfl
@[simp] theorem accept_lastCmd (w : Word) (s : State) : (accept w s).lastCmd = w := rfl
@[simp] theorem accept_accAddr (w : Word) (s : State) : (accept w s).accAddr = s.accAddr := rfl
@[simp] theorem accept_mem (w : Word) (s : State) : (accept w s).mem = s.mem := rfl
@[simp] theorem accept_epoch (w : Word) (s : State) : (accept w s).epoch = s.epoch := rfl
@[simp] theorem accept_accepted (w : Word) (s : State) : (accept w s).accepted = s.accepted + 1 := rfl
@[simp] theorem accept_delay (w : Word) (s : State) : (accept w s).delay = Config.completionDelay s.accepted := rfl
@[simp] theorem accept_host (w : Word) (s : State) : (accept w s).host = s.host := rfl
@[simp] theorem accept_response (w : Word) (s : State) : (accept w s).response = s.response := rfl

@[simp] theorem finish_params (s : State) : (finish s).params = s.params := rfl
@[simp] theorem finish_phase (s : State) : (finish s).phase = .idle := rfl
@[simp] theorem finish_curCmd (s : State) : (finish s).curCmd = s.curCmd := rfl
@[simp] theorem finish_curBudget (s : State) : (finish s).curBudget = s.curBudget := rfl
@[simp] theorem finish_flags (s : State) : (finish s).flags = s.flags := rfl
@[simp] theorem finish_budget (s : State) : (finish s).budget = s.budget := rfl
@[simp] theorem finish_err (s : State) : (finish s).err = { s.err with code := none, opc := opcField s.curCmd } := rfl
@[simp] theorem finish_irqEn (s : State) : (finish s).irqEn = s.irqEn := rfl
@[simp] theorem finish_irqPend (s : State) : (finish s).irqPend = { s.irqPend with done := true } := rfl
@[simp] theorem finish_lastCmd (s : State) : (finish s).lastCmd = s.lastCmd := rfl
@[simp] theorem finish_accAddr (s : State) : (finish s).accAddr = s.accAddr := rfl
@[simp] theorem finish_mem (s : State) : (finish s).mem = s.mem := rfl
@[simp] theorem finish_epoch (s : State) : (finish s).epoch = s.epoch := rfl
@[simp] theorem finish_accepted (s : State) : (finish s).accepted = s.accepted := rfl
@[simp] theorem finish_delay (s : State) : (finish s).delay = s.delay := rfl
@[simp] theorem finish_host (s : State) : (finish s).host = s.host := rfl
@[simp] theorem finish_response (s : State) : (finish s).response = s.response := rfl

@[simp] theorem overrun_params (s : State) : (overrun s).params = s.params := rfl
@[simp] theorem overrun_phase (s : State) : (overrun s).phase = s.phase := rfl
@[simp] theorem overrun_curCmd (s : State) : (overrun s).curCmd = s.curCmd := rfl
@[simp] theorem overrun_curBudget (s : State) : (overrun s).curBudget = s.curBudget := rfl
@[simp] theorem overrun_flags (s : State) : (overrun s).flags = s.flags := rfl
@[simp] theorem overrun_budget (s : State) : (overrun s).budget = s.budget := rfl
@[simp] theorem overrun_err (s : State) : (overrun s).err = { s.err with ovr := true } := rfl
@[simp] theorem overrun_irqEn (s : State) : (overrun s).irqEn = s.irqEn := rfl
@[simp] theorem overrun_irqPend (s : State) : (overrun s).irqPend = { s.irqPend with err := true } := rfl
@[simp] theorem overrun_lastCmd (s : State) : (overrun s).lastCmd = s.lastCmd := rfl
@[simp] theorem overrun_accAddr (s : State) : (overrun s).accAddr = s.accAddr := rfl
@[simp] theorem overrun_mem (s : State) : (overrun s).mem = s.mem := rfl
@[simp] theorem overrun_epoch (s : State) : (overrun s).epoch = s.epoch := rfl
@[simp] theorem overrun_accepted (s : State) : (overrun s).accepted = s.accepted := rfl
@[simp] theorem overrun_delay (s : State) : (overrun s).delay = s.delay := rfl
@[simp] theorem overrun_host (s : State) : (overrun s).host = s.host := rfl
@[simp] theorem overrun_response (s : State) : (overrun s).response = s.response := rfl

@[simp] theorem accessError_params (a : Word) (s : State) : (accessError a s).params = s.params := rfl
@[simp] theorem accessError_phase (a : Word) (s : State) : (accessError a s).phase = s.phase := rfl
@[simp] theorem accessError_curCmd (a : Word) (s : State) : (accessError a s).curCmd = s.curCmd := rfl
@[simp] theorem accessError_curBudget (a : Word) (s : State) : (accessError a s).curBudget = s.curBudget := rfl
@[simp] theorem accessError_flags (a : Word) (s : State) : (accessError a s).flags = s.flags := rfl
@[simp] theorem accessError_budget (a : Word) (s : State) : (accessError a s).budget = s.budget := rfl
@[simp] theorem accessError_err (a : Word) (s : State) : (accessError a s).err = { s.err with acc := true } := rfl
@[simp] theorem accessError_irqEn (a : Word) (s : State) : (accessError a s).irqEn = s.irqEn := rfl
@[simp] theorem accessError_irqPend (a : Word) (s : State) : (accessError a s).irqPend = { s.irqPend with err := true } := rfl
@[simp] theorem accessError_lastCmd (a : Word) (s : State) : (accessError a s).lastCmd = s.lastCmd := rfl
@[simp] theorem accessError_accAddr (a : Word) (s : State) : (accessError a s).accAddr = a := rfl
@[simp] theorem accessError_mem (a : Word) (s : State) : (accessError a s).mem = s.mem := rfl
@[simp] theorem accessError_epoch (a : Word) (s : State) : (accessError a s).epoch = s.epoch := rfl
@[simp] theorem accessError_accepted (a : Word) (s : State) : (accessError a s).accepted = s.accepted := rfl
@[simp] theorem accessError_delay (a : Word) (s : State) : (accessError a s).delay = s.delay := rfl
@[simp] theorem accessError_host (a : Word) (s : State) : (accessError a s).host = s.host := rfl
@[simp] theorem accessError_response (a : Word) (s : State) : (accessError a s).response = s.response := rfl

@[simp] theorem acknowledgeIrq_params (w : Word) (s : State) : (acknowledgeIrq w s).params = s.params := rfl
@[simp] theorem acknowledgeIrq_phase (w : Word) (s : State) : (acknowledgeIrq w s).phase = s.phase := rfl
@[simp] theorem acknowledgeIrq_curCmd (w : Word) (s : State) : (acknowledgeIrq w s).curCmd = s.curCmd := rfl
@[simp] theorem acknowledgeIrq_curBudget (w : Word) (s : State) : (acknowledgeIrq w s).curBudget = s.curBudget := rfl
@[simp] theorem acknowledgeIrq_flags (w : Word) (s : State) : (acknowledgeIrq w s).flags = s.flags := rfl
@[simp] theorem acknowledgeIrq_budget (w : Word) (s : State) : (acknowledgeIrq w s).budget = s.budget := rfl
@[simp] theorem acknowledgeIrq_err (w : Word) (s : State) : (acknowledgeIrq w s).err = s.err := rfl
@[simp] theorem acknowledgeIrq_irqEn (w : Word) (s : State) : (acknowledgeIrq w s).irqEn = s.irqEn := rfl
@[simp] theorem acknowledgeIrq_irqPend (w : Word) (s : State) : (acknowledgeIrq w s).irqPend = { done := s.irqPend.done && !w.getLsbD 0, err := s.irqPend.err && !w.getLsbD 1 } := rfl
@[simp] theorem acknowledgeIrq_lastCmd (w : Word) (s : State) : (acknowledgeIrq w s).lastCmd = s.lastCmd := rfl
@[simp] theorem acknowledgeIrq_accAddr (w : Word) (s : State) : (acknowledgeIrq w s).accAddr = s.accAddr := rfl
@[simp] theorem acknowledgeIrq_mem (w : Word) (s : State) : (acknowledgeIrq w s).mem = s.mem := rfl
@[simp] theorem acknowledgeIrq_epoch (w : Word) (s : State) : (acknowledgeIrq w s).epoch = s.epoch := rfl
@[simp] theorem acknowledgeIrq_accepted (w : Word) (s : State) : (acknowledgeIrq w s).accepted = s.accepted := rfl
@[simp] theorem acknowledgeIrq_delay (w : Word) (s : State) : (acknowledgeIrq w s).delay = s.delay := rfl
@[simp] theorem acknowledgeIrq_host (w : Word) (s : State) : (acknowledgeIrq w s).host = s.host := rfl
@[simp] theorem acknowledgeIrq_response (w : Word) (s : State) : (acknowledgeIrq w s).response = s.response := rfl

@[simp] theorem clearErr_params (w : Word) (s : State) : (clearErr w s).params = s.params := rfl
@[simp] theorem clearErr_phase (w : Word) (s : State) : (clearErr w s).phase = s.phase := rfl
@[simp] theorem clearErr_curCmd (w : Word) (s : State) : (clearErr w s).curCmd = s.curCmd := rfl
@[simp] theorem clearErr_curBudget (w : Word) (s : State) : (clearErr w s).curBudget = s.curBudget := rfl
@[simp] theorem clearErr_flags (w : Word) (s : State) : (clearErr w s).flags = s.flags := rfl
@[simp] theorem clearErr_budget (w : Word) (s : State) : (clearErr w s).budget = s.budget := rfl
@[simp] theorem clearErr_err (w : Word) (s : State) : (clearErr w s).err = { s.err with ovr := s.err.ovr && !w.getLsbD 16, acc := s.err.acc && !w.getLsbD 17 } := rfl
@[simp] theorem clearErr_irqEn (w : Word) (s : State) : (clearErr w s).irqEn = s.irqEn := rfl
@[simp] theorem clearErr_irqPend (w : Word) (s : State) : (clearErr w s).irqPend = s.irqPend := rfl
@[simp] theorem clearErr_lastCmd (w : Word) (s : State) : (clearErr w s).lastCmd = s.lastCmd := rfl
@[simp] theorem clearErr_accAddr (w : Word) (s : State) : (clearErr w s).accAddr = s.accAddr := rfl
@[simp] theorem clearErr_mem (w : Word) (s : State) : (clearErr w s).mem = s.mem := rfl
@[simp] theorem clearErr_epoch (w : Word) (s : State) : (clearErr w s).epoch = s.epoch := rfl
@[simp] theorem clearErr_accepted (w : Word) (s : State) : (clearErr w s).accepted = s.accepted := rfl
@[simp] theorem clearErr_delay (w : Word) (s : State) : (clearErr w s).delay = s.delay := rfl
@[simp] theorem clearErr_host (w : Word) (s : State) : (clearErr w s).host = s.host := rfl
@[simp] theorem clearErr_response (w : Word) (s : State) : (clearErr w s).response = s.response := rfl

@[simp] theorem writeIrqEn_params (w : Word) (s : State) : (writeIrqEn w s).params = s.params := rfl
@[simp] theorem writeIrqEn_phase (w : Word) (s : State) : (writeIrqEn w s).phase = s.phase := rfl
@[simp] theorem writeIrqEn_curCmd (w : Word) (s : State) : (writeIrqEn w s).curCmd = s.curCmd := rfl
@[simp] theorem writeIrqEn_curBudget (w : Word) (s : State) : (writeIrqEn w s).curBudget = s.curBudget := rfl
@[simp] theorem writeIrqEn_flags (w : Word) (s : State) : (writeIrqEn w s).flags = s.flags := rfl
@[simp] theorem writeIrqEn_budget (w : Word) (s : State) : (writeIrqEn w s).budget = s.budget := rfl
@[simp] theorem writeIrqEn_err (w : Word) (s : State) : (writeIrqEn w s).err = s.err := rfl
@[simp] theorem writeIrqEn_irqEn (w : Word) (s : State) : (writeIrqEn w s).irqEn = { done := w.getLsbD 0, err := w.getLsbD 1 } := rfl
@[simp] theorem writeIrqEn_irqPend (w : Word) (s : State) : (writeIrqEn w s).irqPend = s.irqPend := rfl
@[simp] theorem writeIrqEn_lastCmd (w : Word) (s : State) : (writeIrqEn w s).lastCmd = s.lastCmd := rfl
@[simp] theorem writeIrqEn_accAddr (w : Word) (s : State) : (writeIrqEn w s).accAddr = s.accAddr := rfl
@[simp] theorem writeIrqEn_mem (w : Word) (s : State) : (writeIrqEn w s).mem = s.mem := rfl
@[simp] theorem writeIrqEn_epoch (w : Word) (s : State) : (writeIrqEn w s).epoch = s.epoch := rfl
@[simp] theorem writeIrqEn_accepted (w : Word) (s : State) : (writeIrqEn w s).accepted = s.accepted := rfl
@[simp] theorem writeIrqEn_delay (w : Word) (s : State) : (writeIrqEn w s).delay = s.delay := rfl
@[simp] theorem writeIrqEn_host (w : Word) (s : State) : (writeIrqEn w s).host = s.host := rfl
@[simp] theorem writeIrqEn_response (w : Word) (s : State) : (writeIrqEn w s).response = s.response := rfl

@[simp] theorem writeBudget_params (w : Word) (s : State) : (writeBudget w s).params = s.params := rfl
@[simp] theorem writeBudget_phase (w : Word) (s : State) : (writeBudget w s).phase = s.phase := rfl
@[simp] theorem writeBudget_curCmd (w : Word) (s : State) : (writeBudget w s).curCmd = s.curCmd := rfl
@[simp] theorem writeBudget_curBudget (w : Word) (s : State) : (writeBudget w s).curBudget = s.curBudget := rfl
@[simp] theorem writeBudget_flags (w : Word) (s : State) : (writeBudget w s).flags = s.flags := rfl
@[simp] theorem writeBudget_budget (w : Word) (s : State) : (writeBudget w s).budget = w := rfl
@[simp] theorem writeBudget_err (w : Word) (s : State) : (writeBudget w s).err = s.err := rfl
@[simp] theorem writeBudget_irqEn (w : Word) (s : State) : (writeBudget w s).irqEn = s.irqEn := rfl
@[simp] theorem writeBudget_irqPend (w : Word) (s : State) : (writeBudget w s).irqPend = s.irqPend := rfl
@[simp] theorem writeBudget_lastCmd (w : Word) (s : State) : (writeBudget w s).lastCmd = s.lastCmd := rfl
@[simp] theorem writeBudget_accAddr (w : Word) (s : State) : (writeBudget w s).accAddr = s.accAddr := rfl
@[simp] theorem writeBudget_mem (w : Word) (s : State) : (writeBudget w s).mem = s.mem := rfl
@[simp] theorem writeBudget_epoch (w : Word) (s : State) : (writeBudget w s).epoch = s.epoch := rfl
@[simp] theorem writeBudget_accepted (w : Word) (s : State) : (writeBudget w s).accepted = s.accepted := rfl
@[simp] theorem writeBudget_delay (w : Word) (s : State) : (writeBudget w s).delay = s.delay := rfl
@[simp] theorem writeBudget_host (w : Word) (s : State) : (writeBudget w s).host = s.host := rfl
@[simp] theorem writeBudget_response (w : Word) (s : State) : (writeBudget w s).response = s.response := rfl

@[simp] theorem respond_params (r : Response) (s : State) : (respond r s).params = s.params := rfl
@[simp] theorem respond_phase (r : Response) (s : State) : (respond r s).phase = s.phase := rfl
@[simp] theorem respond_curCmd (r : Response) (s : State) : (respond r s).curCmd = s.curCmd := rfl
@[simp] theorem respond_curBudget (r : Response) (s : State) : (respond r s).curBudget = s.curBudget := rfl
@[simp] theorem respond_flags (r : Response) (s : State) : (respond r s).flags = s.flags := rfl
@[simp] theorem respond_budget (r : Response) (s : State) : (respond r s).budget = s.budget := rfl
@[simp] theorem respond_err (r : Response) (s : State) : (respond r s).err = s.err := rfl
@[simp] theorem respond_irqEn (r : Response) (s : State) : (respond r s).irqEn = s.irqEn := rfl
@[simp] theorem respond_irqPend (r : Response) (s : State) : (respond r s).irqPend = s.irqPend := rfl
@[simp] theorem respond_lastCmd (r : Response) (s : State) : (respond r s).lastCmd = s.lastCmd := rfl
@[simp] theorem respond_accAddr (r : Response) (s : State) : (respond r s).accAddr = s.accAddr := rfl
@[simp] theorem respond_mem (r : Response) (s : State) : (respond r s).mem = s.mem := rfl
@[simp] theorem respond_epoch (r : Response) (s : State) : (respond r s).epoch = s.epoch := rfl
@[simp] theorem respond_accepted (r : Response) (s : State) : (respond r s).accepted = s.accepted := rfl
@[simp] theorem respond_delay (r : Response) (s : State) : (respond r s).delay = s.delay := rfl
@[simp] theorem respond_host (r : Response) (s : State) : (respond r s).host = s.host := rfl
@[simp] theorem respond_response (r : Response) (s : State) : (respond r s).response = r := rfl

@[simp] theorem takeEvent_params (rest : List HostEvent) (s : State) : (takeEvent rest s).params = s.params := rfl
@[simp] theorem takeEvent_phase (rest : List HostEvent) (s : State) : (takeEvent rest s).phase = s.phase := rfl
@[simp] theorem takeEvent_curCmd (rest : List HostEvent) (s : State) : (takeEvent rest s).curCmd = s.curCmd := rfl
@[simp] theorem takeEvent_curBudget (rest : List HostEvent) (s : State) : (takeEvent rest s).curBudget = s.curBudget := rfl
@[simp] theorem takeEvent_flags (rest : List HostEvent) (s : State) : (takeEvent rest s).flags = s.flags := rfl
@[simp] theorem takeEvent_budget (rest : List HostEvent) (s : State) : (takeEvent rest s).budget = s.budget := rfl
@[simp] theorem takeEvent_err (rest : List HostEvent) (s : State) : (takeEvent rest s).err = s.err := rfl
@[simp] theorem takeEvent_irqEn (rest : List HostEvent) (s : State) : (takeEvent rest s).irqEn = s.irqEn := rfl
@[simp] theorem takeEvent_irqPend (rest : List HostEvent) (s : State) : (takeEvent rest s).irqPend = s.irqPend := rfl
@[simp] theorem takeEvent_lastCmd (rest : List HostEvent) (s : State) : (takeEvent rest s).lastCmd = s.lastCmd := rfl
@[simp] theorem takeEvent_accAddr (rest : List HostEvent) (s : State) : (takeEvent rest s).accAddr = s.accAddr := rfl
@[simp] theorem takeEvent_mem (rest : List HostEvent) (s : State) : (takeEvent rest s).mem = s.mem := rfl
@[simp] theorem takeEvent_epoch (rest : List HostEvent) (s : State) : (takeEvent rest s).epoch = s.epoch := rfl
@[simp] theorem takeEvent_accepted (rest : List HostEvent) (s : State) : (takeEvent rest s).accepted = s.accepted := rfl
@[simp] theorem takeEvent_delay (rest : List HostEvent) (s : State) : (takeEvent rest s).delay = s.delay - 1 := rfl
@[simp] theorem takeEvent_host (rest : List HostEvent) (s : State) : (takeEvent rest s).host = rest := rfl
@[simp] theorem takeEvent_response (rest : List HostEvent) (s : State) : (takeEvent rest s).response = s.response := rfl

@[simp] theorem placeCommand_params (s : State) (w : Word) : (placeCommand s w).params = s.params := rfl
@[simp] theorem placeCommand_phase (s : State) (w : Word) : (placeCommand s w).phase = .idle := rfl
@[simp] theorem placeCommand_curCmd (s : State) (w : Word) : (placeCommand s w).curCmd = s.curCmd := rfl
@[simp] theorem placeCommand_curBudget (s : State) (w : Word) : (placeCommand s w).curBudget = s.curBudget := rfl
@[simp] theorem placeCommand_flags (s : State) (w : Word) : (placeCommand s w).flags = s.flags := rfl
@[simp] theorem placeCommand_budget (s : State) (w : Word) : (placeCommand s w).budget = s.budget := rfl
@[simp] theorem placeCommand_err (s : State) (w : Word) : (placeCommand s w).err = s.err := rfl
@[simp] theorem placeCommand_irqEn (s : State) (w : Word) : (placeCommand s w).irqEn = s.irqEn := rfl
@[simp] theorem placeCommand_irqPend (s : State) (w : Word) : (placeCommand s w).irqPend = s.irqPend := rfl
@[simp] theorem placeCommand_lastCmd (s : State) (w : Word) : (placeCommand s w).lastCmd = s.lastCmd := rfl
@[simp] theorem placeCommand_accAddr (s : State) (w : Word) : (placeCommand s w).accAddr = s.accAddr := rfl
@[simp] theorem placeCommand_mem (s : State) (w : Word) : (placeCommand s w).mem = s.mem := rfl
@[simp] theorem placeCommand_epoch (s : State) (w : Word) : (placeCommand s w).epoch = s.epoch := rfl
@[simp] theorem placeCommand_accepted (s : State) (w : Word) : (placeCommand s w).accepted = s.accepted := rfl
@[simp] theorem placeCommand_delay (s : State) (w : Word) : (placeCommand s w).delay = s.delay := rfl
@[simp] theorem placeCommand_host (s : State) (w : Word) : (placeCommand s w).host = .write32 cmdAddr w :: s.host := rfl
@[simp] theorem placeCommand_response (s : State) (w : Word) : (placeCommand s w).response = s.response := rfl

@[simp] theorem storeBytes_params (s : State) (a : Nat) (bs : List Byte) : (storeBytes s a bs).params = s.params := rfl
@[simp] theorem storeBytes_phase (s : State) (a : Nat) (bs : List Byte) : (storeBytes s a bs).phase = s.phase := rfl
@[simp] theorem storeBytes_curCmd (s : State) (a : Nat) (bs : List Byte) : (storeBytes s a bs).curCmd = s.curCmd := rfl
@[simp] theorem storeBytes_curBudget (s : State) (a : Nat) (bs : List Byte) : (storeBytes s a bs).curBudget = s.curBudget := rfl
@[simp] theorem storeBytes_flags (s : State) (a : Nat) (bs : List Byte) : (storeBytes s a bs).flags = s.flags := rfl
@[simp] theorem storeBytes_budget (s : State) (a : Nat) (bs : List Byte) : (storeBytes s a bs).budget = s.budget := rfl
@[simp] theorem storeBytes_err (s : State) (a : Nat) (bs : List Byte) : (storeBytes s a bs).err = s.err := rfl
@[simp] theorem storeBytes_irqEn (s : State) (a : Nat) (bs : List Byte) : (storeBytes s a bs).irqEn = s.irqEn := rfl
@[simp] theorem storeBytes_irqPend (s : State) (a : Nat) (bs : List Byte) : (storeBytes s a bs).irqPend = s.irqPend := rfl
@[simp] theorem storeBytes_lastCmd (s : State) (a : Nat) (bs : List Byte) : (storeBytes s a bs).lastCmd = s.lastCmd := rfl
@[simp] theorem storeBytes_accAddr (s : State) (a : Nat) (bs : List Byte) : (storeBytes s a bs).accAddr = s.accAddr := rfl
@[simp] theorem storeBytes_mem (s : State) (a : Nat) (bs : List Byte) : (storeBytes s a bs).mem = s.mem.store a bs := rfl
@[simp] theorem storeBytes_epoch (s : State) (a : Nat) (bs : List Byte) : (storeBytes s a bs).epoch = s.epoch := rfl
@[simp] theorem storeBytes_accepted (s : State) (a : Nat) (bs : List Byte) : (storeBytes s a bs).accepted = s.accepted := rfl
@[simp] theorem storeBytes_delay (s : State) (a : Nat) (bs : List Byte) : (storeBytes s a bs).delay = s.delay := rfl
@[simp] theorem storeBytes_host (s : State) (a : Nat) (bs : List Byte) : (storeBytes s a bs).host = s.host := rfl
@[simp] theorem storeBytes_response (s : State) (a : Nat) (bs : List Byte) : (storeBytes s a bs).response = s.response := rfl

@[simp] theorem resetEvent_params (s : State) : (resetEvent s).params = s.params := rfl
@[simp] theorem resetEvent_phase (s : State) : (resetEvent s).phase = .idle := rfl
@[simp] theorem resetEvent_curCmd (s : State) : (resetEvent s).curCmd = 0 := rfl
@[simp] theorem resetEvent_curBudget (s : State) : (resetEvent s).curBudget = 0 := rfl
@[simp] theorem resetEvent_budget (s : State) : (resetEvent s).budget = 0 := rfl
@[simp] theorem resetEvent_err (s : State) : (resetEvent s).err = { code := none, opc := 0, ovr := false, acc := false } := rfl
@[simp] theorem resetEvent_irqEn (s : State) : (resetEvent s).irqEn = { done := false, err := false } := rfl
@[simp] theorem resetEvent_irqPend (s : State) : (resetEvent s).irqPend = { done := false, err := false } := rfl
@[simp] theorem resetEvent_lastCmd (s : State) : (resetEvent s).lastCmd = 0 := rfl
@[simp] theorem resetEvent_accAddr (s : State) : (resetEvent s).accAddr = 0 := rfl
@[simp] theorem resetEvent_mem (s : State) : (resetEvent s).mem = [] := rfl
@[simp] theorem resetEvent_epoch (s : State) : (resetEvent s).epoch = s.epoch + 1 := rfl
@[simp] theorem resetEvent_accepted (s : State) : (resetEvent s).accepted = s.accepted := rfl
@[simp] theorem resetEvent_delay (s : State) : (resetEvent s).delay = 0 := rfl
@[simp] theorem resetEvent_host (s : State) : (resetEvent s).host = s.host := rfl
@[simp] theorem resetEvent_response (s : State) : (resetEvent s).response = .none := rfl

@[simp] theorem flagsForward_basisValid (m : ChanMask) (k : Kind) (f : StatusFlags) : (flagsForward m k f).basisValid = f.basisValid := rfl
@[simp] theorem flagsForward_outValid (m : ChanMask) (k : Kind) (f : StatusFlags) : (flagsForward m k f).outValid = false := rfl
@[simp] theorem flagsForward_fkind (m : ChanMask) (k : Kind) (f : StatusFlags) : (flagsForward m k f).fkind = setChannels m k f.fkind := rfl
@[simp] theorem flagsForward_skind (m : ChanMask) (k : Kind) (f : StatusFlags) : (flagsForward m k f).skind = setChannels m .none f.skind := rfl
@[simp] theorem flagsForward_rvalid (m : ChanMask) (k : Kind) (f : StatusFlags) : (flagsForward m k f).rvalid = setChannels m false f.rvalid := rfl

@[simp] theorem flagsSelect_basisValid (m : ChanMask) (k : Kind) (f : StatusFlags) : (flagsSelect m k f).basisValid = f.basisValid := rfl
@[simp] theorem flagsSelect_outValid (m : ChanMask) (k : Kind) (f : StatusFlags) : (flagsSelect m k f).outValid = false := rfl
@[simp] theorem flagsSelect_fkind (m : ChanMask) (k : Kind) (f : StatusFlags) : (flagsSelect m k f).fkind = f.fkind := rfl
@[simp] theorem flagsSelect_skind (m : ChanMask) (k : Kind) (f : StatusFlags) : (flagsSelect m k f).skind = setChannels m k f.skind := rfl
@[simp] theorem flagsSelect_rvalid (m : ChanMask) (k : Kind) (f : StatusFlags) : (flagsSelect m k f).rvalid = setChannels m false f.rvalid := rfl

@[simp] theorem flagsInverse_basisValid (m : ChanMask) (f : StatusFlags) : (flagsInverse m f).basisValid = f.basisValid := rfl
@[simp] theorem flagsInverse_outValid (m : ChanMask) (f : StatusFlags) : (flagsInverse m f).outValid = false := rfl
@[simp] theorem flagsInverse_fkind (m : ChanMask) (f : StatusFlags) : (flagsInverse m f).fkind = f.fkind := rfl
@[simp] theorem flagsInverse_skind (m : ChanMask) (f : StatusFlags) : (flagsInverse m f).skind = f.skind := rfl
@[simp] theorem flagsInverse_rvalid (m : ChanMask) (f : StatusFlags) : (flagsInverse m f).rvalid = setChannels m true f.rvalid := rfl

@[simp] theorem flagsAssembled_basisValid (f : StatusFlags) : (flagsAssembled f).basisValid = f.basisValid := rfl
@[simp] theorem flagsAssembled_outValid (f : StatusFlags) : (flagsAssembled f).outValid = true := rfl
@[simp] theorem flagsAssembled_fkind (f : StatusFlags) : (flagsAssembled f).fkind = f.fkind := rfl
@[simp] theorem flagsAssembled_skind (f : StatusFlags) : (flagsAssembled f).skind = f.skind := rfl
@[simp] theorem flagsAssembled_rvalid (f : StatusFlags) : (flagsAssembled f).rvalid = f.rvalid := rfl

@[simp] theorem flagsBasis_basisValid (f : StatusFlags) : (flagsBasis f).basisValid = true := rfl
@[simp] theorem flagsBasis_outValid (f : StatusFlags) : (flagsBasis f).outValid = f.outValid := rfl
@[simp] theorem flagsBasis_fkind (f : StatusFlags) : (flagsBasis f).fkind = f.fkind := rfl
@[simp] theorem flagsBasis_skind (f : StatusFlags) : (flagsBasis f).skind = f.skind := rfl
@[simp] theorem flagsBasis_rvalid (f : StatusFlags) : (flagsBasis f).rvalid = f.rvalid := rfl

/-- A channel in the mask takes the value, any other keeps its own (R42). -/
@[simp] theorem setChannels_get {α : Type} (m : ChanMask) (v : α) (p : PerChan α) (ch : Channel) :
    (setChannels m v p).get ch = if m.has ch then v else p.get ch := by
  cases ch <;> rfl

end Sys2Proof.Machine
end

