-- ==== Sys2Proof/Laws/Memory.lean ====
section
/-! SUPPORT. What reads see after a store, the canonical form, byte order, and planes laid out as bytes. -/

namespace Sys2Proof.Machine

/-! ### The cells of memory -/

theorem lookup_append (m₁ m₂ : Memory) (x : Nat) :
    Memory.lookup (m₁ ++ m₂) x = (Memory.lookup m₁ x).or (Memory.lookup m₂ x) := by
  induction m₁ with
  | nil => rfl
  | cons c m ih =>
    obtain ⟨k, b⟩ := c
    by_cases h : k = x <;> simp [Memory.lookup, h, ih]

theorem lookup_filter (p : Nat → Bool) (m : Memory) (x : Nat) :
    Memory.lookup (m.filter fun c => p c.1) x = if p x then Memory.lookup m x else none := by
  induction m with
  | nil => simp [Memory.lookup]
  | cons c m ih =>
    obtain ⟨k, b⟩ := c
    by_cases hk : p k <;> by_cases h : k = x
    · subst h; simp [Memory.lookup, hk]
    · simp [Memory.lookup, hk, h, ih]
    · subst h; simp [hk, ih]
    · simp [Memory.lookup, hk, h, ih]

theorem lookup_cellsFrom (bs : List Byte) (a x : Nat) :
    Memory.lookup (cellsFrom a bs) x = if a ≤ x then bs[x - a]? else none := by
  induction bs generalizing a with
  | nil => simp [cellsFrom, Memory.lookup]
  | cons b bs ih =>
    simp only [cellsFrom, Memory.lookup, ih]
    rcases Nat.lt_trichotomy a x with h | h | h
    · obtain ⟨d, rfl⟩ := Nat.exists_eq_add_of_lt h
      have h1 : a + d + 1 - a = d + 1 := by omega
      have h2 : a + d + 1 - (a + 1) = d := by omega
      have h3 : a ≠ a + d + 1 := by omega
      have h4 : a + 1 ≤ a + d + 1 := by omega
      have h5 : a ≤ a + d + 1 := by omega
      simp only [h1, h2, h3, h4, h5, if_true, if_false, List.getElem?_cons_succ]
    · subst h; simp
    · have h1 : ¬ a ≤ x := by omega
      have h2 : ¬ a + 1 ≤ x := by omega
      have h3 : a ≠ x := by omega
      simp [h1, h2, h3]

/-- What a store does to a lookup, whole. -/
theorem lookup_store (m : Memory) (a : Nat) (bs : List Byte) (x : Nat) :
    (m.store a bs).lookup x = if a ≤ x ∧ x < a + bs.length then bs[x - a]? else m.lookup x := by
  unfold Memory.store
  rw [lookup_append, lookup_append, lookup_cellsFrom, lookup_filter (fun k => decide (k < a)),
    lookup_filter (fun k => decide (a + bs.length ≤ k))]
  by_cases h1 : x < a
  · have h2 : ¬ a ≤ x := by omega
    have h3 : ¬ a + bs.length ≤ x := by omega
    simp [h1, h2, h3]
  · by_cases h3 : x < a + bs.length
    · have h2 : a ≤ x := by omega
      have h4 : x - a < bs.length := by omega
      simp [h1, h2, h3, h4]
    · have h2 : a ≤ x := by omega
      have h4 : bs.length ≤ x - a := by omega
      have h5 : a + bs.length ≤ x := by omega
      simp [h1, h2, h3, h4, h5]

theorem mem_cellsFrom {bs : List Byte} {a : Nat} {c : Host.Cell} (h : c ∈ cellsFrom a bs) :
    a ≤ c.1 ∧ c.1 < a + bs.length := by
  induction bs generalizing a with
  | nil => simp [cellsFrom] at h
  | cons b bs ih =>
    simp only [cellsFrom, List.mem_cons] at h
    rcases h with rfl | h
    · simp
    · have := ih h
      simp only [List.length_cons]
      omega

/-- A cell of the stored memory is an old one or lies among the stored bytes. -/
theorem mem_store {m : Memory} {a : Nat} {bs : List Byte} {c : Host.Cell} (h : c ∈ m.store a bs) :
    c ∈ m ∨ (a ≤ c.1 ∧ c.1 < a + bs.length) := by
  unfold Memory.store at h
  simp only [List.mem_append, List.mem_filter] at h
  rcases h with (⟨h, -⟩ | h) | ⟨h, -⟩
  · exact .inl h
  · exact .inr (mem_cellsFrom h)
  · exact .inl h

theorem wf_cellsFrom (bs : List Byte) (a : Nat) : Memory.wf (cellsFrom a bs) := by
  induction bs generalizing a with
  | nil => exact List.Pairwise.nil
  | cons b bs ih =>
    refine List.Pairwise.cons (fun c hc => ?_) (ih (a + 1))
    have := mem_cellsFrom hc
    change a < c.1
    omega

/-- The one write operation keeps the canonical form. -/
theorem wf_store {m : Memory} (h : m.wf) (a : Nat) (bs : List Byte) : (m.store a bs).wf := by
  unfold Memory.store
  unfold Memory.wf at *
  rw [List.pairwise_append, List.pairwise_append]
  refine ⟨⟨h.filter _, wf_cellsFrom bs a, ?_⟩, h.filter _, ?_⟩
  · intro x hx y hy
    have := mem_cellsFrom hy
    simp only [List.mem_filter, decide_eq_true_eq] at hx
    omega
  · intro x hx y hy
    simp only [List.mem_append, List.mem_filter, decide_eq_true_eq] at hx hy
    rcases hx with hx | hx
    · omega
    · have := mem_cellsFrom hx
      omega

/-- Two memories in canonical form that hold the same bytes are the same list. -/
theorem ext_of_lookup {m₁ m₂ : Memory} (h₁ : m₁.wf) (h₂ : m₂.wf) (h : ∀ x, m₁.lookup x = m₂.lookup x) : m₁ = m₂ := by
  have below : ∀ {m : Memory} {k : Nat}, (∀ c ∈ m, k < c.1) → ∀ x, x ≤ k → m.lookup x = none := by
    intro m k hm x hx
    induction m with
    | nil => rfl
    | cons c m ih =>
      have h1 := hm c (by simp)
      have h2 : c.1 ≠ x := by omega
      simp only [Memory.lookup, h2, if_false]
      exact ih fun d hd => hm d (by simp [hd])
  induction m₁ generalizing m₂ with
  | nil =>
    cases m₂ with
    | nil => rfl
    | cons c m => have := h c.1; simp [Memory.lookup] at this
  | cons c m ih =>
    cases m₂ with
    | nil => have := h c.1; simp [Memory.lookup] at this
    | cons d n =>
      obtain ⟨hc, hm⟩ := List.pairwise_cons.mp h₁
      obtain ⟨hd, hn⟩ := List.pairwise_cons.mp h₂
      have hk : c.1 = d.1 := by
        rcases Nat.lt_trichotomy c.1 d.1 with hlt | heq | hlt
        · have h3 := h c.1
          have h4 : d.1 ≠ c.1 := by omega
          simp only [Memory.lookup, if_true, h4, if_false] at h3
          rw [below hd c.1 (by omega)] at h3
          cases h3
        · exact heq
        · have h3 := h d.1
          have h4 : c.1 ≠ d.1 := by omega
          simp only [Memory.lookup, if_true, h4, if_false] at h3
          rw [below hc d.1 (by omega)] at h3
          cases h3
      have hb : c.2 = d.2 := by
        have h3 := h c.1
        simpa [Memory.lookup, hk] using h3
      have hcd : c = d := Prod.ext hk hb
      subst hcd
      congr 1
      refine ih hm hn fun x => ?_
      by_cases hx : c.1 = x
      · rw [below hc x (by omega), below hd x (by omega)]
      · have h3 := h x
        simpa [Memory.lookup, hx] using h3

/-! ### Reads after a store -/

/-- A byte read after a store: the stored byte inside the stored range, the old byte outside it. -/
theorem readByte_storeBytes (s : State) (a : Nat) (bs : List Byte) (x : Nat) :
    readByte (storeBytes s a bs) x = if a ≤ x ∧ x < a + bs.length then bs.getD (x - a) 0 else readByte s x := by
  unfold readByte
  rw [storeBytes_mem, storeBytes_epoch, lookup_store]
  split_ifs with h
  · have : x - a < bs.length := by omega
    simp [this]
  · rfl

theorem readByte_storeBytes_outside {s : State} {a : Nat} {bs : List Byte} {x : Nat} (h : x < a ∨ a + bs.length ≤ x) :
    readByte (storeBytes s a bs) x = readByte s x := by
  rw [readByte_storeBytes, if_neg (by omega)]

/-- A read depends on memory and on the draw of the unwritten bytes only. -/
theorem readByte_congr {s t : State} (hm : t.mem = s.mem) (he : t.epoch = s.epoch) (x : Nat) : readByte t x = readByte s x := by
  unfold readByte
  rw [hm, he]

theorem readBytes_congr {s t : State} {a n : Nat} (h : ∀ i < n, readByte t (a + i) = readByte s (a + i)) :
    readBytes t a n = readBytes s a n := by
  unfold readBytes
  exact List.map_congr_left fun i hi => h i (List.mem_range.mp hi)

theorem readF64_congr {s t : State} {a : Nat} (h : ∀ i < 8, readByte t (a + i) = readByte s (a + i)) :
    readF64 t a = readF64 s a := by
  unfold readF64
  rw [readBytes_congr h]

/-! ### Byte order (R48, R49) -/

@[simp] theorem bytesLE_length {w : Nat} (v : BitVec w) (n : Nat) : (bytesLE v n).length = n := by
  simp [bytesLE]

theorem bytesLE_getElem? {w : Nat} (v : BitVec w) {n i : Nat} (h : i < n) :
    (bytesLE v n)[i]? = some (v.extractLsb' (8 * i) 8) := by
  simp [bytesLE, h]

theorem natOfBytesLE_range {w : Nat} (v : BitVec w) (n k : Nat) :
    natOfBytesLE ((List.range n).map fun i => v.extractLsb' (8 * (k + i)) 8) = v.toNat / 2 ^ (8 * k) % 2 ^ (8 * n) := by
  induction n generalizing k with
  | zero => simp [natOfBytesLE, Nat.mod_one]
  | succ n ih =>
    rw [List.range_succ_eq_map, List.map_cons, List.map_map, natOfBytesLE]
    have h1 : ((fun i => v.extractLsb' (8 * (k + i)) 8) ∘ Nat.succ) = fun i => v.extractLsb' (8 * ((k + 1) + i)) 8 := by
      funext i
      simp only [Function.comp_apply]
      congr 2
      omega
    rw [h1, ih (k + 1)]
    have h2 : (v.extractLsb' (8 * (k + 0)) 8).toNat = v.toNat / 2 ^ (8 * k) % 256 := by
      simp [BitVec.extractLsb'_toNat, Nat.shiftRight_eq_div_pow]
    rw [h2]
    have h3 : (2 : Nat) ^ (8 * (k + 1)) = 2 ^ (8 * k) * 256 := by
      rw [Nat.mul_add, Nat.pow_add]
    have h4 : (2 : Nat) ^ (8 * (n + 1)) = 256 * 2 ^ (8 * n) := by
      rw [Nat.mul_add, Nat.pow_add, Nat.mul_comm]
    rw [h3, h4, ← Nat.div_div_eq_div_mul, Nat.mod_mul]

/-- Bytes written least significant first read back as the value. -/
theorem natOfBytesLE_bytesLE {w : Nat} (v : BitVec w) (n : Nat) : natOfBytesLE (bytesLE v n) = v.toNat % 2 ^ (8 * n) := by
  have := natOfBytesLE_range v n 0
  simpa [bytesLE] using this

/-- An element whose eight bytes are those of a value is that value. -/
theorem readF64_of_bytes {s : State} {a : Nat} {v : F64} (h : ∀ i < 8, readByte s (a + i) = v.extractLsb' (8 * i) 8) :
    readF64 s a = v := by
  have hb : readBytes s a 8 = bytesLE v 8 := List.map_congr_left fun i hi => h i (List.mem_range.mp hi)
  unfold readF64
  rw [hb, natOfBytesLE_bytesLE]
  exact BitVec.eq_of_toNat_eq (by simpa using v.isLt)

/-- A word whose four bytes are those of a value is that value. -/
theorem readWord_of_bytes {s : State} {a : Nat} {v : Word} (h : ∀ i < 4, readByte s (a + i) = v.extractLsb' (8 * i) 8) :
    readWord s a = v := by
  have hb : readBytes s a 4 = bytesLE v 4 := List.map_congr_left fun i hi => h i (List.mem_range.mp hi)
  unfold readWord
  rw [hb, natOfBytesLE_bytesLE]
  exact BitVec.eq_of_toNat_eq (by simpa using v.isLt)

/-! ### Planes -/

/-- The element of a tabulated plane. -/
@[simp] theorem at_tabulate {n r c : Nat} (f : Nat → Nat → F64) (hr : r < n) (hc : c < n) :
    (tabulate n f).at r c = f r c := by
  simp [Plane.at, tabulate, hr, hc]

/-- Two tabulated planes with the same elements are the same plane. -/
theorem tabulate_congr {n : Nat} {f g : Nat → Nat → F64} (h : ∀ r c, r < n → c < n → f r c = g r c) :
    tabulate n f = tabulate n g := by
  refine List.map_congr_left fun r hr => List.map_congr_left fun c hc => ?_
  exact h r c (List.mem_range.mp hr) (List.mem_range.mp hc)

theorem flatMap_const_length {α : Type} (f : Nat → List α) (k : Nat) (hf : ∀ i, (f i).length = k) (n : Nat) :
    ((List.range n).flatMap f).length = n * k := by
  induction n with
  | zero => simp
  | succ n ih => rw [List.range_succ, List.flatMap_append, List.length_append, ih]; simp [hf, Nat.succ_mul]

theorem flatMap_const_getElem? {α : Type} (f : Nat → List α) (k : Nat) (hf : ∀ i, (f i).length = k) {n i j : Nat}
    (hi : i < n) (hj : j < k) : ((List.range n).flatMap f)[k * i + j]? = (f i)[j]? := by
  induction n with
  | zero => omega
  | succ n ih =>
    rw [List.range_succ, List.flatMap_append, List.getElem?_append, flatMap_const_length f k hf]
    by_cases h : i < n
    · have hlt : k * i + j < n * k := by
        calc k * i + j < k * i + k := by omega
          _ = (i + 1) * k := by ring
          _ ≤ n * k := Nat.mul_le_mul_right k (by omega)
      rw [if_pos hlt, ih h]
    · have hin : i = n := by omega
      subst hin
      have hge : ¬ k * i + j < i * k := by rw [Nat.mul_comm]; omega
      have hsub : k * i + j - i * k = j := by rw [Nat.mul_comm]; omega
      rw [if_neg hge, hsub]
      simp

@[simp] theorem planeBytes_length (n : Nat) (W : Plane) : (planeBytes n W).length = 8 * (n * n) := by
  unfold planeBytes
  rw [flatMap_const_length _ 8 (by simp), Nat.mul_comm]

/-- Byte i of element idx of a plane laid out in memory. -/
theorem planeBytes_getElem? {n idx i : Nat} (W : Plane) (h : idx < n * n) (hi : i < 8) :
    (planeBytes n W)[8 * idx + i]? = some ((W.at (idx / n) (idx % n)).extractLsb' (8 * i) 8) := by
  unfold planeBytes
  rw [flatMap_const_getElem? _ 8 (by simp) h hi, bytesLE_getElem? _ hi]

/-- An element read after its plane was stored. -/
theorem readF64_storeBytes_plane (s : State) (a n : Nat) (W : Plane) {idx : Nat} (h : idx < n * n) :
    readF64 (storeBytes s a (planeBytes n W)) (a + 8 * idx) = W.at (idx / n) (idx % n) := by
  refine readF64_of_bytes fun i hi => ?_
  rw [readByte_storeBytes, if_pos (by rw [planeBytes_length]; omega)]
  have : a + 8 * idx + i - a = 8 * idx + i := by omega
  rw [this, List.getD_eq_getElem?_getD, planeBytes_getElem? W h hi, Option.getD_some]

end Sys2Proof.Machine
end

