-- ==== Sys2Proof/Laws/Ops.lean ====
section
/-! SUPPORT. One lemma for each shared operation that says everything it can do: the windows, storing planes, issuing and completing
a command, a host event, a step. -/

namespace Sys2Proof.Machine

/-! ### Sizes and the address map -/

theorem log2N_le (p : Params) : log2N p ≤ 10 := by
  have := p.log2nLess3.isLt
  unfold log2N
  omega

theorem three_le_log2N (p : Params) : 3 ≤ log2N p := by
  unfold log2N
  omega

/-- N is 8 times the macro-block side (R7, R10). -/
theorem side_eq (p : Params) : side p = 8 * 2 ^ p.log2nLess3.val := by
  unfold side log2N
  rw [Nat.pow_add]
  omega

theorem side_pos (p : Params) : 0 < side p := Nat.pow_pos (by decide)

theorem eight_le_side (p : Params) : 8 ≤ side p := by
  rw [side_eq]
  have : 0 < 2 ^ p.log2nLess3.val := Nat.pow_pos (by decide)
  omega

theorem side_le (p : Params) : side p ≤ 1024 := by
  unfold side
  calc 2 ^ log2N p ≤ 2 ^ 10 := Nat.pow_le_pow_right (by decide) (log2N_le p)
    _ = 1024 := by decide

theorem side_sq_le (p : Params) : side p * side p ≤ 1048576 :=
  Nat.mul_le_mul (side_le p) (side_le p)

theorem side_sq_pos (p : Params) : 0 < side p * side p := Nat.mul_pos (side_pos p) (side_pos p)

/-- Every element index splits into a row and a column of the plane. -/
theorem idx_split {p : Params} {idx : Nat} (h : idx < side p * side p) :
    idx / side p < side p ∧ idx % side p < side p :=
  ⟨Nat.div_lt_of_lt_mul h, Nat.mod_lt _ (side_pos p)⟩

/-- The index of element [r][c] is in the plane, and splits back into r and c. -/
theorem idx_join {p : Params} {r c : Nat} (hr : r < side p) (hc : c < side p) :
    r * side p + c < side p * side p ∧ (r * side p + c) / side p = r ∧ (r * side p + c) % side p = c := by
  refine ⟨?_, ?_, ?_⟩
  · calc r * side p + c < r * side p + side p := by omega
      _ = (r + 1) * side p := by ring
      _ ≤ side p * side p := Nat.mul_le_mul_right _ hr
  · rw [Nat.add_comm, Nat.add_mul_div_right _ _ (side_pos p), Nat.div_eq_of_lt hc, Nat.zero_add]
  · rw [Nat.add_comm, Nat.add_mul_mod_self_right, Nat.mod_eq_of_lt hc]

theorem contains_iff {p : Params} {w : Window} {a : Nat} :
    w.contains p a = true ↔ w.base ≤ a ∧ a < w.base + w.size p := by
  unfold Window.contains
  exact decide_eq_true_iff

/-- Two windows never overlap (R50). -/
theorem window_unique {p : Params} {w w' : Window} {a : Nat} (h : w.contains p a = true) (h' : w'.contains p a = true) : w = w' := by
  have hn := side_sq_le p
  rw [contains_iff] at h h'
  generalize hk : side p * side p = n at hn
  cases w <;> cases w' <;> first | rfl | (simp only [Window.base, Window.size, hk] at h h'; omega)

/-- The three windows that hold coefficient planes. -/
def Window.isCoef : Window → Bool
  | .freq => true
  | .sel => true
  | .recon => true
  | .input => false
  | .output => false
  | .basis => false

theorem index_le_two (ch : Channel) : Channel.index ch ≤ 2 := by cases ch <;> decide

theorem index_inj {c d : Channel} (h : Channel.index c = Channel.index d) : c = d := by
  cases c <;> cases d <;> first | rfl | cases h

/-- An element of a coefficient window is inside it, all eight bytes (R54, R57). -/
theorem elem_in_window {p : Params} {w : Window} (hw : w.isCoef = true) (ch : Channel) {idx i : Nat}
    (h : idx < side p * side p) (hi : i < 8) : w.contains p (elemAddr p w ch idx + i) = true := by
  generalize hn : side p * side p = n at h
  cases w <;> first
    | exact absurd hw (by decide)
    | (cases ch <;>
        (rw [contains_iff]
         simp only [Window.size, elemAddr, Channel.index, hn]
         omega))

/-- A byte of the input planes is inside the IN window (R51). -/
theorem input_in_window {p : Params} (ch : Channel) {idx : Nat} (h : idx < side p * side p) :
    Window.contains p .input (inputAddr p ch idx) = true := by
  generalize hn : side p * side p = n at h
  cases ch <;>
    (rw [contains_iff]
     simp only [Window.size, inputAddr, Channel.index, hn]
     omega)

/-- A byte of U is inside the BASIS window (R53). -/
theorem basisU_in_window {p : Params} {k i j : Nat} (hk : k < 8) (hi : i < 8) (hj : j < 8) :
    Window.contains p .basis (basisUAddr k i + j) = true := by
  rw [contains_iff]
  simp only [Window.size, basisUAddr]
  omega

/-- A byte of V is inside the BASIS window (R53). -/
theorem basisV_in_window {p : Params} {k i j : Nat} (hk : k < 8) (hi : i < 8) (hj : j < 8) :
    Window.contains p .basis (basisVAddr k i + j) = true := by
  rw [contains_iff]
  simp only [Window.size, basisVAddr]
  omega

/-- A byte of OUT is inside the OUT window (R52). -/
theorem output_in_window {p : Params} {idx j : Nat} (h : idx < side p * side p) (hj : j < 3) :
    Window.contains p .output (Window.output.base + (3 * idx + j)) = true := by
  generalize hn : side p * side p = n at h
  rw [contains_iff]
  simp only [Window.size, hn]
  omega

/-- Where a window is found it contains the address. -/
theorem windowAt_some {p : Params} {a : Nat} {w : Window} (h : windowAt p a = some w) : w.contains p a = true :=
  List.find?_some (p := fun w => Window.contains p w a) h

/-! ### Storing planes -/

/-- Storing planes changes memory alone. -/
theorem storePlanes_eq (m : ChanMask) (w : Window) (f : Channel → Plane) (s : State) :
    storePlanes m w f s = { s with mem := (storePlanes m w f s).mem } := by
  obtain ⟨r, g, b⟩ := m
  cases r <;> cases g <;> cases b <;> rfl

@[simp] theorem storePlanes_params (m : ChanMask) (w : Window) (f : Channel → Plane) (s : State) :
    (storePlanes m w f s).params = s.params := by rw [storePlanes_eq]

@[simp] theorem storePlanes_phase (m : ChanMask) (w : Window) (f : Channel → Plane) (s : State) :
    (storePlanes m w f s).phase = s.phase := by rw [storePlanes_eq]

@[simp] theorem storePlanes_flags (m : ChanMask) (w : Window) (f : Channel → Plane) (s : State) :
    (storePlanes m w f s).flags = s.flags := by rw [storePlanes_eq]

@[simp] theorem storePlanes_epoch (m : ChanMask) (w : Window) (f : Channel → Plane) (s : State) :
    (storePlanes m w f s).epoch = s.epoch := by rw [storePlanes_eq]

@[simp] theorem storePlanes_curCmd (m : ChanMask) (w : Window) (f : Channel → Plane) (s : State) :
    (storePlanes m w f s).curCmd = s.curCmd := by rw [storePlanes_eq]

/-- The bytes a plane is stored to. -/
def inPlane (p : Params) (w : Window) (ch : Channel) (a : Nat) : Prop :=
  elemAddr p w ch 0 ≤ a ∧ a < elemAddr p w ch 0 + 8 * (side p * side p)

theorem storePlane_outside {s : State} {w : Window} {ch : Channel} {W : Plane} {a : Nat} (h : ¬ inPlane s.params w ch a) :
    readByte (storePlane w ch W s) a = readByte s a := by
  unfold inPlane at h
  unfold storePlane
  exact readByte_storeBytes_outside (by rw [planeBytes_length]; omega)

/-- A byte outside the planes of the mask reads as before. -/
theorem storePlanes_outside {m : ChanMask} {w : Window} {f : Channel → Plane} {s : State} {a : Nat}
    (h : ∀ ch, m.has ch = true → ¬ inPlane s.params w ch a) :
    readByte (storePlanes m w f s) a = readByte s a := by
  have one : ∀ (ch : Channel) (t : State), t.params = s.params →
      (if m.has ch = true then storePlane w ch (f ch) t else t).params = s.params
        ∧ readByte (if m.has ch = true then storePlane w ch (f ch) t else t) a = readByte t a := by
    intro ch t ht
    by_cases hm : m.has ch = true
    · rw [if_pos hm]
      exact ⟨ht, storePlane_outside (by rw [ht]; exact h ch hm)⟩
    · rw [if_neg hm]
      exact ⟨ht, rfl⟩
  simp only [storePlanes, Channel.all, List.foldl_cons, List.foldl_nil]
  have h1 := one .red s rfl
  have h2 := one .green _ h1.1
  have h3 := one .blue _ h2.1
  exact h3.2.trans (h2.2.trans h1.2)

theorem planes_disjoint {p : Params} {w : Window} {c d : Channel} {a : Nat} (h : c ≠ d) (hc : inPlane p w c a) :
    ¬ inPlane p w d a := by
  unfold inPlane elemAddr at *
  generalize side p * side p = n at *
  cases c <;> cases d <;> first | exact absurd rfl h | (simp only [Channel.index] at *; omega)

theorem elem_inPlane {p : Params} {w : Window} (ch : Channel) {idx i : Nat} (h : idx < side p * side p) (hi : i < 8) :
    inPlane p w ch (elemAddr p w ch idx + i) := by
  unfold inPlane elemAddr
  omega

theorem readF64_storePlane (w : Window) (ch : Channel) (W : Plane) (s : State) {idx : Nat}
    (h : idx < side s.params * side s.params) :
    readF64 (storePlane w ch W s) (elemAddr s.params w ch idx) = W.at (idx / side s.params) (idx % side s.params) := by
  have ha : elemAddr s.params w ch idx = elemAddr s.params w ch 0 + 8 * idx := by
    unfold elemAddr
    omega
  rw [ha]
  exact readF64_storeBytes_plane s _ _ W h

theorem readF64_storePlane_other {w : Window} {c d : Channel} (W : Plane) {s : State} {p : Params} (hp : s.params = p) {idx : Nat}
    (h : idx < side p * side p) (hcd : c ≠ d) :
    readF64 (storePlane w d W s) (elemAddr p w c idx) = readF64 s (elemAddr p w c idx) := by
  subst hp
  exact readF64_congr fun i hi => storePlane_outside (planes_disjoint hcd (elem_inPlane c h hi))

/-- An element of a plane in the mask reads as the plane that was stored. -/
theorem readF64_storePlanes {m : ChanMask} (w : Window) (f : Channel → Plane) (s : State) {ch : Channel}
    (hm : m.has ch = true) {idx : Nat} (h : idx < side s.params * side s.params) :
    readF64 (storePlanes m w f s) (elemAddr s.params w ch idx)
      = (f ch).at (idx / side s.params) (idx % side s.params) := by
  have skip : ∀ (d : Channel) (t : State), t.params = s.params → ch ≠ d →
      readF64 (if m.has d = true then storePlane w d (f d) t else t) (elemAddr s.params w ch idx)
        = readF64 t (elemAddr s.params w ch idx) := by
    intro d t ht hcd
    split_ifs
    · exact readF64_storePlane_other (f d) ht h hcd
    · rfl
  have keep : ∀ (d : Channel) (t : State), t.params = s.params →
      (if m.has d = true then storePlane w d (f d) t else t).params = s.params := by
    intro d t ht
    split_ifs
    · exact ht
    · exact ht
  have hit : ∀ t : State, t.params = s.params →
      readF64 (if m.has ch = true then storePlane w ch (f ch) t else t) (elemAddr s.params w ch idx)
        = (f ch).at (idx / side s.params) (idx % side s.params) := by
    intro t ht
    rw [if_pos hm, ← ht]
    exact readF64_storePlane w ch (f ch) t (by rw [ht]; exact h)
  simp only [storePlanes, Channel.all, List.foldl_cons, List.foldl_nil]
  cases ch with
  | red =>
    rw [skip .blue _ (keep .green _ (keep .red s rfl)) (by decide), skip .green _ (keep .red s rfl) (by decide)]
    exact hit s rfl
  | green =>
    rw [skip .blue _ (keep .green _ (keep .red s rfl)) (by decide)]
    exact hit _ (keep .red s rfl)
  | blue => exact hit _ (keep .green _ (keep .red s rfl))

/-- An element of a plane outside the mask reads as before. -/
theorem readF64_storePlanes_unmasked {m : ChanMask} (w : Window) (f : Channel → Plane) (s : State) {ch : Channel}
    (hm : ¬ m.has ch = true) {idx : Nat} (h : idx < side s.params * side s.params) :
    readF64 (storePlanes m w f s) (elemAddr s.params w ch idx) = readF64 s (elemAddr s.params w ch idx) := by
  refine readF64_congr fun i hi => storePlanes_outside fun d hd => ?_
  have hcd : ch ≠ d := fun e => hm (e ▸ hd)
  exact planes_disjoint hcd (elem_inPlane ch h hi)

theorem inPlane_in_window {p : Params} {w : Window} (hw : w.isCoef = true) {ch : Channel} {a : Nat} (h : inPlane p w ch a) :
    w.contains p a = true := by
  unfold inPlane elemAddr at h
  generalize hn : side p * side p = n at h
  cases w <;> first
    | exact absurd hw (by decide)
    | (cases ch <;>
        (rw [contains_iff]
         simp only [Window.size, Channel.index, Window.base, hn] at *
         omega))

/-- Storing planes to one window leaves every other window as it was. -/
theorem storePlanes_other_window {m : ChanMask} {w w' : Window} (hw : w.isCoef = true) (f : Channel → Plane) {s : State} {a : Nat}
    (ha : w'.contains s.params a = true) (hne : w' ≠ w) :
    readByte (storePlanes m w f s) a = readByte s a :=
  storePlanes_outside fun _ _ hin => hne (window_unique ha (inPlane_in_window hw hin))

/-- Storing planes keeps memory canonical and inside the windows. -/
theorem storePlanes_memoryGood {m : ChanMask} {w : Window} (hw : w.isCoef = true) (f : Channel → Plane) {s : State}
    (h : MemoryGood s) : MemoryGood (storePlanes m w f s) := by
  have one : ∀ (ch : Channel) (t : State), MemoryGood t → MemoryGood (if m.has ch = true then storePlane w ch (f ch) t else t) := by
    intro ch t ht
    split_ifs
    · refine ⟨wf_store ht.1 _ _, fun c hc => ?_⟩
      rcases mem_store hc with hc | hc
      · exact ht.2 c hc
      · refine ⟨w, inPlane_in_window hw (ch := ch) ?_⟩
        rw [planeBytes_length] at hc
        exact hc
    · exact ht
  simp only [storePlanes, Channel.all, List.foldl_cons, List.foldl_nil]
  exact one .blue _ (one .green _ (one .red s h))

end Sys2Proof.Machine
end

