-- ==== Sys2Proof/Laws/Commands.lean ====
section
/-! SUPPORT. What issuing and completing a command, a host event and a step can do: said once, for every proof to cite. -/

namespace Sys2Proof.Machine

/-! ### Commands -/

/-- The effect a command has at completion, before the common part of R77. -/
def effectOf : Instr → State → State
  | .nop => fun s => s
  | .basisgen => basisgenEffect
  | .dctf m => dctfEffect m
  | .zzsel m => zzselEffect m
  | .dcti m => dctiEffect m
  | .dwtf m => dwtfEffect m
  | .dwtselr m => dwtselrEffect m
  | .dwtselb m => dwtselbEffect m
  | .dwti m => dwtiEffect m
  | .asm => asmEffect

/-- The flags a command leaves (R42). -/
def flagsAfter : Instr → StatusFlags → StatusFlags
  | .nop => fun f => f
  | .basisgen => flagsBasis
  | .dctf m => flagsForward m .dct
  | .zzsel m => flagsSelect m .dct
  | .dcti m => flagsInverse m
  | .dwtf m => flagsForward m .dwt
  | .dwtselr m => flagsSelect m .dwt
  | .dwtselb m => flagsSelect m .dwt
  | .dwti m => flagsInverse m
  | .asm => flagsAssembled

/-- Every arm is the one shared operation, with its command's effect. -/
theorem exec_eq (i : Instr) (s : State) : exec i s = runCommand i (effectOf i) s := by
  cases i <;> rfl

/-- A command in IDLE is being issued. -/
theorem exec_idle {s : State} (h : s.phase = .idle) (i : Instr) : exec i s = .next (issue i s) := by
  rw [exec_eq, runCommand, h]

/-- A command in BUSY is the running one, and it completes. -/
theorem exec_busy {s : State} (h : s.phase = .busy) (i : Instr) : exec i s = .next (finish (effectOf i s)) := by
  rw [exec_eq, runCommand, h]

/-- A command always has a next state. -/
theorem exec_next (i : Instr) (s : State) : ∃ t, exec i s = .next t := by
  cases h : s.phase
  · exact ⟨_, exec_idle h i⟩
  · exact ⟨_, exec_busy h i⟩

/-- The effect of a command changes memory and flags, nothing else, and the flags as the table of R42 says. -/
theorem effectOf_eq (i : Instr) (s : State) :
    effectOf i s = { s with mem := (effectOf i s).mem, flags := flagsAfter i s.flags } := by
  cases i with
  | nop => rfl
  | basisgen => rfl
  | asm => rfl
  | dctf m => simp only [effectOf, dctfEffect]; rw [storePlanes_eq]; rfl
  | zzsel m => simp only [effectOf, zzselEffect]; rw [storePlanes_eq]; rfl
  | dcti m => simp only [effectOf, dctiEffect]; rw [storePlanes_eq]; rfl
  | dwtf m => simp only [effectOf, dwtfEffect]; rw [storePlanes_eq]; rfl
  | dwtselr m => simp only [effectOf, dwtselrEffect]; rw [storePlanes_eq]; rfl
  | dwtselb m => simp only [effectOf, dwtselbEffect]; rw [storePlanes_eq]; rfl
  | dwti m => simp only [effectOf, dwtiEffect]; rw [storePlanes_eq]; rfl

@[simp] theorem effectOf_params (i : Instr) (s : State) : (effectOf i s).params = s.params := by rw [effectOf_eq]

@[simp] theorem effectOf_flags (i : Instr) (s : State) : (effectOf i s).flags = flagsAfter i s.flags := by rw [effectOf_eq]

@[simp] theorem effectOf_epoch (i : Instr) (s : State) : (effectOf i s).epoch = s.epoch := by rw [effectOf_eq]

@[simp] theorem effectOf_curCmd (i : Instr) (s : State) : (effectOf i s).curCmd = s.curCmd := by rw [effectOf_eq]

/-- The coefficient window a channel command writes, its mask, and the plane it writes to a channel (R171). -/
def planesOf : Instr → State → Option (ChanMask × Window × (Channel → Plane))
  | .dctf m, s => some (m, .freq, fun ch => dctForward (side s.params) (basisU s) (basisV s) (inputPlane s ch))
  | .zzsel m, s => some (m, .sel, fun ch => zigzagSelect (side s.params) (zigzagQuota s) (coefPlane s .freq ch))
  | .dcti m, s => some (m, .recon, fun ch => dctInverse (side s.params) (basisU s) (basisV s) (coefPlane s .sel ch))
  | .dwtf m, s => some (m, .freq, fun ch => dwtForward s.params (inputPlane s ch))
  | .dwtselr m, s => some (m, .sel, fun ch => radiusSelect (side s.params) (radius s) (coefPlane s .freq ch))
  | .dwtselb m, s => some (m, .sel, fun ch => blockSelect s.params (blockQuota s) (coefPlane s .freq ch))
  | .dwti m, s => some (m, .recon, fun ch => dwtInverse s.params (coefPlane s .sel ch))
  | .nop, _ => none
  | .basisgen, _ => none
  | .asm, _ => none

/-- The memory a channel command leaves is the one its planes are stored to. -/
theorem effectOf_planes {i : Instr} {s : State} {m : ChanMask} {w : Window} {f : Channel → Plane}
    (h : planesOf i s = some (m, w, f)) : (effectOf i s).mem = (storePlanes m w f s).mem := by
  cases i <;> cases h <;> rfl

theorem planesOf_isCoef {i : Instr} {s : State} {m : ChanMask} {w : Window} {f : Channel → Plane}
    (h : planesOf i s = some (m, w, f)) : w.isCoef = true := by
  cases i <;> cases h <;> rfl

/-! ### Host events -/

/-- Everything a host event can do. -/
inductive HostEffect (s : State) : State → Prop where
  | read (r : Response) : HostEffect s (respond r s)
  | readError (r : Response) (a : Word) : HostEffect s (respond r (accessError a s))
  | writeError (a : Word) : HostEffect s (accessError a (respond .none s))
  | store (a : Nat) (bs : List Byte) (hidle : s.phase = .idle)
      (hin : ∀ x, a ≤ x → x < a + bs.length → Window.contains s.params .input x = true) :
      HostEffect s (storeBytes (respond .none s) a bs)
  | overrun (hb : s.phase = .busy) : HostEffect s (overrun (respond .none s))
  | reject (w : Word) (e : CmdError) (hidle : s.phase = .idle) (hd : decode w = .error e) :
      HostEffect s (reject w e (respond .none s))
  | issue (w : Word) (i : Instr) (hidle : s.phase = .idle) (hd : decode w = .ok i) :
      HostEffect s (issue i (respond .none s))
  | budget (v : Word) : HostEffect s (writeBudget v (respond .none s))
  | clearErr (v : Word) : HostEffect s (clearErr v (respond .none s))
  | irqEn (v : Word) : HostEffect s (writeIrqEn v (respond .none s))
  | acknowledge (v : Word) : HostEffect s (acknowledgeIrq v (respond .none s))
  | reset : HostEffect s (resetEvent s)

theorem byteTarget_some {s : State} {a : Nat} {w : Window} (h : byteTarget s a = some w) :
    s.phase = .idle ∧ w.contains s.params a = true := by
  unfold byteTarget targetAt at h
  by_cases ha : a < 0x1000
  · simp only [ha, if_true] at h
    cases hr : regAt a <;> simp [hr] at h
  · simp only [ha, if_false] at h
    cases hw : windowAt s.params a with
    | none => simp [hw] at h
    | some w' =>
      cases hp : s.phase with
      | idle =>
        simp [hw, busyBit, hp] at h
        subst h
        exact ⟨rfl, windowAt_some hw⟩
      | busy => simp [hw, busyBit, hp] at h

theorem wordTarget_window {s : State} {a : Nat} {w : Window} (h : wordTarget s a = some (.window w)) :
    a % 4 = 0 ∧ s.phase = .idle ∧ w.contains s.params a = true := by
  unfold wordTarget targetAt at h
  by_cases h4 : a % 4 = 0
  · refine ⟨h4, ?_⟩
    by_cases ha : a < 0x1000
    · simp only [h4, ha, if_true] at h
      cases hr : regAt a <;> simp [hr] at h
    · simp only [h4, ha, if_true, if_false] at h
      cases hw : windowAt s.params a with
      | none => simp [hw] at h
      | some w' =>
        cases hp : s.phase with
        | idle =>
          simp [hw, busyBit, hp] at h
          subst h
          exact ⟨rfl, windowAt_some hw⟩
        | busy => simp [hw, busyBit, hp] at h
  · simp [h4] at h

/-- N·N is a multiple of 64 (R11). -/
theorem side_sq_eq (p : Params) : side p * side p = 64 * (2 ^ p.log2nLess3.val * 2 ^ p.log2nLess3.val) := by
  rw [side_eq]
  ring

/-- An aligned word that starts in IN is in IN whole (R57). -/
theorem input_word {p : Params} {a : Nat} (h4 : a % 4 = 0) (h : Window.contains p .input a = true) {x : Nat}
    (h1 : a ≤ x) (h2 : x < a + 4) : Window.contains p .input x = true := by
  rw [contains_iff] at *
  simp only [Window.size] at *
  rw [side_sq_eq] at *
  generalize 2 ^ p.log2nLess3.val * 2 ^ p.log2nLess3.val = n at *
  simp only [Window.base] at *
  omega

theorem writeCmd_effect (w : Word) (s : State) :
    ∃ t, writeCmd w (respond .none s) = .next t ∧ HostEffect s t := by
  cases hp : s.phase with
  | busy => exact ⟨_, by simp only [writeCmd, respond_phase, hp], .overrun hp⟩
  | idle =>
    cases hd : decode w with
    | error e => exact ⟨_, by simp only [writeCmd, respond_phase, hp, hd], .reject w e hp hd⟩
    | ok i =>
      refine ⟨_, ?_, .issue w i hp hd⟩
      simp only [writeCmd, respond_phase, hp, hd]
      exact exec_idle (by simpa using hp) i

/-- A host event always has a next state, and it is one of the effects above. -/
theorem hostEvent_effect (e : HostEvent) (s : State) : ∃ t, hostEvent e s = .next t ∧ HostEffect s t := by
  cases e with
  | read8 a =>
    refine ⟨_, rfl, ?_⟩
    unfold busRead8
    split
    · split
      · exact .read _
      · exact .readError _ _
    · exact .readError _ _
  | read32 a =>
    refine ⟨_, rfl, ?_⟩
    unfold busRead32
    split
    · exact .read _
    · exact .read _
    · exact .readError _ _
  | write8 a v =>
    refine ⟨_, rfl, ?_⟩
    unfold busWrite8
    split
    · next w hw =>
      obtain ⟨hp, hc⟩ := byteTarget_some hw
      cases w with
      | input =>
        refine .store _ _ (by simpa using hp) fun x h1 h2 => ?_
        have : x = a.toNat := by simp at h2; omega
        subst this
        simpa using hc
      | output => exact .writeError a
      | basis => exact .writeError a
      | freq => exact .writeError a
      | sel => exact .writeError a
      | recon => exact .writeError a
    · exact .writeError a
  | write32 a v =>
    simp only [hostEvent, busWrite32]
    split
    · next r _ =>
      cases r with
      | cmd => exact writeCmd_effect v s
      | budget => exact ⟨_, rfl, .budget v⟩
      | err => exact ⟨_, rfl, .clearErr v⟩
      | irqEn => exact ⟨_, rfl, .irqEn v⟩
      | irqPend => exact ⟨_, rfl, .acknowledge v⟩
      | id => exact ⟨_, rfl, .writeError a⟩
      | param => exact ⟨_, rfl, .writeError a⟩
      | status => exact ⟨_, rfl, .writeError a⟩
      | lastCmd => exact ⟨_, rfl, .writeError a⟩
      | accAddr => exact ⟨_, rfl, .writeError a⟩
      | mbprio k => exact ⟨_, rfl, .writeError a⟩
    · next w hw =>
      obtain ⟨h4, hp, hc⟩ := wordTarget_window hw
      refine ⟨_, rfl, ?_⟩
      cases w with
      | input =>
        refine .store _ _ (by simpa using hp) fun x h1 h2 => ?_
        exact input_word h4 (by simpa using hc) h1 (by simpa using h2)
      | output => exact .writeError a
      | basis => exact .writeError a
      | freq => exact .writeError a
      | sel => exact .writeError a
      | recon => exact .writeError a
    · exact ⟨_, rfl, .writeError a⟩
  | reset => exact ⟨_, rfl, .reset⟩

/-! ### A step -/

/-- Everything a step can do. -/
inductive StepEffect (s : State) : State → Prop where
  | complete (i : Instr) (hb : s.phase = .busy) (ht : engineTurn s = true) (hd : decode s.curCmd = .ok i) :
      StepEffect s (finish (effectOf i s))
  | rest (hh : s.host = []) (ht : engineTurn s = false) : StepEffect s s
  | host (e : HostEvent) (rest : List HostEvent) (t : State) (hh : s.host = e :: rest) (ht : engineTurn s = false)
      (he : hostEvent e (takeEvent rest s) = .next t) (heff : HostEffect (takeEvent rest s) t) : StepEffect s t

theorem engineTurn_busy {s : State} (h : engineTurn s = true) : s.phase = .busy := by
  simp only [engineTurn, busyBit, Bool.and_eq_true, decide_eq_true_eq] at h
  exact h.1

/-- The inversion of `step`: a next state is one of the effects above. -/
theorem step_effect {s t : State} (h : step s = .next t) : StepEffect s t := by
  unfold step at h
  by_cases ht : engineTurn s = true
  · rw [if_pos ht, engineStep] at h
    have hb := engineTurn_busy ht
    cases hd : decode s.curCmd with
    | error e => rw [hd] at h; cases h
    | ok i =>
      rw [hd] at h
      dsimp only at h
      rw [exec_busy hb i] at h
      cases h
      exact .complete i hb ht hd
  · rw [if_neg ht, hostStep] at h
    have ht : engineTurn s = false := by simpa using ht
    cases hh : s.host with
    | nil =>
      rw [hh] at h
      cases h
      exact .rest hh ht
    | cons e rest =>
      rw [hh] at h
      dsimp only at h
      obtain ⟨t', he, heff⟩ := hostEvent_effect e (takeEvent rest s)
      rw [he] at h
      cases h
      exact .host e rest _ hh ht he heff

end Sys2Proof.Machine
end

