-- ==== Sys2Proof/Laws/Effects.lean ====
section
/-! SUPPORT. What BASISGEN and ASM leave in memory, where each command writes, and the elements of the planes commands read. -/

namespace Sys2Proof.Machine

/-! ### Elements of the operand planes -/

/-- An element of a coefficient plane is the element of its memory. -/
theorem coefPlane_at (s : State) (w : Window) (ch : Channel) {r c : Nat} (hr : r < side s.params) (hc : c < side s.params) :
    (coefPlane s w ch).at r c = readF64 s (elemAddr s.params w ch (r * side s.params + c)) :=
  at_tabulate _ hr hc

/-- An element of an input plane is the widened byte. -/
theorem inputPlane_at (s : State) (ch : Channel) {r c : Nat} (hr : r < side s.params) (hc : c < side s.params) :
    (inputPlane s ch).at r c = f64OfByte (readByte s (inputAddr s.params ch (r * side s.params + c))) :=
  at_tabulate _ hr hc

theorem basisU_at (s : State) {k i : Nat} (hk : k < 8) (hi : i < 8) : (basisU s).at k i = readF64 s (basisUAddr k i) :=
  at_tabulate _ hk hi

theorem basisV_at (s : State) {k i : Nat} (hk : k < 8) (hi : i < 8) : (basisV s).at k i = readF64 s (basisVAddr k i) :=
  at_tabulate _ hk hi

/-- The 64-term sum depends on its 64 terms only. -/
theorem sum64_congr {f g : Nat → Nat → F64} (h : ∀ i j, i < 8 → j < 8 → f i j = g i j) : sum64 f = sum64 g := by
  unfold sum64
  refine List.foldl_ext _ _ _ fun s i hi => List.foldl_ext _ _ _ fun t j hj => ?_
  rw [h i j (List.mem_range.mp hi) (List.mem_range.mp hj)]

/-- The rows and columns of a tile are in the plane. -/
theorem tile_lt {p : Params} {r x : Nat} (hr : r < side p) (hx : x < 8) : 8 * (r / 8) + x < side p := by
  rw [side_eq] at *
  omega

/-- An element of a tilewise plane is the tile function at the tile's own samples. -/
theorem tilewise_at {n r c : Nat} (W : Plane) (g : (Nat → Nat → F64) → Nat → Nat → F64) (hr : r < n) (hc : c < n) :
    (tilewise n W g).at r c = g (fun x y => W.at (8 * (r / 8) + x) (8 * (c / 8) + y)) (r % 8) (c % 8) :=
  at_tabulate _ hr hc

/-! ### BASISGEN -/

@[simp] theorem basisBytes_length (p : Params) : (basisBytes p).length = 512 := by
  simp [basisBytes]

theorem basisgen_mem (s : State) :
    (basisgenEffect s).mem
      = (storeBytes (storeBytes s (basisUAddr 0 0) (basisBytes s.params)) (basisVAddr 0 0) (basisBytes s.params)).mem := rfl

theorem basisgen_readByte (s : State) (a : Nat) :
    readByte (basisgenEffect s) a
      = readByte (storeBytes (storeBytes s (basisUAddr 0 0) (basisBytes s.params)) (basisVAddr 0 0) (basisBytes s.params)) a :=
  readByte_congr (basisgen_mem s) rfl a

/-- A byte outside the BASIS window reads as before. -/
theorem basisgen_outside {s : State} {a : Nat} (h : Window.contains s.params .basis a = false) :
    readByte (basisgenEffect s) a = readByte s a := by
  have h' : ¬ (Window.contains s.params .basis a = true) := by simp [h]
  rw [contains_iff] at h'
  simp only [Window.size] at h'
  rw [basisgen_readByte, readByte_storeBytes_outside, readByte_storeBytes_outside]
  · simp only [basisBytes_length, basisUAddr]
    omega
  · simp only [basisBytes_length, basisVAddr]
    omega

/-- V after BASISGEN (R87, R88). -/
theorem basisgen_V (s : State) {k i : Nat} (hk : k < 8) (hi : i < 8) :
    readF64 (basisgenEffect s) (basisVAddr k i) = (basisTable s.params).at k i := by
  have hidx : 8 * k + i < 8 * 8 := by omega
  have ha : basisVAddr k i = basisVAddr 0 0 + 8 * (8 * k + i) := by simp only [basisVAddr]
  have h := readF64_storeBytes_plane (storeBytes s (basisUAddr 0 0) (basisBytes s.params)) (basisVAddr 0 0) 8
    (basisTable s.params) hidx
  rw [readF64_congr fun j _ => basisgen_readByte s (basisVAddr k i + j), ha]
  rw [show (8 * k + i) / 8 = k by omega, show (8 * k + i) % 8 = i by omega] at h
  exact h

/-- U after BASISGEN (R88). -/
theorem basisgen_U (s : State) {k i : Nat} (hk : k < 8) (hi : i < 8) :
    readF64 (basisgenEffect s) (basisUAddr k i) = (basisTable s.params).at k i := by
  have hidx : 8 * k + i < 8 * 8 := by omega
  have ha : basisUAddr k i = basisUAddr 0 0 + 8 * (8 * k + i) := by simp only [basisUAddr]; omega
  have h := readF64_storeBytes_plane s (basisUAddr 0 0) 8 (basisTable s.params) hidx
  rw [show (8 * k + i) / 8 = k by omega, show (8 * k + i) % 8 = i by omega, ← ha] at h
  rw [← h]
  refine readF64_congr fun j hj => ?_
  rw [basisgen_readByte, readByte_storeBytes_outside]
  · rfl
  · simp only [basisUAddr, basisVAddr]
    omega

theorem basisgen_memoryGood {s : State} (h : MemoryGood s) : MemoryGood (basisgenEffect s) := by
  refine ⟨wf_store (wf_store h.1 _ _) _ _, fun c hc => ?_⟩
  have hp : (basisgenEffect s).params = s.params := rfl
  rw [hp]
  have inBasis : ∀ a, basisUAddr 0 0 ≤ a → a < basisVAddr 0 0 + 512 → Window.contains s.params .basis a = true := by
    intro a h1 h2
    rw [contains_iff]
    simp only [Window.size]
    simp only [basisUAddr, basisVAddr] at h1 h2
    omega
  have hV : basisVAddr 0 0 = basisUAddr 0 0 + 512 := by simp only [basisUAddr, basisVAddr]
  rw [basisgen_mem] at hc
  rcases mem_store hc with hc | hc
  · rcases mem_store hc with hc | hc
    · exact h.2 c hc
    · rw [basisBytes_length] at hc
      exact ⟨.basis, inBasis _ hc.1 (by omega)⟩
  · rw [basisBytes_length] at hc
    exact ⟨.basis, inBasis _ (by omega) hc.2⟩

/-! ### ASM -/

theorem outputBytes_length (n : Nat) (plane : Channel → Plane) : (outputBytes n plane).length = 3 * (n * n) := by
  unfold outputBytes
  rw [flatMap_const_length _ 3 (fun _ => rfl), Nat.mul_comm]

theorem asm_readByte (s : State) (a : Nat) :
    readByte (asmEffect s) a
      = readByte (storeBytes s Window.output.base (outputBytes (side s.params) (coefPlane s .recon))) a := by
  refine readByte_congr ?_ rfl a
  simp only [asmEffect, storeBytes_mem]

/-- A byte outside the OUT window reads as before. -/
theorem asm_outside {s : State} {a : Nat} (h : Window.contains s.params .output a = false) :
    readByte (asmEffect s) a = readByte s a := by
  have h' : ¬ (Window.contains s.params .output a = true) := by simp [h]
  rw [contains_iff] at h'
  simp only [Window.size] at h'
  rw [asm_readByte, readByte_storeBytes_outside]
  rw [outputBytes_length]
  omega

/-- Byte 3·p + ch of OUT after ASM (R137, R138). -/
theorem asm_output (s : State) (ch : Channel) {idx : Nat} (h : idx < side s.params * side s.params) :
    readByte (asmEffect s) (Window.output.base + (3 * idx + Channel.index ch))
      = trunc8 (clamp255 (readF64 s (elemAddr s.params .recon ch idx))) := by
  have hch := index_le_two ch
  obtain ⟨hr, hc⟩ := idx_split h
  rw [asm_readByte, readByte_storeBytes, if_pos (by rw [outputBytes_length]; omega)]
  rw [show Window.output.base + (3 * idx + Channel.index ch) - Window.output.base = 3 * idx + Channel.index ch by omega]
  rw [List.getD_eq_getElem?_getD]
  unfold outputBytes
  rw [flatMap_const_getElem? _ 3 (fun _ => rfl) h (by omega)]
  have hi : idx / side s.params * side s.params + idx % side s.params = idx := by
    rw [Nat.mul_comm]
    exact Nat.div_add_mod _ _
  have hat : ∀ d, (coefPlane s .recon d).at (idx / side s.params) (idx % side s.params)
      = readF64 s (elemAddr s.params .recon d idx) := by
    intro d
    rw [coefPlane_at s .recon d hr hc, hi]
  cases ch <;> simp [pixelBytes, Channel.all, Channel.index, hat]

theorem asm_memoryGood {s : State} (h : MemoryGood s) : MemoryGood (asmEffect s) := by
  refine ⟨wf_store h.1 _ _, fun c hc => ?_⟩
  rcases mem_store hc with hc | hc
  · exact h.2 c hc
  · refine ⟨.output, contains_iff.mpr ?_⟩
    rw [outputBytes_length] at hc
    simp only [Window.size]
    exact hc

/-! ### Where a command writes -/

/-- The one window a command writes (R171); NOP writes none. -/
def writesTo : Instr → Option Window
  | .nop => none
  | .basisgen => some .basis
  | .dctf _ => some .freq
  | .zzsel _ => some .sel
  | .dcti _ => some .recon
  | .dwtf _ => some .freq
  | .dwtselr _ => some .sel
  | .dwtselb _ => some .sel
  | .dwti _ => some .recon
  | .asm => some .output

theorem planesOf_writesTo {i : Instr} {s : State} {m : ChanMask} {w : Window} {f : Channel → Plane}
    (h : planesOf i s = some (m, w, f)) : writesTo i = some w := by
  cases i <;> cases h <;> rfl

/-- A command without planes is NOP, BASISGEN or ASM. -/
theorem planesOf_none {i : Instr} {s : State} (h : planesOf i s = none) : i = .nop ∨ i = .basisgen ∨ i = .asm := by
  cases i with
  | nop => exact .inl rfl
  | basisgen => exact .inr (.inl rfl)
  | asm => exact .inr (.inr rfl)
  | dctf m => cases h
  | zzsel m => cases h
  | dcti m => cases h
  | dwtf m => cases h
  | dwtselr m => cases h
  | dwtselb m => cases h
  | dwti m => cases h

theorem effectOf_readByte_planes {i : Instr} {s : State} {m : ChanMask} {w : Window} {f : Channel → Plane}
    (h : planesOf i s = some (m, w, f)) (a : Nat) : readByte (effectOf i s) a = readByte (storePlanes m w f s) a :=
  readByte_congr (effectOf_planes h) (by simp) a

/-- Element [ch][r][c] of a masked channel, in the window a command writes, is that of the plane the command makes. -/
theorem effectOf_element {i : Instr} {s : State} {m : ChanMask} {w : Window} {f : Channel → Plane}
    (h : planesOf i s = some (m, w, f)) {ch : Channel} (hm : m.has ch = true) {r c : Nat}
    (hr : r < side s.params) (hc : c < side s.params) :
    readF64 (effectOf i s) (elemAddr s.params w ch (r * side s.params + c)) = (f ch).at r c := by
  obtain ⟨h1, h2, h3⟩ := idx_join hr hc
  rw [readF64_congr fun j _ => effectOf_readByte_planes h _, readF64_storePlanes w f s hm h1, h2, h3]

/-- Element [ch][r][c] of a channel outside the mask reads as before. -/
theorem effectOf_element_unmasked {i : Instr} {s : State} {m : ChanMask} {w : Window} {f : Channel → Plane}
    (h : planesOf i s = some (m, w, f)) {ch : Channel} (hm : ¬ m.has ch = true) {r c : Nat}
    (hr : r < side s.params) (hc : c < side s.params) :
    readF64 (effectOf i s) (elemAddr s.params w ch (r * side s.params + c))
      = readF64 s (elemAddr s.params w ch (r * side s.params + c)) := by
  rw [readF64_congr fun j _ => effectOf_readByte_planes h _, readF64_storePlanes_unmasked w f s hm (idx_join hr hc).1]

/-- A byte outside the planes of a command's mask reads as before. -/
theorem effectOf_outside_planes {i : Instr} {s : State} {m : ChanMask} {w : Window} {f : Channel → Plane}
    (h : planesOf i s = some (m, w, f)) {a : Nat} (ha : ∀ ch, m.has ch = true → ¬ inPlane s.params w ch a) :
    readByte (effectOf i s) a = readByte s a := by
  rw [effectOf_readByte_planes h, storePlanes_outside ha]

/-- A byte outside the window a command writes reads as before. -/
theorem effectOf_outside {i : Instr} {s : State} {a : Nat}
    (h : ∀ w, writesTo i = some w → w.contains s.params a = false) : readByte (effectOf i s) a = readByte s a := by
  cases hp : planesOf i s with
  | some x =>
    obtain ⟨m, w, f⟩ := x
    rw [effectOf_readByte_planes hp]
    refine storePlanes_outside fun ch _ hin => ?_
    have h1 := inPlane_in_window (planesOf_isCoef hp) hin
    rw [h w (planesOf_writesTo hp)] at h1
    cases h1
  | none =>
    rcases planesOf_none hp with rfl | rfl | rfl
    · rfl
    · exact basisgen_outside (h _ rfl)
    · exact asm_outside (h _ rfl)

/-- Every command keeps memory canonical and inside the windows. -/
theorem effectOf_memoryGood {s : State} (h : MemoryGood s) (i : Instr) : MemoryGood (effectOf i s) := by
  cases hp : planesOf i s with
  | some x =>
    obtain ⟨m, w, f⟩ := x
    have h1 := storePlanes_memoryGood (m := m) (planesOf_isCoef hp) f h
    unfold MemoryGood at *
    rw [effectOf_planes hp, effectOf_params]
    simpa using h1
  | none =>
    rcases planesOf_none hp with rfl | rfl | rfl
    · exact h
    · exact basisgen_memoryGood h
    · exact asm_memoryGood h

/-! ### What a command reads -/

/-- The part of the state that commands read: parameters, the latched budget and memory (R77 point 1). -/
structure SameOperands (s t : State) : Prop where
  params : t.params = s.params
  curBudget : t.curBudget = s.curBudget
  mem : t.mem = s.mem
  epoch : t.epoch = s.epoch

theorem SameOperands.readF64 {s t : State} (h : SameOperands s t) (a : Nat) : Machine.readF64 t a = Machine.readF64 s a :=
  readF64_congr fun _ _ => readByte_congr h.mem h.epoch _

theorem SameOperands.coefPlane {s t : State} (h : SameOperands s t) (w : Window) (ch : Channel) :
    Machine.coefPlane t w ch = Machine.coefPlane s w ch := by
  simp only [Machine.coefPlane, h.params, h.readF64]

theorem SameOperands.inputPlane {s t : State} (h : SameOperands s t) (ch : Channel) :
    Machine.inputPlane t ch = Machine.inputPlane s ch := by
  simp only [Machine.inputPlane, h.params, readByte_congr h.mem h.epoch]

theorem SameOperands.basisU {s t : State} (h : SameOperands s t) : Machine.basisU t = Machine.basisU s := by
  simp only [Machine.basisU, h.readF64]

theorem SameOperands.basisV {s t : State} (h : SameOperands s t) : Machine.basisV t = Machine.basisV s := by
  simp only [Machine.basisV, h.readF64]

theorem SameOperands.planesOf {s t : State} (h : SameOperands s t) (i : Instr) :
    Machine.planesOf i t = Machine.planesOf i s := by
  cases i <;> simp only [Machine.planesOf, zigzagQuota, blockQuota, radius, h.params, h.curBudget, h.coefPlane, h.inputPlane,
    h.basisU, h.basisV]

theorem storePlanes_mem {s t : State} (hp : t.params = s.params) (hm : t.mem = s.mem) (m : ChanMask) (w : Window)
    (f : Channel → Plane) : (storePlanes m w f t).mem = (storePlanes m w f s).mem := by
  obtain ⟨r, g, b⟩ := m
  cases r <;> cases g <;> cases b <;> simp only [storePlanes, storePlane, storeBytes, Channel.all, List.foldl, ChanMask.has, hp, hm,
    if_true, Bool.false_eq_true, if_false]

/-- What a command leaves in memory depends on nothing else: R77 point 1, R34. -/
theorem effectOf_mem_congr {s t : State} (h : SameOperands s t) (i : Instr) : (effectOf i t).mem = (effectOf i s).mem := by
  cases hp : planesOf i s with
  | some x =>
    obtain ⟨m, w, f⟩ := x
    rw [effectOf_planes hp, effectOf_planes ((h.planesOf i).trans hp), storePlanes_mem h.params h.mem]
  | none =>
    rcases planesOf_none hp with rfl | rfl | rfl
    · exact h.mem
    · simp only [effectOf, basisgenEffect, storeBytes, h.params, h.mem]
    · simp only [effectOf, asmEffect, storeBytes, h.params, h.mem, h.coefPlane]

end Sys2Proof.Machine
end

