-- ==== Sys2Proof/Laws/Bus.lean ====
section
/-! SUPPORT. What the address decoding of the bus gives: registers, windows and the targets of word and byte accesses. -/

namespace Sys2Proof.Machine

/-- The window an address is in is the one that contains it (R50, R57). -/
theorem windowAt_iff {p : Params} {a : Nat} {w : Window} : windowAt p a = some w ↔ w.contains p a = true := by
  refine ⟨windowAt_some, fun h => ?_⟩
  cases hw : windowAt p a with
  | some w' => rw [window_unique h (windowAt_some hw)]
  | none => exact absurd h (List.find?_eq_none.mp hw w (by cases w <;> simp [Window.all]))

/-- Every window lies above the register block (R50). -/
theorem window_above_registers {p : Params} {w : Window} {a : Nat} (h : w.contains p a = true) : 0x1000 ≤ a := by
  obtain ⟨h, _⟩ := contains_iff.mp h
  cases w <;> simp [Window.base] at h <;> omega

/-- Every register lies in the register block (R20). -/
theorem regAt_lt {a : Nat} {r : Reg} (h : regAt a = some r) : a < 0x1000 := by
  unfold regAt at h
  split at h
  all_goals first | omega | skip
  split at h
  · omega
  · cases h

/-- A word access to a register: what it takes (R56, R20). A register is reached in either phase. -/
theorem wordTarget_reg_iff {s : State} {a : Nat} {r : Reg} :
    wordTarget s a = some (.reg r) ↔ a % 4 = 0 ∧ regAt a = some r := by
  constructor
  · intro h
    unfold wordTarget targetAt at h
    split at h
    · refine ⟨‹_›, ?_⟩
      split at h
      · rename_i hh
        split at hh
        · simp at hh h; rw [hh, h]
        · simp at hh
      · split at h <;> simp at h
      · cases h
    · cases h
  · rintro ⟨h4, h⟩
    simp [wordTarget, targetAt, h4, regAt_lt h, h]

/-- A word access to a window: what it takes (R56, R57, R59). -/
theorem wordTarget_window_iff {s : State} {a : Nat} {w : Window} :
    wordTarget s a = some (.window w) ↔ a % 4 = 0 ∧ s.phase = .idle ∧ w.contains s.params a = true := by
  refine ⟨wordTarget_window, fun ⟨h4, hi, h⟩ => ?_⟩
  simp [wordTarget, targetAt, h4, Nat.not_lt.mpr (window_above_registers h), windowAt_iff.mpr h, busyBit, hi]

/-- A byte access to a window: what it takes (R55, R59). -/
theorem byteTarget_iff {s : State} {a : Nat} {w : Window} :
    byteTarget s a = some w ↔ s.phase = .idle ∧ w.contains s.params a = true := by
  refine ⟨byteTarget_some, fun ⟨hi, h⟩ => ?_⟩
  simp [byteTarget, targetAt, Nat.not_lt.mpr (window_above_registers h), windowAt_iff.mpr h, busyBit, hi]

end Sys2Proof.Machine
end

