-- ==== Sys2Proof/Laws/Float.lean ====
section
/-! SUPPORT. The arithmetic of R14: rounding depends on the value alone, and sums, differences, halves and products by one of scaled
integers are exact. -/

namespace Sys2Proof.Machine

/-! ### Rounding depends on the value alone -/

theorem log2_mul_two_pow {m : Nat} (h : m ≠ 0) (j : Nat) : Nat.log2 (m * 2 ^ j) = Nat.log2 m + j := by
  have hpos : 0 < 2 ^ j := Nat.two_pow_pos j
  rw [Nat.log2_eq_iff (Nat.mul_ne_zero h hpos.ne')]
  constructor
  · rw [Nat.pow_add]
    exact Nat.mul_le_mul_right _ (Nat.log2_self_le h)
  · rw [Nat.add_right_comm, Nat.pow_add]
    exact Nat.mul_lt_mul_of_pos_right Nat.lt_log2_self hpos

theorem roundShift_scale (m sh j : Nat) : roundShift (m * 2 ^ j) (sh + j) = roundShift m sh := by
  have hpow : 2 ^ (sh + j) = 2 ^ sh * 2 ^ j := Nat.pow_add _ _ _
  have hpos : 0 < 2 ^ j := Nat.two_pow_pos j
  unfold roundShift
  rw [hpow, Nat.mul_div_mul_right _ _ hpos, Nat.mul_mod_mul_right]
  simp only [← Nat.mul_assoc, Nat.mul_lt_mul_right hpos, Nat.mul_left_inj (Nat.pos_iff_ne_zero.mp hpos)]

theorem roundShift_exact (m sh : Nat) : roundShift (m * 2 ^ sh) sh = m := by
  have h := roundShift_scale m 0 sh
  rw [Nat.zero_add] at h
  rw [h]
  simp [roundShift, Nat.mod_one]

/-- The same value with more fraction digits rounds to the same magnitude. -/
theorem roundMagnitude_scale (m j : Nat) (e : Int) : roundMagnitude (m * 2 ^ j) (e - j) = roundMagnitude m e := by
  by_cases hm : m = 0
  · simp [hm, roundMagnitude]
  have hpos : 0 < 2 ^ j := Nat.two_pow_pos j
  have hmj : m * 2 ^ j ≠ 0 := Nat.mul_ne_zero hm (Nat.pos_iff_ne_zero.mp hpos)
  have hq : ulpExp (m * 2 ^ j) (e - j) = ulpExp m e := by
    unfold ulpExp
    rw [log2_mul_two_pow hm]
    congr 1
    push_cast
    ring
  unfold roundMagnitude
  rw [if_neg hmj, if_neg hm, hq]
  generalize ulpExp m e = q
  have hsig : (if q ≤ e - j then m * 2 ^ j * 2 ^ (e - j - q).toNat else roundShift (m * 2 ^ j) (q - (e - j)).toNat)
      = if q ≤ e then m * 2 ^ (e - q).toNat else roundShift m (q - e).toNat := by
    by_cases h1 : q ≤ e - j
    · rw [if_pos h1, if_pos (by omega), Nat.mul_assoc, ← Nat.pow_add]
      congr 2
      omega
    · rw [if_neg h1]
      by_cases h2 : q ≤ e
      · rw [if_pos h2]
        have hj : j = (e - q).toNat + (q - (e - j)).toNat := by omega
        generalize (q - (e - j)).toNat = t at *
        rw [hj, Nat.pow_add, ← Nat.mul_assoc, roundShift_exact]
      · rw [if_neg h2, show (q - (e - j)).toNat = (q - e).toNat + j by omega, roundShift_scale]
  simp only [hsig]

theorem roundPack_scale (n : Bool) (m j : Nat) (e : Int) : roundPack n (m * 2 ^ j) (e - j) = roundPack n m e := by
  unfold roundPack
  rw [roundMagnitude_scale]

/-! ### The fields of an encoding -/

theorem toNat_pack (n : Bool) {mag : Nat} (h : mag < 2 ^ 63) :
    (BitVec.ofBool n ++ BitVec.ofNat 63 mag : F64).toNat = n.toNat * 2 ^ 63 + mag := by
  rw [BitVec.toNat_append, BitVec.toNat_ofNat, Nat.mod_eq_of_lt h, ← Nat.shiftLeft_add_eq_or_of_lt h, Nat.shiftLeft_eq,
    BitVec.toNat_ofBool]

theorem signBit_pack (n : Bool) (mag : Nat) : signBit (BitVec.ofBool n ++ BitVec.ofNat 63 mag : F64) = n := by
  unfold signBit
  rw [BitVec.getLsbD_append]
  simp

theorem expField_pack (n : Bool) {mag : Nat} (h : mag < 2 ^ 63) :
    expField (BitVec.ofBool n ++ BitVec.ofNat 63 mag : F64) = mag / 2 ^ 52 := by
  unfold expField
  rw [BitVec.extractLsb'_toNat, toNat_pack n h, Nat.shiftRight_eq_div_pow]
  cases n <;> simp only [Bool.toNat_true, Bool.toNat_false] <;> omega

theorem fracField_pack (n : Bool) {mag : Nat} (h : mag < 2 ^ 63) :
    fracField (BitVec.ofBool n ++ BitVec.ofNat 63 mag : F64) = mag % 2 ^ 52 := by
  unfold fracField
  rw [BitVec.extractLsb'_toNat, toNat_pack n h, Nat.shiftRight_eq_div_pow]
  cases n <;> simp only [Bool.toNat_true, Bool.toNat_false] <;> omega

/-- A value of at most 53 bits in the middle of the exponent range is packed exactly. -/
theorem unpack_roundPack (n : Bool) {m : Nat} (hm : m < 2 ^ 53) {e : Int} (h1 : -1000 ≤ e) (h2 : e ≤ 900) :
    ∃ (m' : Nat) (e' : Int), unpack (roundPack n m e) = .finite n m' e' ∧ e' ≤ e ∧ m' = m * 2 ^ (e - e').toNat := by
  by_cases h0 : m = 0
  · refine ⟨0, -1074, ?_, by omega, by simp [h0]⟩
    have hz : roundPack n m e = roundPack n 0 0 := by simp [h0, roundPack, roundMagnitude]
    rw [hz]
    cases n <;> decide
  · have hL : 2 ^ Nat.log2 m ≤ m := Nat.log2_self_le h0
    have hL' : m < 2 ^ (Nat.log2 m + 1) := Nat.lt_log2_self
    have hlt : Nat.log2 m < 53 := (Nat.log2_lt h0).mpr hm
    generalize Nat.log2 m = L at hL hL' hlt
    have hq : ulpExp m e = e + L - 52 := by
      unfold ulpExp
      have : Nat.log2 m = L := by
        rw [Nat.log2_eq_iff h0]
        exact ⟨hL, hL'⟩
      rw [this]
      omega
    have hexp : (e - (e + L - 52)).toNat = 52 - L := by omega
    have hlo : 2 ^ 52 ≤ m * 2 ^ (52 - L) := by
      calc 2 ^ 52 = 2 ^ L * 2 ^ (52 - L) := by rw [← Nat.pow_add]; congr 1; omega
        _ ≤ _ := Nat.mul_le_mul_right _ hL
    have hhi : m * 2 ^ (52 - L) < 2 ^ 53 := by
      calc m * 2 ^ (52 - L) < 2 ^ (L + 1) * 2 ^ (52 - L) := Nat.mul_lt_mul_of_pos_right hL' (Nat.two_pow_pos _)
        _ = 2 ^ 53 := by rw [← Nat.pow_add]; congr 1; omega
    refine ⟨m * 2 ^ (52 - L), e + L - 52, ?_, by omega, by rw [hexp]⟩
    have hmag : roundMagnitude m e = (e + L - 52 + 1074).toNat * 2 ^ 52 + m * 2 ^ (52 - L) := by
      unfold roundMagnitude
      rw [if_neg h0, hq]
      simp only []
      rw [if_pos (by omega), hexp, infMagnitude]
      generalize m * 2 ^ (52 - L) = sig at *
      omega
    generalize m * 2 ^ (52 - L) = sig at *
    obtain ⟨x, hx⟩ : ∃ x, (e + L - 52 + 1074).toNat = x := ⟨_, rfl⟩
    rw [hx] at hmag
    have hb : roundMagnitude m e < 2 ^ 63 := by omega
    unfold roundPack unpack
    rw [expField_pack n hb, fracField_pack n hb, signBit_pack, hmag]
    have hE : (x * 2 ^ 52 + sig) / 2 ^ 52 = x + 1 := by omega
    have hF : (x * 2 ^ 52 + sig) % 2 ^ 52 = sig - 2 ^ 52 := by omega
    have hx' : (x : Int) = e + L + 1022 := by omega
    have hs : 2 ^ 52 + (sig - 2 ^ 52) = sig := by omega
    have he : ((x + 1 : Nat) : Int) - 1075 = e + L - 52 := by
      rw [Nat.cast_add, hx']
      ring
    rw [hE, hF, if_neg (by omega), if_neg (by omega), hs, he]

/-! ### Scaled integers -/

/-- The binary64 of `k / 2^20`: every value of the DWT of bytes is one of these (R119). -/
def scaled (k : Int) : F64 := roundPack (decide (k < 0)) k.natAbs (-20)

theorem unpack_scaled {k : Int} (h : k.natAbs < 2 ^ 53) :
    ∃ (m : Nat) (e : Int), unpack (scaled k) = .finite (decide (k < 0)) m e ∧ e ≤ -20 ∧ m = k.natAbs * 2 ^ (-20 - e).toNat :=
  unpack_roundPack _ h (by decide) (by decide)

theorem scaled_zero : scaled 0 = 0 := by decide

theorem signed_scaled (k : Int) (j : Nat) : signed (decide (k < 0)) (k.natAbs * 2 ^ j) = k * 2 ^ j := by
  unfold signed
  by_cases h : k < 0
  · simp only [h, decide_true, if_true]
    push_cast
    rw [abs_of_neg h]
    ring
  · simp only [h, decide_false, Bool.false_eq_true, if_false]
    push_cast
    rw [abs_of_nonneg (not_lt.mp h)]

theorem signed_not (n : Bool) (m : Nat) : signed (!n) m = -signed n m := by
  cases n <;> simp [signed]

/-- An integer over a finer scale, packed. -/
theorem pack_scaled (s : Int) (j : Nat) (e : Int) (he : e = -20 - j) :
    roundPack (decide (s * 2 ^ j < 0)) (s * 2 ^ j).natAbs e = scaled s := by
  have hpos : (0 : Int) < 2 ^ j := by positivity
  have h1 : (s * 2 ^ j).natAbs = s.natAbs * 2 ^ j := by rw [Int.natAbs_mul, Int.natAbs_pow]; rfl
  have h2 : (s * 2 ^ j < 0) ↔ s < 0 := ⟨fun h => by nlinarith, fun h => by nlinarith⟩
  rw [h1, he, roundPack_scale, scaled, decide_eq_decide.mpr h2]

theorem add_scaled (n2 : Bool) {a b : Int} {m1 m2 : Nat} {e1 e2 : Int} (h1 : e1 ≤ -20) (h2 : e2 ≤ -20)
    (hm1 : m1 = a.natAbs * 2 ^ (-20 - e1).toNat)
    (hm2 : signed n2 (m2 * 2 ^ (e2 - min e1 e2).toNat) = b * 2 ^ (-20 - min e1 e2).toNat)
    (hn : a + b = 0 → (decide (a < 0) && n2) = false) :
    addFinite (decide (a < 0)) m1 e1 n2 m2 e2 = scaled (a + b) := by
  have hs1 : signed (decide (a < 0)) (m1 * 2 ^ (e1 - min e1 e2).toNat) = a * 2 ^ (-20 - min e1 e2).toNat := by
    rw [hm1, Nat.mul_assoc, ← Nat.pow_add, signed_scaled]
    congr 2
    omega
  unfold addFinite
  simp only [hs1, hm2]
  rw [← add_mul]
  generalize hj : (-20 - min e1 e2).toNat = j
  have he : min e1 e2 = -20 - (j : Int) := by omega
  by_cases h0 : a + b = 0
  · rw [if_pos (by rw [h0, zero_mul]), hn h0, h0]
    rfl
  · have hne : (a + b) * 2 ^ j ≠ 0 := mul_ne_zero h0 (by positivity)
    rw [if_neg hne, pack_scaled _ j _ he]

/-- Sums of scaled integers are exact while the integers fit the significand. -/
theorem fadd_scaled {a b : Int} (ha : a.natAbs < 2 ^ 53) (hb : b.natAbs < 2 ^ 53) :
    fadd (scaled a) (scaled b) = scaled (a + b) := by
  obtain ⟨m1, e1, u1, h1, hm1⟩ := unpack_scaled ha
  obtain ⟨m2, e2, u2, h2, hm2⟩ := unpack_scaled hb
  unfold fadd
  rw [u1, u2]
  refine add_scaled _ h1 h2 hm1 ?_ ?_
  · rw [hm2, Nat.mul_assoc, ← Nat.pow_add, signed_scaled]
    congr 2
    omega
  · intro h
    by_cases hneg : a < 0
    · have : ¬ b < 0 := by omega
      simp [this]
    · simp [hneg]

/-- Differences of scaled integers are exact while the integers fit the significand. -/
theorem fsub_scaled {a b : Int} (ha : a.natAbs < 2 ^ 53) (hb : b.natAbs < 2 ^ 53) :
    fsub (scaled a) (scaled b) = scaled (a - b) := by
  obtain ⟨m1, e1, u1, h1, hm1⟩ := unpack_scaled ha
  obtain ⟨m2, e2, u2, h2, hm2⟩ := unpack_scaled hb
  unfold fsub
  rw [u1, u2, sub_eq_add_neg]
  refine add_scaled _ h1 h2 hm1 ?_ ?_
  · rw [signed_not, hm2, Nat.mul_assoc, ← Nat.pow_add, signed_scaled, neg_mul]
    congr 3
    omega
  · intro h
    by_cases hneg : a < 0
    · have : b < 0 := by omega
      simp [this]
    · simp [hneg]

/-- Half of an even scaled integer is exact. -/
theorem fmul_half_scaled {a : Int} (ha : (2 * a).natAbs < 2 ^ 53) : fmul (scaled (2 * a)) fhalf = scaled a := by
  obtain ⟨m, e, u, h, hm⟩ := unpack_scaled ha
  have uh : unpack fhalf = .finite false (2 ^ 52) (-53) := by decide
  unfold fmul
  rw [u, uh]
  simp only [Bool.bne_false]
  rw [hm, show (2 * a).natAbs = a.natAbs * 2 by omega, Nat.mul_assoc, Nat.mul_assoc]
  rw [show 2 * (2 ^ (-20 - e).toNat * 2 ^ 52) = 2 ^ ((-20 - e).toNat + 1 + 52) by rw [Nat.pow_add, Nat.pow_succ]; ring]
  rw [show decide (2 * a < 0) = decide (a < 0) from decide_eq_decide.mpr (by omega)]
  rw [show e + (-53 : Int) = -20 - (((-20 - e).toNat + 1 + 52 : Nat) : Int) by omega, roundPack_scale]
  rfl

/-- Multiplying a scaled integer by 1.0 leaves it. -/
theorem fmul_one_scaled {a : Int} (ha : a.natAbs < 2 ^ 53) : fmul (scaled a) fone = scaled a := by
  obtain ⟨m, e, u, h, hm⟩ := unpack_scaled ha
  have uh : unpack fone = .finite false (2 ^ 52) (-52) := by decide
  unfold fmul
  rw [u, uh]
  simp only [Bool.bne_false]
  rw [hm, Nat.mul_assoc, ← Nat.pow_add, show e + (-52 : Int) = -20 - (((-20 - e).toNat + 52 : Nat) : Int) by omega, roundPack_scale]
  rfl

/-- The widening of a byte is a scaled integer (R35). -/
theorem f64OfByte_scaled (b : Byte) : f64OfByte b = scaled (b.toNat * 2 ^ 20) := by
  unfold f64OfByte scaled
  have h : ¬ ((b.toNat : Int) * 2 ^ 20 < 0) := by omega
  have h2 : ((b.toNat : Int) * 2 ^ 20).natAbs = b.toNat * 2 ^ 20 := by omega
  rw [h2, decide_eq_false h]
  exact (roundPack_scale false b.toNat 20 0).symm

/-! ### Zeros -/

/-- A finite encoding is the packing of its value. -/
theorem roundPack_unpack {v : F64} {n : Bool} {m : Nat} {e : Int} (h : unpack v = .finite n m e) : roundPack n m e = v := by
  have hv : v.toNat = (signBit v).toNat * 2 ^ 63 + expField v * 2 ^ 52 + fracField v := by
    unfold signBit expField fracField
    rw [BitVec.extractLsb'_toNat, BitVec.extractLsb'_toNat, ← BitVec.msb_eq_getLsbD_last, BitVec.msb_eq_decide]
    have := v.isLt
    by_cases hs : 2 ^ (64 - 1) ≤ v.toNat
    · simp only [hs, decide_true, Bool.toNat_true, Nat.shiftRight_eq_div_pow]
      omega
    · simp only [hs, decide_false, Bool.toNat_false, Nat.shiftRight_eq_div_pow]
      omega
  have hfrac : fracField v < 2 ^ 52 := BitVec.isLt _
  have hexp : expField v < 2 ^ 11 := BitVec.isLt _
  have pack : ∀ mag, roundMagnitude m e = mag → n = signBit v → mag = expField v * 2 ^ 52 + fracField v → roundPack n m e = v := by
    intro mag h1 h2 h3
    apply BitVec.eq_of_toNat_eq
    unfold roundPack
    rw [h1, toNat_pack n (by omega), hv, h2, h3, Nat.add_assoc]
  unfold unpack at h
  by_cases h1 : expField v = 2047
  · rw [if_pos h1] at h
    by_cases h2 : fracField v = 0
    · rw [if_pos h2] at h; cases h
    · rw [if_neg h2] at h; cases h
  · rw [if_neg h1] at h
    by_cases h0 : expField v = 0
    · rw [if_pos h0] at h
      injection h with hn hm he
      subst hm he
      refine pack _ rfl hn.symm ?_
      by_cases hz : fracField v = 0
      · simp [hz, h0, roundMagnitude]
      · have hL : Nat.log2 (fracField v) < 52 := (Nat.log2_lt hz).mpr hfrac
        have hq : ulpExp (fracField v) (-1074) = -1074 := by unfold ulpExp; omega
        unfold roundMagnitude
        rw [if_neg hz, hq, h0]
        simp only [le_refl, if_true, infMagnitude]
        generalize fracField v = f at *
        simp
        omega
    · rw [if_neg h0] at h
      injection h with hn hm he
      refine pack _ rfl hn.symm ?_
      subst hm he
      generalize fracField v = f at *
      obtain ⟨x, hx⟩ : ∃ x, expField v = x + 1 := ⟨expField v - 1, by omega⟩
      have hL : Nat.log2 (2 ^ 52 + f) = 52 := by
        rw [Nat.log2_eq_iff (by omega)]
        omega
      have hq : ulpExp (2 ^ 52 + f) ((x + 1 : Nat) - 1075 : Int) = (x : Int) - 1074 := by
        unfold ulpExp
        rw [hL]
        omega
      rw [hx]
      unfold roundMagnitude
      rw [if_neg (by omega), hq]
      have e1 : (((x + 1 : Nat) : Int) - 1075 - ((x : Int) - 1074)).toNat = 0 := by omega
      have e2 : ((x : Int) - 1074 + 1074).toNat = x := by omega
      simp only [e1, e2, infMagnitude]
      rw [if_pos (by omega)]
      omega

theorem unpack_zeros {v : F64} (h : v = 0x0000000000000000 ∨ v = 0x8000000000000000) :
    ∃ n, unpack v = .finite n 0 (-1074) := by
  rcases h with rfl | rfl
  · exact ⟨false, by decide⟩
  · exact ⟨true, by decide⟩

theorem zeros_of_pack (n : Bool) (e : Int) :
    roundPack n 0 e = 0x0000000000000000 ∨ roundPack n 0 e = 0x8000000000000000 := by
  have hz : roundPack n 0 e = roundPack n 0 0 := by simp [roundPack, roundMagnitude]
  rw [hz]
  cases n
  · exact .inl (by decide)
  · exact .inr (by decide)

/-- A zero of either sign times a finite value is a zero of either sign. -/
theorem fmul_zeros_left {a b : F64} (ha : a = 0x0000000000000000 ∨ a = 0x8000000000000000) {n : Bool} {m : Nat} {e : Int}
    (hb : unpack b = .finite n m e) : fmul a b = 0x0000000000000000 ∨ fmul a b = 0x8000000000000000 := by
  obtain ⟨k, hk⟩ := unpack_zeros ha
  unfold fmul
  rw [hk, hb]
  simp only [Nat.zero_mul]
  exact zeros_of_pack _ _

theorem fmul_zeros_right {a b : F64} (hb : b = 0x0000000000000000 ∨ b = 0x8000000000000000) {n : Bool} {m : Nat} {e : Int}
    (ha : unpack a = .finite n m e) : fmul a b = 0x0000000000000000 ∨ fmul a b = 0x8000000000000000 := by
  obtain ⟨k, hk⟩ := unpack_zeros hb
  unfold fmul
  rw [hk, ha]
  simp only [Nat.mul_zero]
  exact zeros_of_pack _ _

/-- Adding a zero of either sign leaves a finite value that is not the negative zero. -/
theorem fadd_zeros_right {a b : F64} (hb : b = 0x0000000000000000 ∨ b = 0x8000000000000000) {n : Bool} {m : Nat} {e : Int}
    (ha : unpack a = .finite n m e) (h : m ≠ 0 ∨ n = false) : fadd a b = a := by
  obtain ⟨k, hk⟩ := unpack_zeros hb
  have hp := roundPack_unpack ha
  unfold fadd
  rw [hk, ha]
  simp only [addVals, addFinite, Nat.zero_mul]
  have h0 : signed k 0 = 0 := by cases k <;> rfl
  rw [h0, add_zero]
  generalize hj : (e - min e (-1074)).toNat = j
  have he : min e (-1074) = e - j := by omega
  have hpos : 0 < 2 ^ j := Nat.two_pow_pos j
  by_cases hm : m = 0
  · have hn : n = false := h.resolve_left (fun hc => hc hm)
    subst hm hn
    rw [if_pos (by simp [signed])]
    rw [← hp]
    simp [roundPack, roundMagnitude]
  · have hmj : m * 2 ^ j ≠ 0 := Nat.mul_ne_zero hm hpos.ne'
    generalize hM : m * 2 ^ j = M at *
    have hs : signed n M ≠ 0 := by cases n <;> simp only [signed, Bool.false_eq_true, if_true, if_false] <;> omega
    have hneg : decide (signed n M < 0) = n := by
      cases n <;> simp only [signed, Bool.false_eq_true, if_true, if_false, decide_eq_true_eq, decide_eq_false_iff_not] <;> omega
    have habs : (signed n M).natAbs = M := by cases n <;> simp only [signed, Bool.false_eq_true, if_true, if_false] <;> omega
    rw [if_neg hs, hneg, habs, he, ← hM, roundPack_scale, hp]

end Sys2Proof.Machine
end

