-- ==== Sys2Proof/Laws/PerInstr.lean ====
section
/-! SUPPORT. Facts about every command as a term, one lemma per constructor. -/

namespace Sys2Proof.Laws

/-- The fields of the word a command encodes to: its opcode, its mask and RSV = 0 (R70, R81). -/
def EncodedFields.Statement (i : Instr) : Prop :=
  opcField (encode i) = i.opc ∧ chField (encode i) = i.chBits ∧ rsvField (encode i) = 0

theorem EncodedFields.nop : EncodedFields.Statement .nop := ⟨opcField_encode _, chField_encode _, rsvField_encode _⟩

theorem EncodedFields.basisgen : EncodedFields.Statement .basisgen := ⟨opcField_encode _, chField_encode _, rsvField_encode _⟩

theorem EncodedFields.dctf (m : ChanMask) : EncodedFields.Statement (.dctf m) :=
  ⟨opcField_encode _, chField_encode _, rsvField_encode _⟩

theorem EncodedFields.zzsel (m : ChanMask) : EncodedFields.Statement (.zzsel m) :=
  ⟨opcField_encode _, chField_encode _, rsvField_encode _⟩

theorem EncodedFields.dcti (m : ChanMask) : EncodedFields.Statement (.dcti m) :=
  ⟨opcField_encode _, chField_encode _, rsvField_encode _⟩

theorem EncodedFields.dwtf (m : ChanMask) : EncodedFields.Statement (.dwtf m) :=
  ⟨opcField_encode _, chField_encode _, rsvField_encode _⟩

theorem EncodedFields.dwtselr (m : ChanMask) : EncodedFields.Statement (.dwtselr m) :=
  ⟨opcField_encode _, chField_encode _, rsvField_encode _⟩

theorem EncodedFields.dwtselb (m : ChanMask) : EncodedFields.Statement (.dwtselb m) :=
  ⟨opcField_encode _, chField_encode _, rsvField_encode _⟩

theorem EncodedFields.dwti (m : ChanMask) : EncodedFields.Statement (.dwti m) :=
  ⟨opcField_encode _, chField_encode _, rsvField_encode _⟩

theorem EncodedFields.asm : EncodedFields.Statement .asm := ⟨opcField_encode _, chField_encode _, rsvField_encode _⟩

end Sys2Proof.Laws
end

