-- ==== Sys2Proof/Tests/Slice0.lean ====
section
/-! SUPPORT. Tests on small states. Expected values are the spec's own: 95_test_vectors.md and the examples of the rules, named at each
test. Then a witness for the hypotheses of every statement that has some. -/

open Sys2Proof Sys2Proof.Machine Sys2Proof.Claims

namespace Sys2Proof.Tests

set_option maxRecDepth 100000
set_option Elab.async false

/-! ### Small states -/

/-- N = 8, the basis divisor 4, and the raster table of V-SELB-4 (a test's table, not the hardware's). -/
def params8 : Params := ⟨0, .four, Vector.ofFn fun k => (⟨(k.val + 1) / 8 % 8, by omega⟩, ⟨(k.val + 1) % 8, by omega⟩)⟩

def idle8 (mem : Memory) (host : List HostEvent) : State :=
  { State.afterReset params8 0 0 host with mem := mem }

def busy8 (i : Instr) (budget : Word) (mem : Memory) : State :=
  { idle8 mem [] with phase := .busy, curCmd := encode i, lastCmd := encode i, curBudget := budget }

def after (i : Instr) (s : State) : State :=
  match exec i s with
  | .next t => t
  | _ => s

def stepped (s : State) : State :=
  match step s with
  | .next t => t
  | _ => s

def red : ChanMask := ⟨true, false, false⟩

def rgb : ChanMask := ⟨true, true, true⟩

def empty : ChanMask := ⟨false, false, false⟩

/-- IN[R][p] = f p. -/
def inputRed (f : Nat → Nat) : Memory := cellsFrom 0x01000000 ((List.range 64).map fun p => BitVec.ofNat 8 (f p))

/-- U and V filled. -/
def basisCells : Memory := cellsFrom 0x03000000 (basisBytes params8 ++ basisBytes params8)

/-- A plane of channel R, element [r][c] = f r c, in the window at `a`. -/
def planeCells (a : Nat) (f : Nat → Nat → F64) : Memory := cellsFrom a (planeBytes 8 (tabulate 8 f))

/-! ### Decoding: words written out from R70 and R73 -/

/-- RSV, CH and OPC side by side (R70). -/
def word (rsv : BitVec 21) (ch : BitVec 3) (opc : BitVec 8) : Word := rsv ++ ch ++ opc

theorem test_decode_nop : decode (word 0 0b000 0b00000000) = .ok .nop := by decide
theorem test_decode_basisgen : decode (word 0 0b000 0b00000001) = .ok .basisgen := by decide
theorem test_decode_dctf_rgb : decode (word 0 0b111 0b00010000) = .ok (.dctf ⟨true, true, true⟩) := by decide
theorem test_decode_zzsel_r : decode (word 0 0b001 0b00010001) = .ok (.zzsel ⟨true, false, false⟩) := by decide
theorem test_decode_dcti_b : decode (word 0 0b100 0b00010010) = .ok (.dcti ⟨false, false, true⟩) := by decide
theorem test_decode_dwtf_g : decode (word 0 0b010 0b00100000) = .ok (.dwtf ⟨false, true, false⟩) := by decide
theorem test_decode_dwtselr_rb : decode (word 0 0b101 0b00100001) = .ok (.dwtselr ⟨true, false, true⟩) := by decide
theorem test_decode_dwtselb_gb : decode (word 0 0b110 0b00100010) = .ok (.dwtselb ⟨false, true, true⟩) := by decide
theorem test_decode_dwti_rg : decode (word 0 0b011 0b00100011) = .ok (.dwti ⟨true, true, false⟩) := by decide
theorem test_decode_asm : decode (word 0 0b000 0b00110000) = .ok .asm := by decide
theorem test_decode_unassigned : decode (word 1 0b111 0b00110001) = .error .illegal := by decide
theorem test_decode_reserved : decode (word 1 0b111 0b00010000) = .error .reserved := by decide
theorem test_decode_asm_with_channel : decode (word 0 0b001 0b00110000) = .error .reserved := by decide
theorem test_decodeTableWord : decodeTableWord 32 0x00000622 = some (.dwtselb ⟨false, true, true⟩) := by decide

/-! ### WellFormed: a channel command without a channel is refused (R81) -/

theorem test_illFormed_dctf : (Instr.dctf empty).wellFormed = false := by decide
theorem test_illFormed_zzsel : (Instr.zzsel empty).wellFormed = false := by decide
theorem test_illFormed_dcti : (Instr.dcti empty).wellFormed = false := by decide
theorem test_illFormed_dwtf : (Instr.dwtf empty).wellFormed = false := by decide
theorem test_illFormed_dwtselr : (Instr.dwtselr empty).wellFormed = false := by decide
theorem test_illFormed_dwtselb : (Instr.dwtselb empty).wellFormed = false := by decide
theorem test_illFormed_dwti : (Instr.dwti empty).wellFormed = false := by decide
theorem test_wellFormed_plain : Instr.nop.wellFormed = true ∧ Instr.basisgen.wellFormed = true ∧ Instr.asm.wellFormed = true := by decide

/-! ### One completion each -/

/-- R85: ERR = 0 and IRQ_PEND = 1. -/
theorem test_nop : errWord (after .nop (busy8 .nop 0 [])) = 0x00000000 ∧ irqWord (after .nop (busy8 .nop 0 [])).irqPend = 0x00000001 := by
  decide

/-- R88: BASIS offset 0x40 reads 0xA3D12526, offset 0x44 reads 0x3FEFD88D. -/
theorem test_basisgen :
    readWord (after .basisgen (busy8 .basisgen 0 [])) 0x03000040 = 0xA3D12526
      ∧ readWord (after .basisgen (busy8 .basisgen 0 [])) 0x03000044 = 0x3FEFD88D := by decide +kernel

/-- R95, V-DCT-1: a tile of 255 gives 0x409FE00000000002 at [0][0]. The last bits of [0][1], 1839.5989578589047, and of [1][0],
1839.5989578589056, differ: they show the order of the sum of R94. -/
theorem test_dctf :
    let t := after (.dctf red) (busy8 (.dctf red) 0 (inputRed (fun _ => 255) ++ basisCells))
    readF64 t 0x04000000 = 0x409FE00000000002 ∧ readF64 t 0x04000008 = 0x409CBE6555357EB6 ∧ readF64 t 0x04000040 = 0x409CBE6555357EBA := by
  decide +kernel

/-- R105, R107: at N = 8 and n = 3 the positions (0, 0), (0, 1), (1, 0) are kept, and (1, 1) is +0.0. -/
theorem test_zzsel :
    let t := after (.zzsel red) (busy8 (.zzsel red) 3 (planeCells 0x04000000 fun _ _ => 0x4024000000000000))
    readF64 t 0x06000008 = 0x4024000000000000 ∧ readF64 t 0x06000040 = 0x4024000000000000 ∧ readF64 t 0x06000048 = 0 := by
  decide +kernel

/-- FREQ of the checkerboard of V-DCT-6, computed outside Lean from R94 and R90 in IEEE double arithmetic; its [0][0], [1][1] and
[7][7] and its 43 non-zero coefficients are those of V-DCT-6. -/
def checkerboardFreq : Plane :=
  [[0x408FE00000000002, 0x0000000000000000, 0x0000000000000000, 0x0000000000000000, 0x0000000000000000, 0x0000000000000000, 0x0000000000000000, 0xBD0974B2334F2347]]
    ++ [[0x3D06A09E667F3BCD, 0x4040916E0806D734, 0x0000000000000000, 0x40438B1B8ACEB028, 0x0000000000000000, 0x404D3FADFD414545, 0x3D08000000000000, 0x4064D2C6E2B3AC0A]]
    ++ [[0xBD06A09E667F3BCD, 0x3D00000000000000, 0x0000000000000000, 0x3D00000000000000, 0x0000000000000000, 0xBD00000000000000, 0x3CF0000000000000, 0xBD1A000000000000]]
    ++ [[0x3D06A09E667F3BCD, 0x40438B1B8ACEB029, 0x0000000000000000, 0x40470D915A4BD305, 0x0000000000000000, 0x40514029015F5D5B, 0xBD00000000000000, 0x4068901480AFAEAC]]
    ++ [[0x3D06A09E667F3BCD, 0x0000000000000000, 0x0000000000000000, 0x0000000000000000, 0x0000000000000000, 0xBD00000000000000, 0x0000000000000000, 0xBD00000000000000]]
    ++ [[0x3D06A09E667F3BCD, 0x404D3FADFD414547, 0x3D00000000000000, 0x40514029015F5D5B, 0x0000000000000000, 0x4059D1403277243C, 0x3D12000000000000, 0x407261637159D606]]
    ++ [[0xBCF6A09E667F3BCD, 0xBD08000000000000, 0x0000000000000000, 0xBD08000000000000, 0x0000000000000000, 0x3D24000000000000, 0x3CE0000000000000, 0xBD19000000000000]]
    ++ [[0xBCE6A09E667F3BCD, 0x4064D2C6E2B3AC0A, 0x3CF8000000000000, 0x4068901480AFAEAE, 0x0000000000000000, 0x407261637159D604, 0xBCFC000000000000, 0x408A2BE8038BF0D4]]

/-- V-DCT-6: position (2, 0) comes back as 254.99999999999994, and (0, 2) as exactly 255.0. The sum of R97 in the other order gives the two
values the other way round. -/
theorem test_dcti_tile :
    dctInverseTile checkerboardFreq.at basisTable2 basisTable2 2 0 = 0x406FDFFFFFFFFFFE
      ∧ dctInverseTile checkerboardFreq.at basisTable2 basisTable2 0 2 = 0x406FE00000000000 := by
  decide +kernel

/-- R42, P5: DCTI R turns STATUS 0x0000034A into 0x0000834A. -/
theorem test_dcti_flags :
    let f : StatusFlags := ⟨true, false, ⟨.dct, .dwt, .dwt⟩, ⟨.dct, .none, .none⟩, ⟨false, false, false⟩⟩
    statusWord { idle8 [] [] with flags := f } = 0x0000034A
      ∧ statusWord (after (.dcti red) { busy8 (.dcti red) 0 [] with flags := f }) = 0x0000834A := by decide +kernel

/-- V-DWT-2, FREQ[R] for IN[R][p] = 4·p: 126.0, -8.0 and -64.0. -/
theorem test_dwtf :
    let t := after (.dwtf red) (busy8 (.dwtf red) 0 (inputRed fun p => 4 * p))
    readF64 t 0x04000000 = 0x405F800000000000 ∧ readF64 t 0x04000008 = 0xC020000000000000
      ∧ readF64 t 0x04000040 = 0xC050000000000000 := by decide +kernel

/-- V-SELR-1: n = 9 gives d = 3, so (2, 2) is kept and (3, 2) is not. -/
theorem test_dwtselr :
    let t := after (.dwtselr red) (busy8 (.dwtselr red) 9 (planeCells 0x04000000 fun _ _ => 0xC050000000000000))
    readF64 t 0x06000090 = 0xC050000000000000 ∧ readF64 t 0x060000D0 = 0 := by decide +kernel

/-- V-SELB-4: with the raster table, n = 9 keeps row 0 and (1, 0), and not (1, 1). -/
theorem test_dwtselb :
    let t := after (.dwtselb red) (busy8 (.dwtselb red) 9 (planeCells 0x04000000 fun _ _ => 0xC050000000000000))
    readF64 t 0x06000038 = 0xC050000000000000 ∧ readF64 t 0x06000040 = 0xC050000000000000 ∧ readF64 t 0x06000048 = 0 := by
  decide +kernel

/-- The four coefficients of V-SELR-2 for channel R, the others +0.0. -/
def selected2 (r c : Nat) : F64 :=
  match r, c with
  | 0, 0 => 0x405F800000000000
  | 0, 1 => 0xC020000000000000
  | 1, 0 => 0xC050000000000000
  | _, _ => 0

/-- V-SELR-2: 54.0 top-left, 198.0 bottom-right. -/
theorem test_dwti :
    let t := after (.dwti red) (busy8 (.dwti red) 0 (planeCells 0x06000000 selected2))
    readF64 t 0x08000000 = 0x404B000000000000 ∧ readF64 t 0x080001F8 = 0x4068C00000000000 := by decide +kernel

/-- R138: REC 126.00000000000006, 223.5000000000001, 121.50000000000006 give the bytes 0x7E, 0xDF, 0x79. -/
theorem test_asm :
    let t := after .asm (busy8 .asm 0
      (planeCells 0x08000000 (fun _ _ => 0x405F800000000004) ++ planeCells 0x08000200 (fun _ _ => 0x406BF00000000004)
        ++ planeCells 0x08000400 (fun _ _ => 0x405E600000000004)))
    readByte t 0x020000BD = 0x7E ∧ readByte t 0x020000BE = 0xDF ∧ readByte t 0x020000BF = 0x79 := by decide +kernel

/-! ### Issue, errors and the host's side -/

/-- R163, R162: DCTF before BASISGEN is turned away: ERR = 0x00001004, IRQ_PEND = 2. -/
theorem test_dctf_without_basis :
    let t := stepped (idle8 [] [.write32 0x00000008 0x00000710])
    errWord t = 0x00001004 ∧ irqWord t.irqPend = 0x00000002 ∧ t.lastCmd = 0x00000710 ∧ statusWord t = 0 := by decide

/-- R143: ASM before any reconstruction gives ERR = 0x00003006. -/
theorem test_asm_not_ready : errWord (stepped (idle8 [] [.write32 0x00000008 0x00000030])) = 0x00003006 := by decide

/-- P4, schedule A: an ASM word written while DWTF R runs sets OVR: the ERR of the rejected word 0x00000130 before it stays. -/
theorem test_overrun :
    let s := { busy8 (.dwtf red) 0 [] with host := [.write32 0x00000008 0x00000030], delay := 3, err := ⟨some .reserved, 0x30, false, false⟩ }
    errWord (stepped s) = 0x00013002 ∧ (stepped s).lastCmd = 0x00000120 ∧ statusWord (stepped s) = 0x00000001 := by decide

/-- R59, R58: a window read while BUSY returns 0 and records its address. -/
theorem test_window_while_busy :
    let s := { busy8 (.dwtf red) 0 [] with host := [.read32 0x01000000], delay := 3 }
    (stepped s).response = .word 0 ∧ (stepped s).accAddr = 0x01000000 ∧ (stepped s).err.acc = true := by decide

/-- R48, R61: a word written to IN stores its least significant byte first. -/
theorem test_input_write :
    readByte (stepped (idle8 [] [.write32 0x01000000 0x44332211])) 0x01000001 = 0x22 := by decide

/-- R22: PARAM at the defaults. -/
theorem test_param : paramWord Params.default = 0x00000439 := by decide

/-- R136: 254.99999999999994 truncates to 254, 0.49 to 0, and 300.0 clamps to 255. -/
theorem test_truncation :
    trunc8 (clamp255 0x406FDFFFFFFFFFFE) = 0xFE ∧ trunc8 (clamp255 0x3FDF5C28F5C28F5C) = 0x00
      ∧ trunc8 (clamp255 0x4072C00000000000) = 0xFF := by decide +kernel

/-- The host's placement: the very next step runs the placed word (log 16). -/
theorem test_withFetchWord : (stepped (State.reset.withFetchWord 32 0x00000001)).curCmd = 0x00000001 := by decide

/-! ### Witnesses: a state and operands that meet all the hypotheses of a statement together -/

theorem witness_EncodeOfDecode : decode 0x00000622 = .ok (.dwtselb ⟨false, true, true⟩) := by decide

theorem witness_DecoderRejectsExactly : decode 0xFFFFFFFF = .error .illegal ∧ decode 0x80000000 = .error .reserved := by decide

/-- The completion is due because its delay has passed, and because no host event is left. -/
theorem witness_StepCompletesRunningCommand_delay :
    let s := { busy8 (.dwtf red) 0 [] with host := [.read32 0] }
    s.phase = .busy ∧ (s.delay = 0 ∨ s.host = []) ∧ decode s.curCmd = .ok (.dwtf red) := by decide

theorem witness_StepCompletesRunningCommand_host :
    let s := { busy8 .asm 0 [] with delay := 5 }
    s.phase = .busy ∧ (s.delay = 0 ∨ s.host = []) ∧ decode s.curCmd = .ok .asm := by decide

theorem witness_StepIssuesWrittenCommand :
    let s := idle8 [] [.write32 0x00000008 0x00000710, .reset]
    s.phase = .idle ∧ s.host = .write32 0x00000008 0x00000710 :: [.reset] ∧ decode 0x00000710 = .ok (.dctf rgb) := by decide

/-- An unassigned opcode with every other check failing too, and the greatest opcode. -/
theorem witness_CmdWriteFollowsTheChecks_illegal :
    (idle8 [] []).phase = .idle ∧ firstFailing 0xFFFFFF02 (idle8 [] []) .illegal ∧ firstFailing 0x000000FF (idle8 [] []) .illegal := by
  refine ⟨rfl, ⟨by unfold fails; decide, fun e' h => ?_⟩, ⟨by unfold fails; decide, fun e' h => ?_⟩⟩ <;>
    cases e' <;> exact absurd h (by decide)

/-- The lowest and the highest RSV bit, and a CH bit on ASM. -/
theorem witness_CmdWriteFollowsTheChecks_reserved :
    firstFailing 0x00000810 (idle8 [] []) .reserved ∧ firstFailing 0x80000000 (idle8 [] []) .reserved
      ∧ firstFailing 0x00000130 (idle8 [] []) .reserved := by
  refine ⟨⟨by unfold fails; decide, fun e' h => ?_⟩, ⟨by unfold fails; decide, fun e' h => ?_⟩,
    ⟨by unfold fails; decide, fun e' h => ?_⟩⟩ <;>
    cases e' <;> first | exact absurd h (by decide) | (unfold fails; decide)

theorem witness_CmdWriteFollowsTheChecks_noChan : firstFailing 0x00000010 (idle8 [] []) .noChan := by
  refine ⟨by unfold fails; decide, fun e' h => ?_⟩
  cases e' <;> first | exact absurd h (by decide) | (unfold fails; decide)

theorem witness_CmdWriteFollowsTheChecks_noBasis :
    firstFailing 0x00000112 (idle8 [] []) .noBasis := by
  refine ⟨by unfold fails; decide, fun e' h => ?_⟩
  cases e' <;> first | exact absurd h (by decide) | (unfold fails; decide)

/-- The blue channel alone fails. -/
theorem witness_CmdWriteFollowsTheChecks_kind :
    firstFailing 0x00000421 (idle8 [] []) .kind := by
  refine ⟨⟨.blue, by decide, by decide⟩, fun e' h => ?_⟩
  cases e' <;> first | exact absurd h (by decide) | (unfold fails; decide)

theorem witness_CmdWriteFollowsTheChecks_notReady :
    firstFailing 0x00000030 (idle8 [] []) .notReady := by
  refine ⟨⟨by decide, .red, by decide⟩, fun e' h => ?_⟩
  cases e' with
  | illegal => unfold fails; decide
  | reserved => unfold fails; decide
  | noChan => unfold fails; decide
  | noBasis => unfold fails; decide
  | kind =>
    rintro ⟨ch, _, h2⟩
    cases ch <;> revert h2 <;> decide
  | notReady => exact absurd h (by decide)

theorem witness_CmdWriteFollowsTheChecks_accepted : ∀ e, ¬ fails 0x00000720 (idle8 [] []) e := by
  intro e
  cases e with
  | illegal => unfold fails; decide
  | reserved => unfold fails; decide
  | noChan => unfold fails; decide
  | noBasis => unfold fails; decide
  | kind =>
    rintro ⟨ch, _, h2⟩
    cases ch <;> revert h2 <;> decide
  | notReady => rintro ⟨h1, _⟩; revert h1; decide

theorem witness_AcceptanceChangesNothingElse :
    (idle8 [] []).phase = .idle ∧ check (.dwtf rgb) (idle8 [] []) = none := by decide

theorem witness_RejectionIsPrecise :
    (idle8 [] []).phase = .idle ∧ decode 0x00000002 = .error .illegal
      ∧ decode 0x00000020 = .ok (.dwtf empty) ∧ check (.dwtf empty) (idle8 [] []) = some .noChan := by decide

/-- For `OverrunDropsTheWord` and for the ten completion statements, each with its own command running, and with an element at the
last row and column of a masked channel. -/
theorem witness_Completions :
    (busy8 .nop 0 []).phase = .busy ∧ (busy8 (.dctf rgb) 0 []).phase = .busy
      ∧ rgb.has .blue = true ∧ 7 < side (busy8 .nop 0 []).params := by decide

theorem witness_ForwardLevelFormula : 2 * 4 ≤ 8 ∧ 3 < 4 ∧ 2 * 2 ≤ 8 ∧ 1 < 2 ∧ 7 < 8 ∧ 2 * 2 ≤ 4 := by decide

theorem witness_InverseLevelFormula : 2 * 4 ≤ 8 ∧ 3 < 4 ∧ 2 * 1 ≤ 8 ∧ 0 < 1 ∧ 7 < 8 ∧ 2 * 1 ≤ 2 := by decide

theorem witness_ConstantPlaneTransformsToItsMean : 7 < side params8 ∧ 511 < side Params.default := by decide

/-- The raster table lists every macro-block. -/
theorem params8_lists_all : ∀ e : BlockPos, e ∈ mbPriority params8 := by decide +kernel

theorem completes_of (i : Instr) (s : State) (n : Word) : exec i (running s n) = .next (finish (effectOf i (running s n))) :=
  exec_busy rfl i

/-- Both selectors, each at the least budget that keeps everything. -/
theorem witness_DwtRoundTripIsExact :
    ∃ (s t₁ t₂ t₃ u₂ u₃ : State), exec (.dwtf rgb) (running s 0) = .next t₁
      ∧ (exec (.dwtselr rgb) (running t₁ 64) = .next t₂ ∧ side s.params * side s.params ≤ (64 : Word).toNat)
      ∧ exec (.dwti rgb) (running t₂ 0) = .next t₃
      ∧ (exec (.dwtselb rgb) (running t₁ 64) = .next u₂
        ∧ min (rhu (64 : Word).toNat ((side s.params / 8) * (side s.params / 8))) 64 = 64 ∧ ∀ e : BlockPos, e ∈ mbPriority s.params)
      ∧ exec (.dwti rgb) (running u₂ 0) = .next u₃
      ∧ rgb.has .blue = true ∧ 7 < side s.params :=
  ⟨idle8 [] [], _, _, _, _, _, completes_of _ _ _, ⟨completes_of _ _ _, by decide⟩, completes_of _ _ _,
    ⟨completes_of _ _ _, by decide, params8_lists_all⟩, completes_of _ _ _, by decide, by decide⟩

theorem witness_RhuRoundsHalfUp : 0 < 1 ∧ 0 < 4096 := by decide

theorem witness_LargerBudgetKeepsMore : (0 : Word).toNat ≤ (0xFFFFFFFF : Word).toNat ∧ (63 : Word).toNat ≤ (64 : Word).toNat := by decide

theorem witness_TruncationThresholds : (busy8 .nop 63 []).curBudget.toNat < side params8 * side params8 := by decide

theorem witness_ZzselAtZeroBudgetWritesZeros :
    ∃ (s t : State), exec (.zzsel rgb) (running s 0) = .next t ∧ rgb.has .red = true ∧ 7 < side s.params :=
  ⟨idle8 [] [], _, completes_of _ _ _, by decide, by decide⟩

theorem witness_DwtSelectorsAtZeroBudgetWriteZeros :
    ∃ (s t u t' u' : State), exec (.dwtselr rgb) (running s 0) = .next t ∧ exec (.dwti rgb) (running t 0) = .next u
      ∧ exec (.dwtselb rgb) (running s 0) = .next t' ∧ exec (.dwti rgb) (running t' 0) = .next u'
      ∧ rgb.has .red = true ∧ 7 < side s.params :=
  ⟨idle8 [] [], _, _, _, _, completes_of _ _ _, completes_of _ _ _, completes_of _ _ _, completes_of _ _ _, by decide, by decide⟩

/-- The state after BASISGEN on any memory. -/
theorem basisHeld_after (s : State) : basisHeld (finish (effectOf .basisgen s)) :=
  fun _ _ hk hi => ⟨basisgen_U s hk hi, basisgen_V s hk hi⟩

/-- A SEL tile of both zeros: +0.0 on even columns, -0.0 on odd ones. -/
def zeroTile (_ c : Nat) : F64 := if c % 2 = 0 then 0 else 0x8000000000000000

theorem basisHeld_running {s : State} (h : basisHeld s) (n : Word) : basisHeld (running s n) :=
  fun k i hk hi => h k i hk hi

/-- BASISGEN has run, SEL[R] holds that tile, and a command is running. -/
def zeroState : State := running (finish (effectOf .basisgen (idle8 (planeCells 0x06000000 zeroTile) []))) 0

theorem zeroState_basis : basisHeld zeroState := basisHeld_running (basisHeld_after _) 0

theorem zeroState_tile (x y : Fin 8) : isZero (element zeroState .sel .red (8 * 0 + x.val) (8 * 0 + y.val)) := by
  have hidx : (8 * 0 + x.val) * 8 + (8 * 0 + y.val) < 8 * 8 := by omega
  have h : element zeroState .sel .red (8 * 0 + x.val) (8 * 0 + y.val)
      = readF64 (idle8 (planeCells 0x06000000 zeroTile) []) (elemAddr params8 .sel .red ((8 * 0 + x.val) * 8 + (8 * 0 + y.val))) :=
    readF64_congr fun j hj => basisgen_outside (by
      have h2 := elem_in_window (p := params8) (w := .sel) rfl .red hidx hj
      rw [Bool.eq_false_iff]
      exact fun hc => absurd (window_unique h2 hc) (by decide))
  rw [h]
  clear h hidx
  revert x y
  unfold isZero
  decide +kernel

theorem witness_ZeroTileReconstructsToZero :
    ∃ t : State, zeroState.phase = .busy ∧ basisHeld zeroState ∧ exec (.dcti red) zeroState = .next t ∧ red.has .red = true
      ∧ 8 * 0 + 7 < side zeroState.params
      ∧ ∀ u v, u < 8 → v < 8 → isZero (element zeroState .sel .red (8 * 0 + u) (8 * 0 + v)) :=
  ⟨_, rfl, zeroState_basis, exec_busy rfl _, rfl, by decide, fun u v hu hv => zeroState_tile ⟨u, hu⟩ ⟨v, hv⟩⟩

theorem witness_DctAtOneCoefficientShowsTileMeans :
    ∃ (s t₁ t₂ t₃ : State), basisHeld s ∧ min (rhu (1 : Word).toNat (side s.params * side s.params / 64)) 64 = 1
      ∧ exec (.dctf rgb) (running s 0) = .next t₁ ∧ exec (.zzsel rgb) (running t₁ 1) = .next t₂
      ∧ exec (.dcti rgb) (running t₂ 0) = .next t₃ ∧ rgb.has .green = true ∧ 7 < side s.params :=
  ⟨finish (effectOf .basisgen (idle8 [] [])), _, _, _, basisHeld_after _, by decide, completes_of _ _ _, completes_of _ _ _,
    completes_of _ _ _, by decide, by decide⟩

/-- 255.0 and the least positive value are in range, the next value after 255.0 is above, both zeros are below. -/
theorem witness_ClampLandsInRange :
    fgt 0x406FE00000000000 0 = true ∧ fgt 0x406FE00000000000 0x406FE00000000000 = false ∧ fgt 0x0000000000000001 0 = true
      ∧ fgt 0x406FE00000000001 0x406FE00000000000 = true ∧ fgt 0 0 = false ∧ fgt 0x8000000000000000 0 = false := by decide

theorem witness_TruncationIsTheFloor :
    (isNaN 0x406FE00000000000 = false ∧ fgt 0 0x406FE00000000000 = false ∧ fgt 0x406FE00000000000 0x406FE00000000000 = false)
      ∧ (isNaN 0x8000000000000000 = false ∧ fgt 0 0x8000000000000000 = false ∧ fgt 0x8000000000000000 0x406FE00000000000 = false
        ∧ trunc8 0x8000000000000000 ≠ 255)
      ∧ (isNaN 0x406FDFFFFFFFFFFE = false ∧ fgt 0 0x406FDFFFFFFFFFFE = false ∧ fgt 0x406FDFFFFFFFFFFE 0x406FE00000000000 = false
        ∧ trunc8 0x406FDFFFFFFFFFFE ≠ 255) := by decide +kernel

/-- A misaligned register read, a byte read of a register, a write to STATUS, a byte write to OUT. -/
theorem witness_AccessErrorsRecordAndChangeNothingElse :
    ¬ wordReadLegal (idle8 [] []) (0x00000001 : Word).toNat ∧ ¬ byteReadLegal (idle8 [] []) (0x00000000 : Word).toNat
      ∧ ¬ wordWriteLegal (idle8 [] []) (0x0000000C : Word).toNat ∧ ¬ byteWriteLegal (idle8 [] []) (0x02000000 : Word).toNat := by
  refine ⟨fun h => absurd h.1 (by decide), fun h => ?_, fun h => ?_, fun h => ?_⟩
  · rcases h.2 with h | h <;> exact absurd h.1 (by decide)
  · rcases h.2 with h | h
    · exact absurd (Or.inl (by decide)) h.2
    · exact absurd h.2.1 (by decide)
  · exact absurd h.2.2 (by decide)

/-- The last MBPRIO register, the last word of REC, the last byte of OUT. -/
theorem witness_LegalReadsHaveNoSideEffect :
    (wordReadLegal (idle8 [] []) (0x000001FC : Word).toNat ∧ (0x000001FC : Word).toNat < 0x1000)
      ∧ (wordReadLegal (idle8 [] []) (0x080005FC : Word).toNat ∧ 0x1000 ≤ (0x080005FC : Word).toNat)
      ∧ byteReadLegal (idle8 [] []) (0x020000BF : Word).toNat :=
  ⟨⟨⟨by decide, .inl (.inr (by decide))⟩, by decide⟩,
    ⟨⟨by decide, .inr ⟨rfl, .recon, by decide, by decide⟩⟩, by decide⟩, ⟨rfl, .inr ⟨by decide, by decide⟩⟩⟩

/-- The last word and the last byte of IN. -/
theorem witness_InputWritesStoreTheirBytes :
    (idle8 [] []).phase = .idle ∧ inWindow params8 .input (0x010000BC : Word).toNat ∧ (0x010000BC : Word).toNat % 4 = 0
      ∧ inWindow params8 .input (0x010000BF : Word).toNat :=
  ⟨rfl, ⟨by decide, by decide⟩, by decide, ⟨by decide, by decide⟩⟩

theorem witness_CoefficientWindowsReadTheirElements :
    (idle8 [] []).phase = .idle ∧ (Window.recon = .freq ∨ Window.recon = .sel ∨ Window.recon = .recon) ∧ 7 < side params8 := by decide

theorem witness_RegisterReads : 0 < 64 ∧ 63 < 64 := by decide

/-- R20, R31: in the raster table entry 63 is (7, 7), so the read at 0x1FC returns ROW 7 in bits 10:8 and COL 7 in bits 2:0. -/
theorem test_read_mbprio : (stepped (idle8 [] [.read32 0x000001FC])).response = .word 0x00000707 := by decide

theorem witness_ParameterRegisters : 63 < 64 := by decide

theorem witness_IrqFollowsTheEnabledPendingBits :
    let s := { busy8 .nop 0 [] with irqEn := ⟨true, false⟩ }
    s.phase = .busy ∧ s.irqEn.done = true ∧ (∃ t, hostEvent (.write32 0x1C 3) s = .next t)
      ∧ ∃ t, hostEvent (.write32 0x18 0) s = .next t :=
  ⟨rfl, rfl, ⟨_, rfl⟩, ⟨_, rfl⟩⟩

theorem witness_AfterResetOnlySourceCommandsRun : (ChanMask.mk false false true).nonempty = true := by decide

theorem witness_BudgetIsLatched :
    (∃ s t : State, s.phase = .idle ∧ exec .nop s = .next t ∧ t.phase = .busy)
      ∧ ∃ s t : State, s.phase = .busy ∧ exec (.zzsel rgb) s = .next t :=
  ⟨⟨idle8 [] [], _, rfl, rfl, rfl⟩, ⟨busy8 (.zzsel rgb) 0 [], _, rfl, exec_busy rfl _⟩⟩

/-- A byte of IN that the host changes, and a byte of U that BASISGEN changes. -/
theorem witness_EachMemoryHasItsWriters_input :
    let s := idle8 [(0x01000000, 0x01)] [.write8 0x01000000 0x02]
    step s = .next (stepped s) ∧ (stepped s).epoch = s.epoch ∧ readByte (stepped s) 0x01000000 ≠ readByte s 0x01000000 :=
  ⟨rfl, rfl, by decide +kernel⟩

theorem witness_EachMemoryHasItsWriters_basis :
    let s := busy8 .basisgen 0 [(0x03000006, 0x00)]
    step s = .next (stepped s) ∧ (stepped s).epoch = s.epoch ∧ readByte (stepped s) 0x03000006 ≠ readByte s 0x03000006 :=
  ⟨rfl, rfl, by decide +kernel⟩

theorem witness_OtherChannelsAreUntouched :
    ∃ s t : State, s.phase = .busy ∧ (Instr.dwtf red).mask? = some red ∧ red.has .blue = false ∧ exec (.dwtf red) s = .next t
      ∧ 7 < side s.params :=
  ⟨busy8 (.dwtf red) 0 [], _, rfl, rfl, rfl, exec_busy rfl _, by decide⟩

/-- A step that changes the flags: BASISGEN completes. -/
theorem witness_OnlyCompletionAndResetWriteFlags :
    let s := busy8 .basisgen 0 []
    step s = .next (stepped s) ∧ (stepped s).flags ≠ s.flags := ⟨rfl, by decide +kernel⟩

/-- A step that sets BUSY, and one that clears it. -/
theorem witness_BusyChangesOnlyAtItsEvents_set :
    let s := idle8 [] [.write32 0x00000008 0x00000001]
    step s = .next (stepped s) ∧ s.phase = .idle ∧ (stepped s).phase = .busy := ⟨rfl, rfl, rfl⟩

theorem witness_BusyChangesOnlyAtItsEvents_clear :
    let s := busy8 .basisgen 0 []
    step s = .next (stepped s) ∧ s.phase = .busy ∧ (stepped s).phase = .idle := ⟨rfl, rfl, rfl⟩

theorem witness_OneEventSetsOnePendingBit :
    let s := busy8 .basisgen 0 []
    step s = .next (stepped s) ∧ s.irqPend.done = false ∧ (stepped s).irqPend.done = true := ⟨rfl, rfl, rfl⟩

/-- A write of BUDGET and a read of the last MBPRIO register. -/
theorem witness_CompletionCommutesWithOtherEvents :
    ∃ s : State, s.phase = .busy ∧ ∀ e ∈ [HostEvent.write32 0x10 7, .read32 0x000001FC], besideCompletion e
      ∧ ∃ s₁ t t₁ t₂, hostEvent e s = .next s₁ ∧ exec .nop s₁ = .next t₁ ∧ exec .nop s = .next t ∧ hostEvent e t = .next t₂ := by
  refine ⟨busy8 .nop 0 [], rfl, fun e he => ?_⟩
  rcases List.mem_cons.mp he with rfl | he
  · exact ⟨.inl rfl, _, _, _, _, rfl, rfl, rfl, rfl⟩
  · rcases List.mem_singleton.mp he with rfl
    exact ⟨.inr (.inr (.inr (.inr (.inr (.inr (.inr (by decide))))))), _, _, _, _, rfl, rfl, rfl, rfl⟩

/-- A good state with a written byte of IN and a command on its way, for the three invariant statements. -/
theorem inv_idle8 : Inv (idle8 [(0x01000000, 0x01)] [.write32 0x00000008 0x00000720]) where
  memory := by
    refine ⟨List.pairwise_singleton _ _, fun c hc => ?_⟩
    rcases List.mem_singleton.mp hc with rfl
    exact ⟨.input, by decide⟩
  running := fun h => by cases h
  flags := by
    refine ⟨fun ch h => ?_, fun ch h => ?_, fun ch h => ?_, fun h => ?_⟩
    · cases ch <;> cases h
    · cases ch <;> exact absurd rfl h
    · cases ch <;> cases h
    · cases h
  basis := fun h => by cases h
  recon := fun ch h => by cases ch <;> cases h
  selection := fun ch h => by cases ch <;> exact absurd rfl h
  output := fun h => by cases h

theorem witness_StepKeepsTheInvariant :
    let s := idle8 [(0x01000000, 0x01)] [.write32 0x00000008 0x00000720]
    Inv s ∧ MemoryGood s ∧ FlagsGood s.flags ∧ RunningGood s ∧ step s = .next (stepped s) :=
  ⟨inv_idle8, inv_idle8.memory, inv_idle8.flags, inv_idle8.running, rfl⟩

/-- A command runs, and one host event comes before its completion. -/
def busyDelayed : State := { busy8 (.dwtf red) 0 [] with host := [.read32 0x0000000C], delay := 1 }

theorem runningGood_busyDelayed : RunningGood busyDelayed :=
  fun _ => ⟨rfl, .dwtf red, by decide, by decide⟩

theorem witness_NoStepStops : RunningGood busyDelayed := runningGood_busyDelayed

theorem witness_RunningCommandCompletes :
    busyDelayed.phase = .busy ∧ RunningGood busyDelayed ∧ ∀ e ∈ busyDelayed.host, e ≠ .reset :=
  ⟨rfl, runningGood_busyDelayed, by decide⟩

end Sys2Proof.Tests
end

section
/-! SUPPORT. The statements of `00_scope.md`: the integer square root of R12, and the registers that report the synthesis
parameters (R22, R31). -/

open Sys2Proof Sys2Proof.Machine

namespace Sys2Proof.Proofs

/-! ### The integer square root (R12) -/

/-- `d` is the largest number whose square is at most `n`. -/
def IsFloorRoot (n d : Nat) : Prop := d * d ≤ n ∧ n < (d + 1) * (d + 1)

/-- The bits still to be found lie below `2 ^ k`: while the root of `n` is in `[acc, acc + 2 ^ k)`, the search ends at it. -/
theorem isFloorRoot_isqrtBits {n k acc : Nat} (hlow : acc * acc ≤ n) (hhigh : n < (acc + 2 ^ k) * (acc + 2 ^ k)) :
    IsFloorRoot n (isqrtBits n k acc) := by
  induction k generalizing acc with
  | zero => exact ⟨hlow, hhigh⟩
  | succ k ih =>
    rw [isqrtBits]
    split
    case isTrue hfits =>
      have htop : acc + 2 ^ (k + 1) = acc + 2 ^ k + 2 ^ k := by rw [Nat.pow_succ]; omega
      exact ih hfits (htop ▸ hhigh)
    case isFalse hover => exact ih hlow (Nat.lt_of_not_le hover)

/-- The root of a 32-bit word lies below `2 ^ 16`, so the 16 bits of `isqrt` are enough. -/
theorem isFloorRoot_isqrt (n : Word) : IsFloorRoot n.toNat (isqrt n) :=
  isFloorRoot_isqrtBits (Nat.zero_le _) (by simpa using n.isLt)

/-- Settles O26, by induction on the bits that `isqrtBits` still has to find. -/
theorem isqrtIsTheFloorRoot : Obligations.IsqrtIsTheFloorRoot :=
  isFloorRoot_isqrt

/-! ### The words of PARAM and MBPRIO as numbers (R22, R31) -/

/-- Concatenation places `x` above the bits of `y`. -/
theorem toNat_append_eq_add {m n : Nat} (x : BitVec m) (y : BitVec n) : (x ++ y).toNat = 2 ^ n * x.toNat + y.toNat := by
  rw [BitVec.toNat_append, Nat.shiftLeft_eq, Nat.mul_comm, Nat.two_pow_add_eq_or_of_lt y.isLt]

/-- A field of a word is what stays of its number after a division and a remainder. -/
theorem toNat_field {w : Nat} (x : BitVec w) (lo len : Nat) : (x.extractLsb' lo len).toNat = x.toNat / 2 ^ lo % 2 ^ len := by
  rw [BitVec.extractLsb'_toNat, Nat.shiftRight_eq_div_pow]

theorem basisDivNat_lt (b : BasisDiv) : basisDivNat b < 16 := by
  cases b <;> decide

theorem log2N_lt (p : Params) : log2N p < 16 := Nat.lt_of_le_of_lt (log2N_le p) (by decide)

theorem paramWord_toNat (p : Params) : (paramWord p).toNat = 256 * basisDivNat p.basisDiv + 48 + log2N p := by
  simp only [paramWord, toNat_append_eq_add, BitVec.toNat_ofNat, BitVec.reduceToNat, Nat.mod_eq_of_lt (basisDivNat_lt _),
    Nat.mod_eq_of_lt (log2N_lt p)]
  omega

theorem mbPrioWord_toNat (p : Params) {k : Nat} {e : BlockPos} (he : (mbPriority p)[k]? = some e) :
    (mbPrioWord p k).toNat = 256 * e.1.val + e.2.val := by
  simp only [mbPrioWord, List.getD_eq_getElem?_getD, he, Option.getD_some, toNat_append_eq_add, BitVec.toNat_ofNat,
    BitVec.reduceToNat, Nat.mod_eq_of_lt (Fin.isLt _)]
  omega

theorem mbPriority_length (p : Params) : (mbPriority p).length = 64 := by
  simp [mbPriority]

/-- Entry 0 of the table is (0, 0) for every parameter set (R9). -/
theorem mbPrioWord_zero (p : Params) : mbPrioWord p 0 = 0 :=
  BitVec.eq_of_toNat_eq (mbPrioWord_toNat p (e := (0, 0)) rfl)

/-! ### The fields of PARAM and MBPRIO -/

theorem paramWord_fields (p : Params) :
    ((paramWord p).extractLsb' 0 4).toNat = log2N p
      ∧ ((paramWord p).extractLsb' 4 4).toNat = 3
      ∧ ((paramWord p).extractLsb' 8 4).toNat = basisDivNat p.basisDiv
      ∧ ((paramWord p).extractLsb' 12 20).toNat = 0 := by
  have hlog := log2N_lt p
  have hdiv := basisDivNat_lt p.basisDiv
  simp only [toNat_field, paramWord_toNat]
  omega

theorem mbPrioWord_fields (p : Params) {k : Nat} {e : BlockPos} (he : (mbPriority p)[k]? = some e) :
    ((mbPrioWord p k).extractLsb' 0 3).toNat = e.2.val
      ∧ ((mbPrioWord p k).extractLsb' 8 3).toNat = e.1.val
      ∧ ((mbPrioWord p k).extractLsb' 3 5).toNat = 0
      ∧ ((mbPrioWord p k).extractLsb' 11 21).toNat = 0 := by
  have hrow := e.1.isLt
  have hcol := e.2.isLt
  simp only [toNat_field, mbPrioWord_toNat p he]
  omega

/-- Settles O44, by the fields of the two words' numbers; entry `k` of the table is there for every `k` below 64. -/
theorem parameterRegisters : Obligations.ParameterRegisters := by
  refine ⟨fun p => ?_, rfl⟩
  obtain ⟨hlog, hthree, hdiv, hhigh⟩ := paramWord_fields p
  refine ⟨hlog, hthree, hdiv.trans ?_, BitVec.eq_of_toNat_eq hhigh, fun k hk => ?_, mbPrioWord_zero p⟩
  · cases p.basisDiv <;> rfl
  · have he : (mbPriority p)[k]? = some _ := List.getElem?_eq_getElem (by rw [mbPriority_length]; exact hk)
    obtain ⟨hcol, hrow, hmid, htop⟩ := mbPrioWord_fields p he
    exact ⟨_, he, hcol, hrow, BitVec.eq_of_toNat_eq hmid, BitVec.eq_of_toNat_eq htop⟩

end Sys2Proof.Proofs
end

section
/-! SUPPORT. The statements of `10_state.md`: the invariant and the other rules of a step, seven of the completions, the host's
reads and register writes, the fields of the flag words, and reset. -/

open Sys2Proof Sys2Proof.Machine Sys2Proof.Claims

namespace Sys2Proof.Proofs

/-! ### The checks of R75 -/

@[simp] theorem require_eq_none {ok : Bool} {e : CmdError} : require ok e = none ↔ ok = true := by
  cases ok <;> simp [require]

@[simp] theorem firstError_eq_none {l : List (Option CmdError)} : firstError l = none ↔ ∀ e ∈ l, e = none := by
  induction l with
  | nil => simp [firstError]
  | cons e l ih => cases e <;> simp [firstError, ih]

@[simp] theorem mem_channel_all (ch : Channel) : ch ∈ Channel.all := by
  cases ch <;> decide

@[simp] theorem everyChannel_eq_true {m : ChanMask} {ok : Channel → Bool} :
    everyChannel m ok = true ↔ ∀ ch, m.has ch = true → ok ch = true := by
  unfold everyChannel
  rw [List.all_eq_true]
  refine forall_congr' fun ch => ?_
  cases m.has ch <;> simp

/-- The checks read the flags and nothing else. -/
theorem check_congr {s t : State} (h : t.flags = s.flags) (i : Instr) : check i t = check i s := by
  cases i <;> simp only [check, needBasis, needFreqKind, needSelKind, needAllRecon, h]

@[simp] theorem check_nop (s : State) : check .nop s = none := rfl

@[simp] theorem check_basisgen (s : State) : check .basisgen s = none := rfl

@[simp] theorem check_dctf_eq_none {m : ChanMask} {s : State} :
    check (.dctf m) s = none ↔ m.nonempty = true ∧ s.flags.basisValid = true := by
  simp [check, needChannel, needBasis]

@[simp] theorem check_zzsel_eq_none {m : ChanMask} {s : State} :
    check (.zzsel m) s = none ↔ m.nonempty = true ∧ ∀ ch, m.has ch = true → s.flags.fkind.get ch = .dct := by
  simp [check, needChannel, needFreqKind]

@[simp] theorem check_dcti_eq_none {m : ChanMask} {s : State} :
    check (.dcti m) s = none
      ↔ m.nonempty = true ∧ s.flags.basisValid = true ∧ ∀ ch, m.has ch = true → s.flags.skind.get ch = .dct := by
  simp [check, needChannel, needBasis, needSelKind]

@[simp] theorem check_dwtf_eq_none {m : ChanMask} {s : State} : check (.dwtf m) s = none ↔ m.nonempty = true := by
  simp [check, needChannel]

@[simp] theorem check_dwtselr_eq_none {m : ChanMask} {s : State} :
    check (.dwtselr m) s = none ↔ m.nonempty = true ∧ ∀ ch, m.has ch = true → s.flags.fkind.get ch = .dwt := by
  simp [check, needChannel, needFreqKind]

@[simp] theorem check_dwtselb_eq_none {m : ChanMask} {s : State} :
    check (.dwtselb m) s = none ↔ m.nonempty = true ∧ ∀ ch, m.has ch = true → s.flags.fkind.get ch = .dwt := by
  simp [check, needChannel, needFreqKind]

@[simp] theorem check_dwti_eq_none {m : ChanMask} {s : State} :
    check (.dwti m) s = none ↔ m.nonempty = true ∧ ∀ ch, m.has ch = true → s.flags.skind.get ch = .dwt := by
  simp [check, needChannel, needSelKind]

@[simp] theorem check_asm_eq_none {s : State} : check .asm s = none ↔ ∀ ch, s.flags.rvalid.get ch = true := by
  simp [check, needAllRecon]

theorem issue_cases (i : Instr) (s : State) :
    (check i s = none ∧ issue i s = accept (encode i) s)
      ∨ ∃ e, check i s = some e ∧ issue i s = reject (encode i) e s := by
  unfold issue
  cases check i s with
  | none => exact .inl ⟨rfl, rfl⟩
  | some e => exact .inr ⟨e, rfl, rfl⟩

theorem decode_encode (i : Instr) : decode (encode i) = .ok i := by
  unfold decode
  rw [opcField_encode, chField_encode, rsvField_encode]
  cases i <;> simp [Instr.opc, opcForm, Instr.chBits, Instr.mask?]

/-! ### Steps: completion, reset, quiet -/

/-- What a step that is neither a completion nor a reset leaves. The parameters, the flags and the draw of the unwritten
bytes stand; memory is as it was, or bytes of IN were stored in IDLE; and a running command is the one that ran before, or one
that the step accepted. -/
structure Quiet (s t : State) : Prop where
  params : t.params = s.params
  flags : t.flags = s.flags
  epoch : t.epoch = s.epoch
  mem : t.mem = s.mem ∨ s.phase = .idle ∧ ∃ a bs, t.mem = s.mem.store a bs
    ∧ ∀ x, a ≤ x → x < a + bs.length → Window.contains s.params .input x = true
  command : t.phase = .busy → (s.phase = .busy ∧ t.lastCmd = s.lastCmd ∧ t.curCmd = s.curCmd)
    ∨ ∃ i, t.lastCmd = encode i ∧ t.curCmd = encode i ∧ check i s = none

theorem Quiet.refl (s : State) : Quiet s s := ⟨rfl, rfl, rfl, .inl rfl, fun h => .inl ⟨h, rfl, rfl⟩⟩

/-- Every effect a host event can have is a reset's or quiet. -/
theorem hostEffect_quiet {s t : State} (h : HostEffect s t) : t = resetEvent s ∨ Quiet s t := by
  cases h with
  | reset => exact .inl rfl
  | store a bs hidle hin =>
    exact .inr ⟨rfl, rfl, rfl, .inr ⟨hidle, a, bs, rfl, hin⟩, fun h => .inl ⟨h, rfl, rfl⟩⟩
  | issue w i hidle hd =>
    have hcheck : check i (respond .none s) = check i s := check_congr rfl i
    rcases issue_cases i (respond .none s) with ⟨hc, he⟩ | ⟨e, hc, he⟩ <;> rw [he]
    · exact .inr ⟨rfl, rfl, rfl, .inl rfl, fun _ => .inr ⟨i, rfl, rfl, hcheck ▸ hc⟩⟩
    · exact .inr ⟨rfl, rfl, rfl, .inl rfl, fun h => absurd (hidle.symm.trans h) (by decide)⟩
  | reject w e hidle hd =>
    exact .inr ⟨rfl, rfl, rfl, .inl rfl, fun h => absurd (hidle.symm.trans h) (by decide)⟩
  | _ => exact .inr ⟨rfl, rfl, rfl, .inl rfl, fun h => .inl ⟨h, rfl, rfl⟩⟩

theorem issue_epoch (i : Instr) (s : State) : (issue i s).epoch = s.epoch := by
  rcases issue_cases i s with ⟨_, he⟩ | ⟨_, _, he⟩ <;> rw [he] <;> rfl

theorem writeWindow_epoch (a : Word) (bs : List Byte) (w : Window) (s : State) : (writeWindow a bs w s).epoch = s.epoch := by
  cases w <;> rfl

theorem writeCmd_epoch {w : Word} {s t : State} (h : writeCmd w s = .next t) : t.epoch = s.epoch := by
  unfold writeCmd at h
  split at h
  · cases h; rfl
  · next hidle =>
    split at h
    · cases h; rfl
    · next i _ =>
      rw [exec_idle hidle] at h
      cases h
      exact issue_epoch i s

theorem writeReg_epoch {a v : Word} {r : Reg} {s t : State} (h : writeReg a v r s = .next t) : t.epoch = s.epoch := by
  cases r with
  | cmd => exact writeCmd_epoch h
  | _ => cases h; rfl

/-- Only a reset draws the unwritten bytes anew. -/
theorem hostEvent_epoch {e : HostEvent} {s t : State} (he : e ≠ .reset) (h : hostEvent e s = .next t) :
    t.epoch = s.epoch := by
  cases e with
  | reset => exact absurd rfl he
  | read8 a =>
    cases h
    unfold busRead8
    split
    · split <;> rfl
    · rfl
  | read32 a =>
    cases h
    unfold busRead32
    split <;> rfl
  | write8 a v =>
    cases h
    unfold busWrite8
    split
    · exact writeWindow_epoch _ _ _ _
    · rfl
  | write32 a v =>
    simp only [hostEvent, busWrite32] at h
    split at h
    · exact writeReg_epoch (s := respond .none s) h
    · cases h; exact writeWindow_epoch _ _ _ _
    · cases h; rfl

/-- A host event other than a reset is quiet. -/
theorem hostEvent_quiet {e : HostEvent} {s t : State} (he : e ≠ .reset) (h : hostEvent e s = .next t) : Quiet s t := by
  obtain ⟨t', ht', heff⟩ := hostEvent_effect e s
  obtain rfl : t' = t := by rw [h] at ht'; cases ht'; rfl
  refine (hostEffect_quiet heff).resolve_left fun hreset => ?_
  have hepoch := hostEvent_epoch he h
  rw [hreset] at hepoch
  exact absurd hepoch (Nat.succ_ne_self _)

/-- Taking an event off the host's list changes nothing that `Quiet` speaks of. -/
theorem Quiet.of_takeEvent {s t : State} {rest : List HostEvent} (h : Quiet (takeEvent rest s) t) : Quiet s t where
  params := h.params
  flags := h.flags
  epoch := h.epoch
  mem := h.mem
  command ht := (h.command ht).imp_right fun ⟨i, hl, hc, hk⟩ => ⟨i, hl, hc, (check_congr rfl i).trans hk⟩

/-- Everything a step can do to the flags, the parameters and memory: it completes the running command, or it takes a reset
event, or it is quiet. -/
theorem step_cases {s t : State} (h : step s = .next t) :
    (∃ i, engineTurn s = true ∧ decode s.curCmd = .ok i ∧ t = finish (effectOf i s))
      ∨ (∃ rest, engineTurn s = false ∧ s.host = .reset :: rest
          ∧ t = State.afterReset s.params (s.epoch + 1) s.accepted rest)
      ∨ (engineTurn s = false ∧ Quiet s t) := by
  cases step_effect h with
  | complete i _ ht hd => exact .inl ⟨i, ht, hd, rfl⟩
  | rest _ ht => exact .inr (.inr ⟨ht, .refl s⟩)
  | host e rest _ hh ht he _ =>
    refine .inr ?_
    by_cases hreset : e = .reset
    · subst hreset
      cases he
      exact .inl ⟨rest, ht, hh, rfl⟩
    · exact .inr ⟨ht, (hostEvent_quiet hreset he).of_takeEvent⟩

/-! ### Quiet steps keep the invariant -/

/-- A byte that a quiet step changes is a byte of IN, written in IDLE. -/
theorem Quiet.changed {s t : State} (h : Quiet s t) {a : Nat} (ha : readByte t a ≠ readByte s a) :
    s.phase = .idle ∧ Window.contains s.params .input a = true := by
  rcases h.mem with hm | ⟨hidle, b, bs, hm, hin⟩
  · exact absurd (readByte_congr hm h.epoch a) ha
  · have hread : readByte t a = readByte (storeBytes s b bs) a :=
      readByte_congr (s := storeBytes s b bs) hm h.epoch a
    rw [hread, readByte_storeBytes] at ha
    split at ha
    · next hab => exact ⟨hidle, hin a hab.1 hab.2⟩
    · exact absurd rfl ha

/-- A quiet step leaves every window but IN as it was. -/
theorem Quiet.readByte {s t : State} (h : Quiet s t) {w : Window} (hw : w ≠ .input) {a : Nat}
    (ha : w.contains s.params a = true) : Machine.readByte t a = Machine.readByte s a := by
  by_contra hne
  exact hw (window_unique ha (h.changed hne).2)

theorem Quiet.memoryGood {s t : State} (h : Quiet s t) (hs : MemoryGood s) : MemoryGood t := by
  unfold MemoryGood
  rw [h.params]
  rcases h.mem with hm | ⟨_, a, bs, hm, hin⟩ <;> rw [hm]
  · exact hs
  · refine ⟨wf_store hs.1 a bs, fun c hc => ?_⟩
    rcases mem_store hc with hc | ⟨h1, h2⟩
    · exact hs.2 c hc
    · exact ⟨.input, hin c.1 h1 h2⟩

theorem Quiet.runningGood {s t : State} (h : Quiet s t) (hs : RunningGood s) : RunningGood t := by
  intro hbusy
  rcases h.command hbusy with ⟨hb, hl, hc⟩ | ⟨i, hl, hc, hk⟩
  · obtain ⟨heq, i, hd, hk⟩ := hs hb
    exact ⟨by rw [hl, hc, heq], i, by rw [hc, hd], (check_congr h.flags i).trans hk⟩
  · exact ⟨hl.trans hc.symm, i, by rw [hc, decode_encode], (check_congr h.flags i).trans hk⟩

/-! ### A completion, as the statements write it -/

/-- A completion is the common one of R77, with the command's row of R42 and the command's memory. -/
theorem finish_effectOf (i : Instr) (s : State) :
    finish (effectOf i s) = completed s (flagsAfter i s.flags) (effectOf i s).mem := by
  rw [effectOf_eq]
  rfl

/-- A window that a command does not write reads as before. -/
theorem effectOf_frame {i : Instr} {s : State} {w : Window} (hi : writesTo i ≠ some w) {a : Nat}
    (ha : w.contains s.params a = true) : readByte (effectOf i s) a = readByte s a :=
  effectOf_outside fun _ hw' => Bool.eq_false_iff.mpr fun ha' => hi (window_unique ha ha' ▸ hw')

/-- A coefficient window that a command does not write keeps its elements. -/
theorem effectOf_frame_element {i : Instr} {s : State} {w : Window} (hi : writesTo i ≠ some w) (hw : w.isCoef = true)
    (ch : Channel) {idx : Nat} (h : idx < side s.params * side s.params) :
    readF64 (effectOf i s) (elemAddr s.params w ch idx) = readF64 s (elemAddr s.params w ch idx) :=
  readF64_congr fun _ hj => effectOf_frame hi (elem_in_window hw ch h hj)

/-- A command with a mask is a channel command, which writes planes. -/
theorem planesOf_of_mask {i : Instr} {m : ChanMask} (h : i.mask? = some m) (s : State) :
    ∃ w f, planesOf i s = some (m, w, f) := by
  cases i <;> cases h <;> exact ⟨_, _, rfl⟩

theorem mask_of_planesOf {i : Instr} {s : State} {m : ChanMask} {w : Window} {f : Channel → Plane}
    (h : planesOf i s = some (m, w, f)) : i.mask? = some m := by
  cases i <;> cases h <;> rfl

/-- A command leaves the flags of every channel outside its mask (R42). -/
theorem flagsAfter_untouched {i : Instr} {ch : Channel} (h : ∀ m, i.mask? = some m → m.has ch = false) (f : StatusFlags) :
    (flagsAfter i f).fkind.get ch = f.fkind.get ch ∧ (flagsAfter i f).skind.get ch = f.skind.get ch
      ∧ (flagsAfter i f).rvalid.get ch = f.rvalid.get ch := by
  cases i with
  | nop | basisgen | asm => exact ⟨rfl, rfl, rfl⟩
  | dctf m | zzsel m | dcti m | dwtf m | dwtselr m | dwtselb m | dwti m => simp [flagsAfter, h m rfl]

/-- A command leaves every coefficient of a channel outside its mask (R169). -/
theorem effectOf_untouched {i : Instr} {ch : Channel} (h : ∀ m, i.mask? = some m → m.has ch = false) {s : State}
    {w : Window} (hw : w.isCoef = true) {idx : Nat} (hidx : idx < side s.params * side s.params) :
    readF64 (effectOf i s) (elemAddr s.params w ch idx) = readF64 s (elemAddr s.params w ch idx) := by
  cases hp : planesOf i s with
  | none =>
    refine effectOf_frame_element (fun hi => ?_) hw ch hidx
    rcases planesOf_none hp with rfl | rfl | rfl <;> cases hi <;> cases hw
  | some x =>
    obtain ⟨m, w', f⟩ := x
    by_cases hww : w = w'
    · subst hww
      have hm : ¬ m.has ch = true := by simp [h m (mask_of_planesOf hp)]
      rw [readF64_congr fun j _ => effectOf_readByte_planes hp _, readF64_storePlanes_unmasked w f s hm hidx]
    · exact effectOf_frame_element (fun hi => hww (by simpa [planesOf_writesTo hp] using hi.symm)) hw ch hidx

theorem readF64_finish (s : State) (a : Nat) : readF64 (finish s) a = readF64 s a := rfl

/-! ### The planes of the three stages -/

theorem clamped_clamp255 (v : F64) : clamped (clamp255 v) = true := by
  unfold clamp255
  split
  · rfl
  · next hpos =>
    split
    · decide
    · next hle =>
      have hpos : fgt v fzero = true := by simpa using hpos
      simp [clamped, hpos, hle]

theorem zigzagSelect_at {n q r c : Nat} (W : Plane) (hr : r < n) (hc : c < n) :
    (zigzagSelect n q W).at r c = if (r % 8, c % 8) ∈ zigzag.take q then W.at r c else fzero := by
  simp [zigzagSelect, hr, hc]

theorem radiusSelect_at {n d r c : Nat} (W : Plane) (hr : r < n) (hc : c < n) :
    (radiusSelect n d W).at r c = if r < d ∧ c < d then W.at r c else fzero :=
  at_tabulate _ hr hc

theorem blockSelect_at {p : Params} {q r c : Nat} (W : Plane) (hr : r < side p) (hc : c < side p) :
    (blockSelect p q W).at r c = if blockKept p q (r / mbSide p) (c / mbSide p) then W.at r c else fzero :=
  at_tabulate _ hr hc

theorem dctInverse_at {n r c : Nat} (U V W : Plane) (hr : r < n) (hc : c < n) :
    (dctInverse n U V W).at r c
      = dctInverseTile (fun x y => W.at (8 * (r / 8) + x) (8 * (c / 8) + y)) U V (r % 8) (c % 8) :=
  tilewise_at W _ hr hc

theorem dwtInverse_at {p : Params} {r c : Nat} (W : Plane) (hr : r < side p) (hc : c < side p) :
    (dwtInverse p W).at r c = clamp255 ((inverseLevels (side p) (log2N p) W).at r c) :=
  at_tabulate _ hr hc

/-- A plane whose elements are each `W`'s or +0.0: what a selector makes of `W` (R38). -/
def IsSelection (n : Nat) (W X : Plane) : Prop := ∀ r c, r < n → c < n → X.at r c = W.at r c ∨ X.at r c = fzero

/-- A plane of clamped samples: what an inverse transform makes (R39). -/
def IsClamped (n : Nat) (X : Plane) : Prop := ∀ r c, r < n → c < n → clamped (X.at r c) = true

/-- A channel command is of one of three stages: a forward transform, a selection of FREQ, or an inverse transform, which
clamps. -/
theorem planesOf_stage {i : Instr} {s : State} {m : ChanMask} {w : Window} {f : Channel → Plane}
    (h : planesOf i s = some (m, w, f)) :
    (w = .freq ∧ ∃ k, flagsAfter i = flagsForward m k)
      ∨ (w = .sel ∧ (∃ k, flagsAfter i = flagsSelect m k)
          ∧ ∀ ch, IsSelection (side s.params) (coefPlane s .freq ch) (f ch))
      ∨ (w = .recon ∧ flagsAfter i = flagsInverse m ∧ ∀ ch, IsClamped (side s.params) (f ch)) := by
  cases i with
  | nop | basisgen | asm => cases h
  | dctf m | dwtf m => cases h; exact .inl ⟨rfl, _, rfl⟩
  | zzsel m =>
    cases h
    refine .inr (.inl ⟨rfl, ⟨_, rfl⟩, fun ch r c hr hc => ?_⟩)
    rw [zigzagSelect_at _ hr hc]
    exact ite_eq_or_eq _ _ _
  | dwtselr m =>
    cases h
    refine .inr (.inl ⟨rfl, ⟨_, rfl⟩, fun ch r c hr hc => ?_⟩)
    rw [radiusSelect_at _ hr hc]
    exact ite_eq_or_eq _ _ _
  | dwtselb m =>
    cases h
    refine .inr (.inl ⟨rfl, ⟨_, rfl⟩, fun ch r c hr hc => ?_⟩)
    rw [blockSelect_at _ hr hc]
    exact ite_eq_or_eq _ _ _
  | dcti m =>
    cases h
    refine .inr (.inr ⟨rfl, rfl, fun ch r c hr hc => ?_⟩)
    rw [dctInverse_at _ _ _ hr hc]
    exact clamped_clamp255 _
  | dwti m =>
    cases h
    refine .inr (.inr ⟨rfl, rfl, fun ch r c hr hc => ?_⟩)
    rw [dwtInverse_at _ hr hc]
    exact clamped_clamp255 _

/-- An element, by its index, of a masked channel in the window a command writes. -/
theorem effectOf_plane {i : Instr} {s : State} {m : ChanMask} {w : Window} {f : Channel → Plane}
    (h : planesOf i s = some (m, w, f)) {ch : Channel} (hm : m.has ch = true) {idx : Nat}
    (hidx : idx < side s.params * side s.params) :
    readF64 (effectOf i s) (elemAddr s.params w ch idx) = (f ch).at (idx / side s.params) (idx % side s.params) := by
  obtain ⟨hr, hc⟩ := idx_split hidx
  have hel := effectOf_element h hm hr hc
  rwa [Nat.div_add_mod'] at hel

/-! ### A completion keeps the invariant -/

theorem flagsGood_forward {f : StatusFlags} (h : FlagsGood f) (m : ChanMask) {k : Kind}
    (hk : k = .dct → f.basisValid = true) : FlagsGood (flagsForward m k f) := by
  obtain ⟨hbasis, hskind, hrvalid, _⟩ := h
  refine ⟨fun ch => ?_, fun ch => ?_, fun ch => ?_, nofun⟩ <;>
    simp only [flagsForward_basisValid, flagsForward_fkind, flagsForward_skind, flagsForward_rvalid, setChannels_get] <;> split
  · exact hk
  · exact hbasis ch
  · exact fun hnone => absurd rfl hnone
  · exact hskind ch
  · exact nofun
  · exact hrvalid ch

theorem flagsGood_select {f : StatusFlags} (h : FlagsGood f) {m : ChanMask} {k : Kind}
    (hm : ∀ ch, m.has ch = true → f.fkind.get ch = k) : FlagsGood (flagsSelect m k f) := by
  obtain ⟨hbasis, hskind, hrvalid, _⟩ := h
  refine ⟨hbasis, fun ch => ?_, fun ch => ?_, nofun⟩ <;>
    simp only [flagsSelect_fkind, flagsSelect_skind, flagsSelect_rvalid, setChannels_get] <;> split
  · next hch => exact fun _ => (hm ch hch).symm
  · exact hskind ch
  · exact nofun
  · exact hrvalid ch

theorem flagsGood_inverse {f : StatusFlags} (h : FlagsGood f) {m : ChanMask}
    (hm : ∀ ch, m.has ch = true → f.skind.get ch ≠ .none) : FlagsGood (flagsInverse m f) := by
  obtain ⟨hbasis, hskind, hrvalid, _⟩ := h
  refine ⟨hbasis, hskind, fun ch => ?_, nofun⟩
  simp only [flagsInverse_skind, flagsInverse_rvalid, setChannels_get]
  split
  · next hch => exact fun _ => hm ch hch
  · exact hrvalid ch

/-- A command whose checks passed leaves the flags in the order of the pipeline (R163): each check of R75 is what its row of R42
needs. -/
theorem flagsGood_flagsAfter {i : Instr} {s : State} (hc : check i s = none) (h : FlagsGood s.flags) :
    FlagsGood (flagsAfter i s.flags) := by
  cases i with
  | nop => exact h
  | basisgen => exact ⟨fun _ _ => rfl, h.2⟩
  | asm =>
    obtain ⟨hbasis, hskind, hrvalid, _⟩ := h
    exact ⟨hbasis, hskind, hrvalid, fun _ => check_asm_eq_none.mp hc⟩
  | dctf m => exact flagsGood_forward h m fun _ => (check_dctf_eq_none.mp hc).2
  | dwtf m => exact flagsGood_forward h m nofun
  | zzsel m => exact flagsGood_select h (check_zzsel_eq_none.mp hc).2
  | dwtselr m => exact flagsGood_select h (check_dwtselr_eq_none.mp hc).2
  | dwtselb m => exact flagsGood_select h (check_dwtselb_eq_none.mp hc).2
  | dcti m =>
    obtain ⟨_, _, hkind⟩ := check_dcti_eq_none.mp hc
    exact flagsGood_inverse h fun ch hch => by simp [hkind ch hch]
  | dwti m =>
    obtain ⟨_, hkind⟩ := check_dwti_eq_none.mp hc
    exact flagsGood_inverse h fun ch hch => by simp [hkind ch hch]

theorem basisGood_completion {s : State} (h : BasisGood s) (i : Instr) : BasisGood (finish (effectOf i s)) := by
  by_cases hi : writesTo i = some .basis
  · obtain rfl : i = .basisgen := by cases i <;> cases hi; rfl
    exact fun _ k j hk hj => ⟨basisgen_U s hk hj, basisgen_V s hk hj⟩
  · have hflag : (flagsAfter i s.flags).basisValid = s.flags.basisValid := by
      cases i with
      | basisgen => exact absurd rfl hi
      | _ => rfl
    intro hvalid k j hk hj
    simp only [finish_flags, effectOf_flags, hflag] at hvalid
    simp only [finish_params, effectOf_params, readF64_finish]
    obtain ⟨hU, hV⟩ := h hvalid k j hk hj
    exact ⟨(readF64_congr fun _ hx => effectOf_frame hi (basisU_in_window hk hj hx)).trans hU,
      (readF64_congr fun _ hx => effectOf_frame hi (basisV_in_window hk hj hx)).trans hV⟩

/-- A channel is in the mask of a command, or the command leaves it alone. -/
theorem masked_or_untouched (i : Instr) (ch : Channel) :
    (∃ m, i.mask? = some m ∧ m.has ch = true) ∨ ∀ m, i.mask? = some m → m.has ch = false := by
  cases i.mask? with
  | none => exact .inr nofun
  | some m => cases hm : m.has ch <;> simp [hm]

theorem reconGood_completion {s : State} (h : ReconGood s) (i : Instr) : ReconGood (finish (effectOf i s)) := by
  intro ch hvalid idx hidx
  simp only [finish_flags, effectOf_flags, finish_params, effectOf_params, readF64_finish] at hvalid hidx ⊢
  rcases masked_or_untouched i ch with ⟨m, hi, hm⟩ | hout
  · obtain ⟨w, f, hp⟩ := planesOf_of_mask hi s
    obtain ⟨hr, hc⟩ := idx_split hidx
    rcases planesOf_stage hp with ⟨rfl, k, hf⟩ | ⟨rfl, ⟨k, hf⟩, _⟩ | ⟨rfl, hf, hclamp⟩
    · simp [hf, hm] at hvalid
    · simp [hf, hm] at hvalid
    · rw [effectOf_plane hp hm hidx]
      exact hclamp ch _ _ hr hc
  · obtain ⟨_, _, hrvalid⟩ := flagsAfter_untouched hout s.flags
    rw [hrvalid] at hvalid
    rw [effectOf_untouched hout rfl hidx]
    exact h ch hvalid idx hidx

theorem selectionGood_completion {s : State} (h : SelectionGood s) (i : Instr) : SelectionGood (finish (effectOf i s)) := by
  intro ch hkind idx hidx
  simp only [finish_flags, effectOf_flags, finish_params, effectOf_params, readF64_finish] at hkind hidx ⊢
  rcases masked_or_untouched i ch with ⟨m, hi, hm⟩ | hout
  · obtain ⟨w, f, hp⟩ := planesOf_of_mask hi s
    have hframe : ∀ {w'}, w' ≠ w → writesTo i ≠ some w' := fun hne heq =>
      hne (Option.some.inj (heq.symm.trans (planesOf_writesTo hp)))
    obtain ⟨hr, hc⟩ := idx_split hidx
    rcases planesOf_stage hp with ⟨rfl, k, hf⟩ | ⟨rfl, _, hsel⟩ | ⟨rfl, hf, _⟩
    · simp [hf, hm] at hkind
    · have hfreq := coefPlane_at s .freq ch hr hc
      rw [Nat.div_add_mod'] at hfreq
      rw [effectOf_plane hp hm hidx, effectOf_frame_element (hframe (by decide)) rfl ch hidx, ← hfreq]
      exact hsel ch _ _ hr hc
    · rw [effectOf_frame_element (hframe (by decide)) rfl ch hidx, effectOf_frame_element (hframe (by decide)) rfl ch hidx]
      exact h ch (by simpa [hf] using hkind) idx hidx
  · obtain ⟨_, hskind, _⟩ := flagsAfter_untouched hout s.flags
    rw [hskind] at hkind
    rw [effectOf_untouched hout rfl hidx, effectOf_untouched hout rfl hidx]
    exact h ch hkind idx hidx

theorem outputGood_completion {s : State} (h : OutputGood s) (i : Instr) : OutputGood (finish (effectOf i s)) := by
  intro hvalid ch idx hidx
  simp only [finish_flags, effectOf_flags, finish_params, effectOf_params, readF64_finish] at hvalid hidx ⊢
  have hpixel : Window.contains s.params .output (Window.output.base + (3 * idx + Channel.index ch)) = true :=
    output_in_window hidx (Nat.lt_succ_of_le (index_le_two ch))
  cases hp : planesOf i s with
  | some x =>
    obtain ⟨m, w, f⟩ := x
    rcases planesOf_stage hp with ⟨_, k, hf⟩ | ⟨_, ⟨k, hf⟩, _⟩ | ⟨_, hf, _⟩ <;>
      rw [hf] at hvalid <;> cases hvalid
  | none =>
    rcases planesOf_none hp with rfl | rfl | rfl
    · exact h hvalid ch idx hidx
    · rw [effectOf_frame_element (by decide) rfl ch hidx]
      exact (effectOf_frame (by decide) hpixel).trans (h hvalid ch idx hidx)
    · rw [effectOf_frame_element (by decide) rfl ch hidx]
      exact asm_output s ch hidx

theorem inv_completion {s : State} {i : Instr} (h : Inv s) (hc : check i s = none) : Inv (finish (effectOf i s)) where
  memory := effectOf_memoryGood h.memory i
  running := nofun
  flags := by simpa using flagsGood_flagsAfter hc h.flags
  basis := basisGood_completion h.basis i
  recon := reconGood_completion h.recon i
  selection := selectionGood_completion h.selection i
  output := outputGood_completion h.output i

/-! ### The invariant (R163) -/

/-- Elements that a quiet step reads as before: those of the coefficient windows. -/
theorem Quiet.element {s t : State} (h : Quiet s t) {w : Window} (hw : w.isCoef = true) (ch : Channel) {idx : Nat}
    (hidx : idx < side s.params * side s.params) :
    readF64 t (elemAddr s.params w ch idx) = readF64 s (elemAddr s.params w ch idx) :=
  readF64_congr fun _ hj => h.readByte (by rintro rfl; cases hw) (elem_in_window hw ch hidx hj)

theorem Quiet.basisGood {s t : State} (h : Quiet s t) (hs : BasisGood s) : BasisGood t := by
  unfold BasisGood
  rw [h.flags, h.params]
  intro hvalid k i hk hi
  obtain ⟨hU, hV⟩ := hs hvalid k i hk hi
  exact ⟨(readF64_congr fun _ hj => h.readByte (by decide) (basisU_in_window hk hi hj)).trans hU,
    (readF64_congr fun _ hj => h.readByte (by decide) (basisV_in_window hk hi hj)).trans hV⟩

theorem Quiet.reconGood {s t : State} (h : Quiet s t) (hs : ReconGood s) : ReconGood t := by
  unfold ReconGood
  rw [h.flags, h.params]
  intro ch hvalid idx hidx
  rw [h.element rfl ch hidx]
  exact hs ch hvalid idx hidx

theorem Quiet.selectionGood {s t : State} (h : Quiet s t) (hs : SelectionGood s) : SelectionGood t := by
  unfold SelectionGood
  rw [h.flags, h.params]
  intro ch hkind idx hidx
  rw [h.element rfl ch hidx, h.element rfl ch hidx]
  exact hs ch hkind idx hidx

theorem Quiet.outputGood {s t : State} (h : Quiet s t) (hs : OutputGood s) : OutputGood t := by
  unfold OutputGood
  rw [h.flags, h.params]
  intro hvalid ch idx hidx
  rw [h.element rfl ch hidx,
    h.readByte (by decide) (output_in_window hidx (Nat.lt_succ_of_le (index_le_two ch)))]
  exact hs hvalid ch idx hidx

theorem Quiet.inv {s t : State} (h : Quiet s t) (hs : Inv s) : Inv t where
  memory := h.memoryGood hs.memory
  running := h.runningGood hs.running
  flags := h.flags ▸ hs.flags
  basis := h.basisGood hs.basis
  recon := h.reconGood hs.recon
  selection := h.selectionGood hs.selection
  output := h.outputGood hs.output

theorem inv_afterReset (p : Params) (e n : Nat) (host : List HostEvent) : Inv (State.afterReset p e n host) where
  memory := ⟨.nil, nofun⟩
  running := nofun
  flags := ⟨fun ch => by cases ch <;> exact nofun, fun ch h => absurd (by cases ch <;> rfl) h,
    fun ch => by cases ch <;> exact nofun, nofun⟩
  basis := nofun
  recon := fun ch => by cases ch <;> exact nofun
  selection := fun ch h => absurd (by cases ch <;> rfl) h
  output := nofun

/-- The checks of the running command passed when it was accepted, and the flags stand since. -/
theorem check_running {s : State} (h : RunningGood s) (hturn : engineTurn s = true) {i : Instr}
    (hd : decode s.curCmd = .ok i) : check i s = none := by
  obtain ⟨_, j, hj, hc⟩ := h (engineTurn_busy hturn)
  rw [hd] at hj
  cases hj
  exact hc

/-- Settles O58, by the three kinds of step: a completion, a reset, or a quiet step. -/
theorem stepKeepsTheInvariant : Obligations.StepKeepsTheInvariant := by
  intro s t hs hstep
  rcases step_cases hstep with ⟨i, hturn, hd, rfl⟩ | ⟨rest, _, _, rfl⟩ | ⟨_, hquiet⟩
  · exact inv_completion hs (check_running hs.running hturn hd)
  · exact inv_afterReset _ _ _ _
  · exact hquiet.inv hs

/-- Settles O57, by the same three kinds of step. -/
theorem stepKeepsPipelineOrder : Obligations.StepKeepsPipelineOrder := by
  intro s t hflags hrunning hstep
  rcases step_cases hstep with ⟨i, hturn, hd, rfl⟩ | ⟨rest, _, _, rfl⟩ | ⟨_, hquiet⟩
  · have hc := check_running hrunning hturn hd
    exact ⟨by simpa using flagsGood_flagsAfter hc hflags, nofun⟩
  · exact ⟨(inv_afterReset _ _ _ _).flags, nofun⟩
  · exact ⟨hquiet.flags ▸ hflags, hquiet.runningGood hrunning⟩

/-- Settles O55: after a reset no flag is set and no byte is written, so nothing is claimed of memory. -/
theorem invariantAtReset : Obligations.InvariantAtReset :=
  ⟨inv_afterReset _ _ _ _, inv_afterReset⟩

/-- Settles O51, by the three kinds of step: only the quiet one is neither a completion nor a reset, and it keeps the flags. -/
theorem onlyCompletionAndResetWriteFlags : Obligations.OnlyCompletionAndResetWriteFlags := by
  intro s t hstep
  rcases step_cases hstep with ⟨i, hturn, _, rfl⟩ | ⟨rest, _, hhost, rfl⟩ | ⟨_, hquiet⟩
  · exact ⟨effectOf_params i s, fun _ => .inl hturn⟩
  · exact ⟨rfl, fun _ => .inr ⟨rest, hhost⟩⟩
  · exact ⟨hquiet.params, fun hne => absurd hquiet.flags hne⟩

/-- A byte that a command changes is in the window the command writes. -/
theorem effectOf_changed {i : Instr} {s : State} {a : Nat} (h : readByte (effectOf i s) a ≠ readByte s a) :
    ∃ w, writesTo i = some w ∧ inWindow s.params w a := by
  by_contra hnone
  exact h (effectOf_outside fun w hw => Bool.eq_false_iff.mpr fun ha => hnone ⟨w, hw, contains_iff.mp ha⟩)

/-- Settles O49: a completion changes only the window of its command, a quiet step only IN, and a reset raises the epoch. -/
theorem eachMemoryHasItsWriters : Obligations.EachMemoryHasItsWriters := by
  intro s t a hstep hepoch hne
  rcases step_cases hstep with ⟨i, hturn, hd, rfl⟩ | ⟨rest, _, _, rfl⟩ | ⟨hturn, hquiet⟩
  · refine .inr ⟨hturn, i, hd, ?_⟩
    obtain ⟨w, hw, ha⟩ := effectOf_changed hne
    cases i with
    | nop => cases hw
    | basisgen => cases hw; exact .inl ⟨rfl, ha⟩
    | dctf m => cases hw; exact .inr (.inl ⟨⟨m, .inl rfl⟩, ha⟩)
    | dwtf m => cases hw; exact .inr (.inl ⟨⟨m, .inr rfl⟩, ha⟩)
    | zzsel m => cases hw; exact .inr (.inr (.inl ⟨⟨m, .inl rfl⟩, ha⟩))
    | dwtselr m => cases hw; exact .inr (.inr (.inl ⟨⟨m, .inr (.inl rfl)⟩, ha⟩))
    | dwtselb m => cases hw; exact .inr (.inr (.inl ⟨⟨m, .inr (.inr rfl)⟩, ha⟩))
    | dcti m => cases hw; exact .inr (.inr (.inr (.inl ⟨⟨m, .inl rfl⟩, ha⟩)))
    | dwti m => cases hw; exact .inr (.inr (.inr (.inl ⟨⟨m, .inr rfl⟩, ha⟩)))
    | asm => cases hw; exact .inr (.inr (.inr (.inr ⟨rfl, ha⟩)))
  · exact absurd hepoch (Nat.succ_ne_self _)
  · obtain ⟨hidle, hin⟩ := hquiet.changed hne
    exact .inl ⟨hturn, hidle, contains_iff.mp hin⟩

/-! ### Completions, command by command -/

/-- The completion of a channel command: the common completion, the flags of its row, and the planes of its mask alone. -/
theorem channel_completion {i : Instr} {s : State} {m : ChanMask} {w : Window} {f : Channel → Plane} (hbusy : s.phase = .busy)
    (h : planesOf i s = some (m, w, f)) :
    ∃ t, exec i s = .next t ∧ t = completed s t.flags t.mem ∧ t.flags = flagsAfter i s.flags
      ∧ (∀ ch r c, m.has ch = true → r < side s.params → c < side s.params → element t w ch r c = (f ch).at r c)
      ∧ sameOutsidePlanes m w s t := by
  refine ⟨_, exec_busy hbusy i, ?_, by simp, fun ch r c hm hr hc => ?_, fun a ha => effectOf_outside_planes h ha⟩
  · rw [finish_effectOf]
    rfl
  · unfold element
    rw [finish_params, effectOf_params, readF64_finish]
    exact effectOf_element h hm hr hc

theorem forwardFlags_flagsForward (m : ChanMask) (k : Kind) (f : StatusFlags) : forwardFlags m k f (flagsForward m k f) := by
  simp [forwardFlags]

theorem selectFlags_flagsSelect (m : ChanMask) (k : Kind) (f : StatusFlags) : selectFlags m k f (flagsSelect m k f) := by
  simp [selectFlags]

theorem inverseFlags_flagsInverse (m : ChanMask) (f : StatusFlags) : inverseFlags m f (flagsInverse m f) := by
  simp [inverseFlags]

/-- Settles O14, by the elements of `zigzagSelect`. -/
theorem zzselCompletes : Obligations.ZzselCompletes := by
  intro s m hbusy
  obtain ⟨t, hexec, hframe, hflags, helement, hout⟩ := channel_completion (i := .zzsel m) hbusy rfl
  refine ⟨t, hexec, hframe, hflags ▸ selectFlags_flagsSelect m .dct s.flags, fun ch r c hm hr hc => ?_, hout⟩
  rw [helement ch r c hm hr hc, zigzagSelect_at _ hr hc, coefPlane_at s .freq ch hr hc]
  rfl

/-- Settles O16, by the elements of `dwtForward`; the recursion of `forwardLevels` is its definition. -/
theorem dwtfCompletes : Obligations.DwtfCompletes := by
  refine ⟨fun s m hbusy => ?_, fun _ => rfl, fun _ _ _ => ⟨rfl, rfl⟩⟩
  obtain ⟨t, hexec, hframe, hflags, helement, hout⟩ := channel_completion (i := .dwtf m) hbusy rfl
  exact ⟨t, hexec, hframe, hflags ▸ forwardFlags_flagsForward m .dwt s.flags, helement, hout⟩

/-- Settles O17, by the elements of `radiusSelect`. -/
theorem dwtselrCompletes : Obligations.DwtselrCompletes := by
  intro s m hbusy
  obtain ⟨t, hexec, hframe, hflags, helement, hout⟩ := channel_completion (i := .dwtselr m) hbusy rfl
  refine ⟨t, hexec, hframe, hflags ▸ selectFlags_flagsSelect m .dwt s.flags, fun ch r c hm hr hc => ?_, hout⟩
  rw [helement ch r c hm hr hc, radiusSelect_at _ hr hc, coefPlane_at s .freq ch hr hc]
  rfl

theorem blockKept_iff {p : Params} {q br bc : Nat} :
    blockKept p q br bc = true ↔ ∃ e ∈ (mbPriority p).take q, e.1.val = br ∧ e.2.val = bc := by
  simp only [blockKept, List.any_eq_true, decide_eq_true_eq]

/-- Settles O18, by the elements of `blockSelect`. -/
theorem dwtselbCompletes : Obligations.DwtselbCompletes := by
  intro s m hbusy
  obtain ⟨t, hexec, hframe, hflags, helement, hout⟩ := channel_completion (i := .dwtselb m) hbusy rfl
  refine ⟨t, hexec, hframe, hflags ▸ selectFlags_flagsSelect m .dwt s.flags, fun ch r c hm hr hc => ?_, hout⟩
  rw [helement ch r c hm hr hc, blockSelect_at _ hr hc, coefPlane_at s .freq ch hr hc]
  exact ⟨fun hkept => if_pos (blockKept_iff.mpr hkept), fun hcut => if_neg (mt blockKept_iff.mp hcut)⟩

/-- Settles O19, by the elements of `dwtInverse`; the recursion of `inverseLevels` is its definition. -/
theorem dwtiCompletes : Obligations.DwtiCompletes := by
  refine ⟨fun s m hbusy => ?_, fun _ _ _ => ⟨rfl, rfl⟩⟩
  obtain ⟨t, hexec, hframe, hflags, helement, hout⟩ := channel_completion (i := .dwti m) hbusy rfl
  refine ⟨t, hexec, hframe, hflags ▸ inverseFlags_flagsInverse m s.flags, fun ch r c hm hr hc => ?_, hout⟩
  rw [helement ch r c hm hr hc, dwtInverse_at _ hr hc]
  rfl

theorem not_contains_of_not_inWindow {p : Params} {w : Window} {a : Nat} (h : ¬ inWindow p w a) :
    w.contains p a = false :=
  Bool.eq_false_iff.mpr fun ha => h (contains_iff.mp ha)

/-- Settles O20, by the bytes of OUT after ASM. -/
theorem asmCompletes : Obligations.AsmCompletes := by
  intro s hbusy
  refine ⟨_, exec_busy hbusy .asm, rfl, fun ch r c hr hc => asm_output s ch (idx_join hr hc).1, fun a ha => ?_⟩
  exact asm_outside (not_contains_of_not_inWindow ha)

/-- The 64 entries of each table are the cosines of R86, the angle folded into a quarter turn. -/
theorem basisTable_entry (p : Params) {k i : Nat} (hk : k < 8) (hi : i < 8) : (basisTable p).at k i = basisEntry p k i := by
  have entries4 : ∀ k i : Fin 8, basisTable4.at k i = cosine ((2 * i + 1) * k) := by decide
  have entries2 : ∀ k i : Fin 8, basisTable2.at k i = cosine (2 * ((2 * i + 1) * k)) := by decide
  unfold basisTable basisEntry
  cases p.basisDiv
  · exact entries2 ⟨k, hk⟩ ⟨i, hi⟩
  · exact entries4 ⟨k, hk⟩ ⟨i, hi⟩

/-- Settles O12: U and V hold the table, and the table holds the cosines. -/
theorem basisgenCompletes : Obligations.BasisgenCompletes := by
  intro s hbusy
  refine ⟨_, exec_busy hbusy .basisgen, rfl, fun k i hk hi => ⟨basisgen_U s hk hi, basisgen_V s hk hi⟩,
    fun k i hk hi => ?_, fun a ha => basisgen_outside (not_contains_of_not_inWindow ha)⟩
  rw [← basisTable_entry s.params hk hi]
  exact ⟨basisgen_U s hk hi, basisgen_V s hk hi⟩

/-- Settles O50, by the frame of a channel outside the mask. -/
theorem otherChannelsAreUntouched : Obligations.OtherChannelsAreUntouched := by
  intro s t i m ch hbusy hi hm hexec
  have hout : ∀ m', i.mask? = some m' → m'.has ch = false := fun m' hi' =>
    Option.some.inj (hi.symm.trans hi') ▸ hm
  rw [exec_busy hbusy] at hexec
  cases hexec
  obtain ⟨hfkind, hskind, hrvalid⟩ := flagsAfter_untouched hout s.flags
  refine ⟨by simpa using hfkind, by simpa using hskind, by simpa using hrvalid, fun w r c hw hr hc => ?_⟩
  have hcoef : w.isCoef = true := by rcases hw with rfl | rfl | rfl <;> rfl
  unfold element
  rw [finish_params, effectOf_params, readF64_finish]
  exact effectOf_untouched hout hcoef (idx_join hr hc).1

/-! ### Issue, and the latched budget -/

/-- Settles O5: when the completion is due it is the engine's turn. -/
theorem stepCompletesRunningCommand : Obligations.StepCompletesRunningCommand := by
  intro s i hbusy hdue hd
  have hturn : engineTurn s = true := by simpa [engineTurn, busyBit, hbusy] using hdue
  rw [step, if_pos hturn, engineStep, hd]

/-- Settles O8, by the acceptance half of `issue`. -/
theorem acceptanceChangesNothingElse : Obligations.AcceptanceChangesNothingElse := by
  intro s i hidle hc
  rw [exec_idle hidle, issue, hc]
  rfl

/-- A completion neither reads nor writes BUDGET (R34). -/
theorem completion_writeBudget (b : Word) (i : Instr) (s : State) :
    finish (effectOf i (writeBudget b s)) = writeBudget b (finish (effectOf i s)) := by
  have hsame : SameOperands s (writeBudget b s) := ⟨rfl, rfl, rfl, rfl⟩
  rw [finish_effectOf, finish_effectOf, effectOf_mem_congr hsame]
  rfl

/-- Settles O48: acceptance copies BUDGET, a rejection stays in IDLE, and no operand of a completion is BUDGET. -/
theorem budgetIsLatched : Obligations.BudgetIsLatched := by
  refine ⟨fun s t i hidle hexec hbusy => ?_, fun s t i b hbusy hexec => ?_⟩
  · rw [exec_idle hidle] at hexec
    cases hexec
    rcases issue_cases i s with ⟨_, he⟩ | ⟨e, _, he⟩ <;> rw [he] at hbusy ⊢
    · rfl
    · exact absurd (hidle.symm.trans hbusy) (by decide)
  · rw [exec_busy hbusy] at hexec
    cases hexec
    exact (exec_busy (s := writeBudget b s) hbusy i).trans (congrArg Host.Outcome.next (completion_writeBudget b i s))

/-! ### The register block and reads -/

/-- The aligned offsets from 0x100 to 0x1FF are the MBPRIO registers (R20). -/
theorem regAt_mbprio {a : Nat} (hlow : 0x100 ≤ a) (hhigh : a < 0x200) (h4 : a % 4 = 0) :
    regAt a = some (.mbprio ((a - 0x100) / 4)) := by
  unfold regAt
  split
  case h_11 => exact if_pos ⟨hlow, hhigh, h4⟩
  all_goals omega

theorem regAt_of_registerOffset {a : Nat} (h : registerOffset a) : ∃ r, regAt a = some r := by
  rcases h with hfixed | ⟨hlow, hhigh, h4⟩
  · simp only [List.mem_cons, List.not_mem_nil, or_false] at hfixed
    rcases hfixed with rfl | rfl | rfl | rfl | rfl | rfl | rfl | rfl | rfl | rfl <;> exact ⟨_, rfl⟩
  · exact ⟨_, regAt_mbprio hlow hhigh h4⟩

/-- A word read of a register, in either phase (R60). -/
theorem read32_register {s : State} {a : Word} {r : Reg} (h4 : a.toNat % 4 = 0) (hr : regAt a.toNat = some r) :
    hostEvent (.read32 a) s = .next { s with response := .word (readReg s r) } := by
  simp only [hostEvent, busRead32, wordTarget_reg_iff.mpr ⟨h4, hr⟩]
  rfl

/-- A word read of a window, in IDLE (R48, R59). -/
theorem read32_window {s : State} {a : Word} {w : Window} (h4 : a.toNat % 4 = 0) (hidle : s.phase = .idle)
    (ha : w.contains s.params a.toNat = true) :
    hostEvent (.read32 a) s = .next { s with response := .word (readWord s a.toNat) } := by
  simp only [hostEvent, busRead32, wordTarget_window_iff.mpr ⟨h4, hidle, ha⟩]
  rfl

/-- A byte read of IN or OUT, in IDLE (R55). -/
theorem read8_window {s : State} {a : Word} {w : Window} (hw : w.byteReadable = true) (hidle : s.phase = .idle)
    (ha : w.contains s.params a.toNat = true) :
    hostEvent (.read8 a) s = .next { s with response := .byte (readByte s a.toNat) } := by
  simp only [hostEvent, busRead8, byteTarget_iff.mpr ⟨hidle, ha⟩, hw, if_true]
  rfl

theorem registerOffset_lt {a : Nat} (h : registerOffset a) : a < 0x1000 := by
  obtain ⟨_, hr⟩ := regAt_of_registerOffset h
  exact regAt_lt hr

/-- Settles O37: below 0x1000 only a register can be legal, from there on only a window. -/
theorem legalReadsHaveNoSideEffect : Obligations.LegalReadsHaveNoSideEffect := by
  refine fun s a => ⟨fun ⟨h4, hlegal⟩ hlow => ?_, fun ⟨h4, hlegal⟩ hhigh => ?_, fun ⟨hidle, hlegal⟩ => ?_⟩
  · rcases hlegal with hreg | ⟨_, w, hw⟩
    · obtain ⟨r, hr⟩ := regAt_of_registerOffset hreg
      exact ⟨r, hr, read32_register h4 hr⟩
    · exact absurd hlow (Nat.not_lt.mpr (window_above_registers (contains_iff.mpr hw)))
  · rcases hlegal with hreg | ⟨hidle, w, hw⟩
    · exact absurd (registerOffset_lt hreg) (Nat.not_lt.mpr hhigh)
    · exact read32_window h4 hidle (contains_iff.mpr hw)
  · rcases hlegal with hin | hout
    · exact read8_window (w := .input) rfl hidle (contains_iff.mpr hin)
    · exact read8_window (w := .output) rfl hidle (contains_iff.mpr hout)

/-- Settles O41: each write goes to its register's own operation. -/
theorem registerWrites : Obligations.RegisterWrites :=
  fun _ _ => ⟨rfl, rfl, rfl, rfl⟩

/-- Settles O42: the ten fixed registers by the map, MBPRIO[k] by its offset. -/
theorem registerReads : Obligations.RegisterReads := by
  refine fun s => ⟨rfl, rfl, rfl, rfl, rfl, rfl, rfl, rfl, rfl, rfl, fun k hk => ?_⟩
  have ha : (BitVec.ofNat 32 (0x100 + 4 * k)).toNat = 0x100 + 4 * k := by
    rw [BitVec.toNat_ofNat]
    omega
  have hr : regAt (0x100 + 4 * k) = some (.mbprio k) := by
    rw [regAt_mbprio (by omega) (by omega) (by omega)]
    congr 2
    omega
  exact read32_register (by omega) (ha ▸ hr)

/-! ### The fields of the flag words -/

/-- STATUS, field by field (R24). -/
theorem statusWord_fields (s : State) :
    (statusWord s).getLsbD 0 = decide (s.phase = .busy)
      ∧ (statusWord s).getLsbD 1 = s.flags.basisValid
      ∧ (statusWord s).getLsbD 2 = s.flags.outValid
      ∧ (∀ ch, (statusWord s).extractLsb' (3 + 2 * Channel.index ch) 2 = kindBits (s.flags.fkind.get ch))
      ∧ (∀ ch, (statusWord s).extractLsb' (9 + 2 * Channel.index ch) 2 = kindBits (s.flags.skind.get ch))
      ∧ (∀ ch, (statusWord s).getLsbD (15 + Channel.index ch) = s.flags.rvalid.get ch)
      ∧ (statusWord s).extractLsb' 18 14 = 0 := by
  unfold statusWord
  refine ⟨?_, ?_, ?_, fun ch => ?fkind, fun ch => ?skind, fun ch => ?rvalid, ?high⟩
  case fkind | skind =>
    cases ch <;>
      simp (disch := decide) only [BitVec.extractLsb'_append_eq_of_le, BitVec.extractLsb'_append_eq_of_add_le] <;>
      exact BitVec.extractLsb'_eq_self
  case rvalid => cases ch <;> simp only [BitVec.getLsbD_append] <;> simp [PerChan.get, Channel.index]
  case high => simp (disch := decide) only [BitVec.extractLsb'_append_eq_of_le]; simp
  all_goals simp only [BitVec.getLsbD_append]; simp [busyBit]

/-- ERR, field by field (R26). -/
theorem errWord_fields (s : State) :
    (errWord s).extractLsb' 0 4 = codeBits s.err.code
      ∧ (errWord s).extractLsb' 4 4 = 0
      ∧ (errWord s).extractLsb' 8 8 = s.err.opc
      ∧ (errWord s).getLsbD 16 = s.err.ovr
      ∧ (errWord s).getLsbD 17 = s.err.acc
      ∧ (errWord s).extractLsb' 18 14 = 0 := by
  unfold errWord
  simp (disch := decide) only [BitVec.getLsbD_append, BitVec.extractLsb'_append_eq_of_le,
    BitVec.extractLsb'_append_eq_of_add_le]
  simp

/-- IRQ_EN and IRQ_PEND, field by field (R27, R28). -/
theorem irqWord_fields (b : IrqBits) :
    (irqWord b).getLsbD 0 = b.done ∧ (irqWord b).getLsbD 1 = b.err ∧ (irqWord b).extractLsb' 2 30 = 0 := by
  unfold irqWord
  simp (disch := decide) only [BitVec.getLsbD_append, BitVec.extractLsb'_append_eq_of_le]
  simp

/-- Settles O43, by the place of each field in the word that concatenates them. -/
theorem statusAndErrFields : Obligations.StatusAndErrFields := by
  refine ⟨fun s => ?_, ⟨rfl, rfl, rfl⟩, ⟨rfl, rfl, rfl, rfl, rfl, rfl, rfl⟩, fun _ => rfl, irqWord_fields⟩
  obtain ⟨hbusy, hbasis, hout, hfkind, hskind, hrvalid, hhigh⟩ := statusWord_fields s
  exact ⟨hbusy, hbasis, hout, hfkind, hskind, hrvalid, hhigh, errWord_fields s⟩

/-! ### Reset -/

/-- The words of a reset state are those of `State.reset`, and each is 0 there (R44). -/
theorem resetEvent_words (s : State) :
    statusWord (resetEvent s) = 0 ∧ errWord (resetEvent s) = 0 ∧ irqWord (resetEvent s).irqEn = 0
      ∧ irqWord (resetEvent s).irqPend = 0 := by
  have hstatus : statusWord (resetEvent s) = statusWord State.reset := rfl
  have herr : errWord (resetEvent s) = errWord State.reset := rfl
  rw [hstatus, herr, resetEvent_irqEn, resetEvent_irqPend]
  decide

/-- Settles O46: every register of the reset state is a constant, and no byte is written. -/
theorem resetEventLeavesTheResetState : Obligations.ResetEventLeavesTheResetState := by
  intro s
  obtain ⟨hstatus, herr, hen, hpend⟩ := resetEvent_words s
  exact ⟨resetEvent s, rfl, hstatus, rfl, herr, hen, hpend, rfl, rfl, rfl, rfl, rfl, fun _ => rfl⟩

/-- No channel of a non-empty mask passes a check that always fails. -/
theorem everyChannel_false {m : ChanMask} (hm : m.nonempty = true) : everyChannel m (fun _ => false) = false := by
  obtain ⟨r, g, b⟩ := m
  revert hm r g b
  decide

theorem afterReset_kind (p : Params) (e n : Nat) (host : List HostEvent) (ch : Channel) :
    (State.afterReset p e n host).flags.fkind.get ch = .none ∧ (State.afterReset p e n host).flags.skind.get ch = .none := by
  cases ch <;> exact ⟨rfl, rfl⟩

/-- Settles O47: after a reset no flag is set and every kind is NONE. -/
theorem afterResetOnlySourceCommandsRun : Obligations.AfterResetOnlySourceCommandsRun := by
  intro p e n host m hm s
  have hfkind : ∀ ch, s.flags.fkind.get ch = .none := fun ch => (afterReset_kind p e n host ch).1
  have hskind : ∀ ch, s.flags.skind.get ch = .none := fun ch => (afterReset_kind p e n host ch).2
  have hbasis : s.flags.basisValid = false := rfl
  refine ⟨rfl, rfl, check_dwtf_eq_none.mpr hm, ?_, ?_, ?_, ?_, ?_, ?_, rfl⟩ <;>
    simp [check, firstError, needChannel, needBasis, needFreqKind, needSelKind, require, hm, hbasis, hfkind, hskind,
      everyChannel_false hm]

end Sys2Proof.Proofs
end

section
/-! SUPPORT. The statements of `20_memory.md`: the accesses of the bus and what they store and return, the events that may come
beside a running command, and what every step keeps. -/

open Sys2Proof Sys2Proof.Machine Sys2Proof.Claims

namespace Sys2Proof.Proofs

/-! ### Elements and words (R48, R49) -/

theorem natOfBytesLE_append (xs ys : List Byte) :
    natOfBytesLE (xs ++ ys) = natOfBytesLE xs + 256 ^ xs.length * natOfBytesLE ys := by
  induction xs with
  | nil => simp [natOfBytesLE]
  | cons x xs ih =>
    rw [List.cons_append, natOfBytesLE, natOfBytesLE, ih, List.length_cons, Nat.pow_succ]
    ring

theorem natOfBytesLE_lt (xs : List Byte) : natOfBytesLE xs < 256 ^ xs.length := by
  induction xs with
  | nil => decide
  | cons x xs ih =>
    have hx := x.isLt
    rw [natOfBytesLE, List.length_cons, Nat.pow_succ]
    omega

@[simp] theorem readBytes_length (s : State) (a n : Nat) : (readBytes s a n).length = n := by
  simp [readBytes]

theorem readBytes_add (s : State) (a m n : Nat) : readBytes s a (m + n) = readBytes s a m ++ readBytes s (a + m) n := by
  simp [readBytes, List.range_add, Nat.add_assoc]

theorem readWord_toNat (s : State) (a : Nat) : (readWord s a).toNat = natOfBytesLE (readBytes s a 4) := by
  have hlt := natOfBytesLE_lt (readBytes s a 4)
  rw [readBytes_length] at hlt
  exact Nat.mod_eq_of_lt hlt

/-- The number of an element, from its low and its high word (R49). -/
theorem readF64_toNat (s : State) (e : Nat) :
    (readF64 s e).toNat = (readWord s e).toNat + 2 ^ 32 * (readWord s (e + 4)).toNat := by
  have hbytes : natOfBytesLE (readBytes s e 8) = (readWord s e).toNat + 2 ^ 32 * (readWord s (e + 4)).toNat := by
    rw [readBytes_add s e 4 4, natOfBytesLE_append, readBytes_length, readWord_toNat, readWord_toNat,
      show (256 : Nat) ^ 4 = 2 ^ 32 by decide]
  have hlow := (readWord s e).isLt
  have hhigh := (readWord s (e + 4)).isLt
  rw [readF64, BitVec.toNat_ofNat, hbytes]
  omega

/-- Settles O39, by the numbers of the element and of its two words. -/
theorem elementIsTwoWordsLowFirst : Obligations.ElementIsTwoWordsLowFirst := by
  intro s e
  have helement := readF64_toNat s e
  have hlow := (readWord s e).isLt
  have hhigh := (readWord s (e + 4)).isLt
  constructor <;>
  · refine BitVec.eq_of_toNat_eq ?_
    rw [toNat_field]
    omega

/-- Every window lies in the 32-bit address space (R50). -/
theorem window_below_top {p : Params} {w : Window} {a : Nat} (h : w.contains p a = true) : a < 2 ^ 32 := by
  have hside := side_sq_le p
  obtain ⟨_, hhigh⟩ := contains_iff.mp h
  cases w <;> simp only [Window.base, Window.size] at hhigh <;> omega

/-- A word read of a window, at an address given as a number. -/
theorem read32_window_ofNat {s : State} {a : Nat} {w : Window} (h4 : a % 4 = 0) (hidle : s.phase = .idle)
    (ha : w.contains s.params a = true) :
    hostEvent (.read32 (BitVec.ofNat 32 a)) s = .next { s with response := .word (readWord s a) } := by
  have htoNat : (BitVec.ofNat 32 a).toNat = a := Nat.mod_eq_of_lt (window_below_top ha)
  have hread := read32_window (s := s) (a := BitVec.ofNat 32 a) (w := w)
  rw [htoNat] at hread
  exact hread h4 hidle ha

theorem elemAddr_aligned {p : Params} {w : Window} (ch : Channel) (idx : Nat) : elemAddr p w ch idx % 4 = 0 := by
  have hbase : w.base % 4 = 0 := by cases w <;> rfl
  unfold elemAddr
  omega

/-- Settles O40: both words of an element lie in its window, and they are its halves. -/
theorem coefficientWindowsReadTheirElements : Obligations.CoefficientWindowsReadTheirElements := by
  intro s w ch r c hidle hw hr hc e
  have hcoef : w.isCoef = true := by rcases hw with rfl | rfl | rfl <;> rfl
  have hidx := (idx_join hr hc).1
  have h4 : e % 4 = 0 := elemAddr_aligned ch _
  obtain ⟨hlow, hhigh⟩ := elementIsTwoWordsLowFirst s e
  unfold element
  rw [← hlow, ← hhigh]
  exact ⟨read32_window_ofNat h4 hidle (elem_in_window hcoef ch hidx (i := 0) (by decide)),
    read32_window_ofNat (by omega) hidle (elem_in_window hcoef ch hidx (by decide))⟩

/-! ### Writes to IN (R51, R55, R61) -/

/-- An aligned word write to IN, in IDLE. -/
theorem write32_input {s : State} {a v : Word} (h4 : a.toNat % 4 = 0) (hidle : s.phase = .idle)
    (ha : Window.contains s.params .input a.toNat = true) :
    hostEvent (.write32 a v) s = .next (storeBytes (respond .none s) a.toNat (bytesLE v 4)) := by
  have htarget : wordTarget (respond .none s) a.toNat = some (.window .input) := wordTarget_window_iff.mpr ⟨h4, hidle, ha⟩
  simp only [hostEvent, busWrite32, htarget, writeWindow]

/-- A byte write to IN, in IDLE. -/
theorem write8_input {s : State} {a : Word} {b : Byte} (hidle : s.phase = .idle)
    (ha : Window.contains s.params .input a.toNat = true) :
    hostEvent (.write8 a b) s = .next (storeBytes (respond .none s) a.toNat [b]) := by
  have htarget : byteTarget (respond .none s) a.toNat = some .input := byteTarget_iff.mpr ⟨hidle, ha⟩
  simp only [hostEvent, busWrite8, htarget, writeWindow]

/-- The bytes of a stored value are read back least significant first (R48). -/
theorem readByte_storeBytes_bytesLE (s : State) (a : Nat) {w n i : Nat} (v : BitVec w) (hi : i < n) :
    readByte (storeBytes s a (bytesLE v n)) (a + i) = v.extractLsb' (8 * i) 8 := by
  have hin : a ≤ a + i ∧ a + i < a + (bytesLE v n).length := by rw [bytesLE_length]; omega
  rw [readByte_storeBytes, if_pos hin, Nat.add_sub_cancel_left, List.getD_eq_getElem?_getD, bytesLE_getElem? v hi,
    Option.getD_some]

/-- Settles O38, by the reads after a store. -/
theorem inputWritesStoreTheirBytes : Obligations.InputWritesStoreTheirBytes := by
  intro s a v b hidle ha
  have hin : Window.contains s.params .input a.toNat = true := contains_iff.mpr ha
  refine ⟨fun h4 => ?word, ?byte⟩
  case word =>
    have hbyte : ∀ i < 4, readByte (storeBytes (respond .none s) a.toNat (bytesLE v 4)) (a.toNat + i)
        = v.extractLsb' (8 * i) 8 :=
      fun i hi => readByte_storeBytes_bytesLE _ _ v hi
    refine ⟨_, write32_input h4 hidle hin, rfl, hbyte 0 (by decide), hbyte 1 (by decide), hbyte 2 (by decide),
      hbyte 3 (by decide), readWord_of_bytes hbyte, fun x hx => ?_⟩
    exact readByte_storeBytes_outside (by rw [bytesLE_length]; omega)
  case byte =>
    refine ⟨_, write8_input hidle hin, rfl, ?_, fun x hx => ?_⟩
    · simp [readByte_storeBytes]
    · exact readByte_storeBytes_outside (by rw [List.length_singleton]; omega)

/-! ### Access errors (R58) -/

/-- The offset of a register in the map of R20. -/
def regOffset : Reg → Nat
  | .id => 0x000
  | .param => 0x004
  | .cmd => 0x008
  | .status => 0x00C
  | .budget => 0x010
  | .err => 0x014
  | .irqEn => 0x018
  | .irqPend => 0x01C
  | .lastCmd => 0x020
  | .accAddr => 0x024
  | .mbprio k => 0x100 + 4 * k

/-- Where a register is found, the offset is one of the map of R20, and it is that register's. -/
theorem regAt_some {a : Nat} {r : Reg} (h : regAt a = some r) : registerOffset a ∧ a = regOffset r := by
  unfold regAt at h
  split at h
  case h_11 =>
    split at h
    case isTrue hmap =>
      cases h
      refine ⟨.inr hmap, ?_⟩
      simp only [regOffset]
      omega
    case isFalse => cases h
  all_goals
    cases h
    exact ⟨.inl (by decide), rfl⟩

/-- A word access that reaches something is legal as a read (R20, R50, R56, R59). -/
theorem wordReadLegal_of_target {s : State} {a : Nat} {x : Target} (h : wordTarget s a = some x) : wordReadLegal s a := by
  cases x with
  | reg r =>
    obtain ⟨h4, hr⟩ := wordTarget_reg_iff.mp h
    exact ⟨h4, .inl (regAt_some hr).1⟩
  | window w =>
    obtain ⟨h4, hidle, ha⟩ := wordTarget_window_iff.mp h
    exact ⟨h4, .inr ⟨hidle, w, contains_iff.mp ha⟩⟩

theorem read32_illegal {s : State} {a : Word} (h : ¬ wordReadLegal s a.toNat) :
    hostEvent (.read32 a) s = .next (accessErred a (.word 0) s) := by
  cases hx : wordTarget s a.toNat with
  | some x => exact absurd (wordReadLegal_of_target hx) h
  | none =>
    simp only [hostEvent, busRead32, hx]
    rfl

/-- A byte read reaches no window but IN and OUT (R55). -/
theorem byteReadLegal_of_target {s : State} {a : Nat} {w : Window} (h : byteTarget s a = some w) (hw : w.byteReadable = true) :
    byteReadLegal s a := by
  obtain ⟨hidle, ha⟩ := byteTarget_iff.mp h
  refine ⟨hidle, ?_⟩
  cases w with
  | input => exact .inl (contains_iff.mp ha)
  | output => exact .inr (contains_iff.mp ha)
  | basis | freq | sel | recon => cases hw

theorem read8_illegal {s : State} {a : Word} (h : ¬ byteReadLegal s a.toNat) :
    hostEvent (.read8 a) s = .next (accessErred a (.byte 0) s) := by
  simp only [hostEvent, busRead8]
  split
  case h_1 w hw =>
    split
    case isTrue hread => exact absurd (byteReadLegal_of_target hw hread) h
    case isFalse => rfl
  case h_2 => rfl

/-- The host writes no window but IN (R55). -/
theorem writeWindow_of_ne_input {w : Window} (hw : w ≠ .input) (a : Word) (bs : List Byte) (s : State) :
    writeWindow a bs w s = accessError a s := by
  cases w with
  | input => exact absurd rfl hw
  | output | basis | freq | sel | recon => rfl

theorem write8_illegal {s : State} {a : Word} {b : Byte} (h : ¬ byteWriteLegal s a.toNat) :
    hostEvent (.write8 a b) s = .next (accessErred a .none s) := by
  simp only [hostEvent, busWrite8]
  split
  case h_1 w hw =>
    obtain ⟨hidle, ha⟩ := byteTarget_iff.mp hw
    have hne : w ≠ .input := by
      rintro rfl
      exact h ⟨hidle, contains_iff.mp ha⟩
    rw [writeWindow_of_ne_input hne]
    rfl
  case h_2 => rfl

/-- A register that a write finds read-only is none of the five writable ones (R20). -/
theorem writeReg_readOnly {r : Reg} (hr : readOnlyOffset (regOffset r)) (a v : Word) (s : State) :
    writeReg a v r s = .next (accessError a s) := by
  cases r with
  | cmd | budget | err | irqEn | irqPend => exact absurd hr (by unfold readOnlyOffset; decide)
  | id | param | status | lastCmd | accAddr | mbprio k => rfl

theorem write32_illegal {s : State} {a v : Word} (h : ¬ wordWriteLegal s a.toNat) :
    hostEvent (.write32 a v) s = .next (accessErred a .none s) := by
  simp only [hostEvent, busWrite32]
  split
  case h_1 r hr =>
    obtain ⟨h4, hr⟩ := wordTarget_reg_iff.mp hr
    obtain ⟨hmap, hoffset⟩ := regAt_some hr
    have hreadOnly : readOnlyOffset a.toNat := by
      by_contra hwritable
      exact h ⟨h4, .inl ⟨hmap, hwritable⟩⟩
    rw [writeReg_readOnly (hoffset ▸ hreadOnly)]
    rfl
  case h_2 w hw =>
    obtain ⟨h4, hidle, ha⟩ := wordTarget_window_iff.mp hw
    have hne : w ≠ .input := by
      rintro rfl
      exact h ⟨h4, .inr ⟨hidle, contains_iff.mp ha⟩⟩
    rw [writeWindow_of_ne_input hne]
    rfl
  case h_3 => rfl

/-- Settles O36, one kind of access at a time: whatever an access reaches is legal, or its write is refused. -/
theorem accessErrorsRecordAndChangeNothingElse : Obligations.AccessErrorsRecordAndChangeNothingElse :=
  fun _ _ _ _ => ⟨read32_illegal, read8_illegal, write32_illegal, write8_illegal⟩

/-! ### Command words (R70, R73) -/

theorem opc_of_opcForm_plain {o : Nat} {i : Instr} (h : opcForm o = some (.plain i)) : i.opc.toNat = o ∧ i.chBits = 0 := by
  unfold opcForm at h
  split at h <;> cases h <;> exact ⟨rfl, rfl⟩

theorem opc_of_opcForm_channel {o : Nat} {mk : ChanMask → Instr} (h : opcForm o = some (.channel mk)) (m : ChanMask) :
    (mk m).opc.toNat = o ∧ (mk m).chBits = m.bits := by
  unfold opcForm at h
  split at h <;> cases h <;> exact ⟨rfl, rfl⟩

/-- A decoded word is the encoding of its command: the decoder ignores no bit. -/
theorem encode_of_decode {w : Word} {i : Instr} (h : decode w = .ok i) : encode i = w := by
  obtain ⟨hrsv, hform⟩ := decode_ok h
  have hfields : i.opc.toNat = (opcField w).toNat ∧ i.chBits = chField w := by
    rcases hform with ⟨hplain, hch⟩ | ⟨mk, hchannel, rfl⟩
    · obtain ⟨hopc, hbits⟩ := opc_of_opcForm_plain hplain
      exact ⟨hopc, hbits.trans hch.symm⟩
    · obtain ⟨hopc, hbits⟩ := opc_of_opcForm_channel hchannel (.ofBits (chField w))
      exact ⟨hopc, hbits.trans (ChanMask.bits_ofBits _)⟩
  obtain ⟨hopc, hbits⟩ := hfields
  exact word_ext ((rsvField_encode i).trans hrsv.symm) ((chField_encode i).trans hbits)
    ((opcField_encode i).trans (BitVec.eq_of_toNat_eq hopc))

/-! ### BUSY (R64, R76, R77, R160) -/

/-- What a host event other than a reset leaves of a running command: it goes on running, with its operands as they were. -/
structure StillRunning (s t : State) : Prop where
  phase : t.phase = .busy
  curCmd : t.curCmd = s.curCmd
  curBudget : t.curBudget = s.curBudget
  mem : t.mem = s.mem
  flags : t.flags = s.flags
  delay : t.delay = s.delay
  host : t.host = s.host

theorem hostEvent_stillRunning {e : HostEvent} {s t : State} (hbusy : s.phase = .busy) (he : e ≠ .reset)
    (h : hostEvent e s = .next t) : StillRunning s t := by
  have hepoch := hostEvent_epoch he h
  obtain ⟨t', ht', heff⟩ := hostEvent_effect e s
  obtain rfl : t' = t := by rw [h] at ht'; cases ht'; rfl
  cases heff with
  | reset => exact absurd hepoch (Nat.succ_ne_self _)
  | store _ _ hidle | reject _ _ hidle | issue _ _ hidle => exact absurd (hidle.symm.trans hbusy) (by decide)
  | _ => exact ⟨hbusy, rfl, rfl, rfl, rfl, rfl, rfl⟩

theorem busRead8_phase (a : Word) (s : State) : (busRead8 a s).phase = s.phase := by
  unfold busRead8
  split
  · split <;> rfl
  · rfl

theorem busRead32_phase (a : Word) (s : State) : (busRead32 a s).phase = s.phase := by
  unfold busRead32
  split <;> rfl

theorem writeWindow_phase (a : Word) (bs : List Byte) (w : Window) (s : State) : (writeWindow a bs w s).phase = s.phase := by
  cases w <;> rfl

theorem busWrite8_phase (a : Word) (b : Byte) (s : State) : (busWrite8 a b s).phase = s.phase := by
  unfold busWrite8
  split
  · exact writeWindow_phase _ _ _ _
  · rfl

/-- A write to a register other than CMD leaves PHASE. -/
theorem writeReg_phase {a v : Word} {r : Reg} {s t : State} (hr : r ≠ .cmd) (h : writeReg a v r s = .next t) :
    t.phase = s.phase := by
  cases r with
  | cmd => exact absurd rfl hr
  | _ => cases h; rfl

/-- The one word access that reaches CMD is at its address (R20). -/
theorem eq_cmdAddr_of_target {s : State} {a : Word} (h : wordTarget s a.toNat = some (.reg .cmd)) : a = cmdAddr :=
  BitVec.eq_of_toNat_eq (regAt_some (wordTarget_reg_iff.mp h).2).2

/-- A host event that sets BUSY is a write to CMD. -/
theorem hostEvent_sets_busy {e : HostEvent} {s t : State} (h : hostEvent e s = .next t) (hidle : s.phase = .idle)
    (hbusy : t.phase = .busy) : ∃ w, e = .write32 cmdAddr w ∧ writeCmd w (respond .none s) = .next t := by
  have hchanged : t.phase ≠ s.phase := by rw [hidle, hbusy]; decide
  cases e with
  | read8 a => cases h; exact absurd (busRead8_phase a s) hchanged
  | read32 a => cases h; exact absurd (busRead32_phase a s) hchanged
  | write8 a b => cases h; exact absurd (busWrite8_phase a b (respond .none s)) hchanged
  | reset => cases h; cases hbusy
  | write32 a v =>
    simp only [hostEvent, busWrite32] at h
    split at h
    case h_1 r hr =>
      by_cases hcmd : r = .cmd
      · subst hcmd
        exact ⟨v, by rw [eq_cmdAddr_of_target hr], h⟩
      · exact absurd (writeReg_phase (s := respond .none s) hcmd h) hchanged
    case h_2 w _ => cases h; exact absurd (writeWindow_phase a (bytesLE v 4) w (respond .none s)) hchanged
    case h_3 => cases h; exact absurd rfl hchanged

/-- A word written to CMD in IDLE that sets BUSY is the accepted word (R74, R76). -/
theorem writeCmd_sets_busy {w : Word} {s t : State} (h : writeCmd w s = .next t) (hidle : s.phase = .idle)
    (hbusy : t.phase = .busy) : t.curCmd = w ∧ t.lastCmd = w := by
  unfold writeCmd at h
  rw [hidle] at h
  cases hd : decode w with
  | error e =>
    simp only [hd] at h
    cases h
    exact absurd (hidle.symm.trans hbusy) (by decide)
  | ok i =>
    simp only [hd, exec_idle hidle] at h
    cases h
    rcases issue_cases i s with ⟨_, he⟩ | ⟨_, _, he⟩ <;> rw [he] at hbusy ⊢
    · exact ⟨encode_of_decode hd, encode_of_decode hd⟩
    · exact absurd (hidle.symm.trans hbusy) (by decide)

/-- Settles O52, by the inversion of `step`: only a write to CMD sets BUSY, and of the host's events only a reset clears it. -/
theorem busyChangesOnlyAtItsEvents : Obligations.BusyChangesOnlyAtItsEvents := by
  intro s t hstep
  cases step_effect hstep with
  | complete i hb hturn =>
    exact ⟨fun hidle => absurd (hidle.symm.trans hb) (by decide), fun _ _ => .inl hturn⟩
  | rest =>
    exact ⟨fun hidle hbusy => absurd (hidle.symm.trans hbusy) (by decide),
      fun hbusy hidle => absurd (hidle.symm.trans hbusy) (by decide)⟩
  | host e rest _ hhost _ he =>
    refine ⟨fun hidle hbusy => ?_, fun hbusy hidle => .inr ?_⟩
    · obtain ⟨w, rfl, hw⟩ := hostEvent_sets_busy he hidle hbusy
      exact ⟨w, rest, hhost, writeCmd_sets_busy hw hidle hbusy⟩
    · by_cases hreset : e = .reset
      · exact ⟨rest, hreset ▸ hhost⟩
      · have hrun := (hostEvent_stillRunning (s := takeEvent rest s) hbusy hreset he).phase
        exact absurd (hidle.symm.trans hrun) (by decide)

/-! ### A completion and the host events beside it (R63, R174) -/

/-- An update of the state that touches nothing a completion reads or writes. -/
structure Beside (f : State → State) : Prop where
  phase : ∀ s, (f s).phase = s.phase
  flags : ∀ s, (f s).flags = s.flags
  operands : ∀ s, SameOperands s (f s)
  completed : ∀ s g m, completed (f s) g m = f (completed s g m)

/-- A completion and an update beside it give the same state in either order. -/
theorem Beside.completion_comm {f : State → State} (hf : Beside f) (i : Instr) (s : State) :
    finish (effectOf i (f s)) = f (finish (effectOf i s)) := by
  rw [finish_effectOf, finish_effectOf, effectOf_mem_congr (hf.operands s), hf.flags, hf.completed]

theorem beside_respond (r : Response) : Beside (respond r) :=
  ⟨fun _ => rfl, fun _ => rfl, fun _ => ⟨rfl, rfl, rfl, rfl⟩, fun _ _ _ => rfl⟩

theorem beside_accessErred (a : Word) (r : Response) : Beside (accessErred a r) :=
  ⟨fun _ => rfl, fun _ => rfl, fun _ => ⟨rfl, rfl, rfl, rfl⟩, fun _ _ _ => rfl⟩

/-- The writes of BUDGET, ERR and IRQ_EN, with the empty answer of a write (R25, R26, R27, R46). -/
theorem beside_registerWrites (v : Word) :
    Beside (fun s => writeBudget v (respond .none s)) ∧ Beside (fun s => clearErr v (respond .none s))
      ∧ Beside (fun s => writeIrqEn v (respond .none s)) := by
  refine ⟨?_, ?_, ?_⟩ <;>
    exact ⟨fun _ => rfl, fun _ => rfl, fun _ => ⟨rfl, rfl, rfl, rfl⟩, fun _ _ _ => rfl⟩

/-- A host event that acts on a state, and on that state completed, as one update beside the completion. -/
def ActsBeside (e : HostEvent) (s : State) : Prop :=
  ∃ f, Beside f ∧ hostEvent e s = .next (f s) ∧ ∀ g m, hostEvent e (completed s g m) = .next (f (completed s g m))

/-- A read of a register whose word a completion does not change. -/
theorem actsBeside_read {a : Word} {r : Reg} {s : State} (h4 : a.toNat % 4 = 0) (hr : regAt a.toNat = some r)
    (hword : ∀ g m, readReg (completed s g m) r = readReg s r) : ActsBeside (.read32 a) s :=
  ⟨respond (.word (readReg s r)), beside_respond _, read32_register h4 hr,
    fun g m => hword g m ▸ read32_register (s := completed s g m) h4 hr⟩

/-- A misaligned read is an access error, before a completion and after it (R56). -/
theorem actsBeside_misaligned {a : Word} (h4 : a.toNat % 4 ≠ 0) (s : State) : ActsBeside (.read32 a) s :=
  ⟨accessErred a (.word 0), beside_accessErred _ _, read32_illegal fun h => h4 h.1, fun _ _ => read32_illegal fun h => h4 h.1⟩

theorem actsBeside_of_besideCompletion {e : HostEvent} (h : besideCompletion e) (s : State) : ActsBeside e s := by
  cases e with
  | read8 a | write8 a v | reset => exact h.elim
  | write32 a v =>
    obtain ⟨hbudget, herr, hirqEn⟩ := beside_registerWrites v
    rcases h with rfl | rfl | rfl
    · exact ⟨_, hbudget, rfl, fun _ _ => rfl⟩
    · exact ⟨_, herr, rfl, fun _ _ => rfl⟩
    · exact ⟨_, hirqEn, rfl, fun _ _ => rfl⟩
  | read32 a =>
    rcases h with rfl | rfl | rfl | rfl | rfl | rfl | rfl | ⟨hlow, hhigh⟩
    · exact actsBeside_read (r := .id) rfl rfl fun _ _ => rfl
    · exact actsBeside_read (r := .param) rfl rfl fun _ _ => rfl
    · exact actsBeside_read (r := .cmd) rfl rfl fun _ _ => rfl
    · exact actsBeside_read (r := .budget) rfl rfl fun _ _ => rfl
    · exact actsBeside_read (r := .irqEn) rfl rfl fun _ _ => rfl
    · exact actsBeside_read (r := .lastCmd) rfl rfl fun _ _ => rfl
    · exact actsBeside_read (r := .accAddr) rfl rfl fun _ _ => rfl
    · by_cases h4 : a.toNat % 4 = 0
      · exact actsBeside_read h4 (regAt_mbprio hlow hhigh h4) fun _ _ => rfl
      · exact actsBeside_misaligned h4 s

/-- Settles O54: each such event is one update beside the completion, in either order. -/
theorem completionCommutesWithOtherEvents : Obligations.CompletionCommutesWithOtherEvents := by
  intro s s₁ t t₁ t₂ i e hbusy he hs₁ ht₁ ht ht₂
  obtain ⟨f, hf, hbefore, hafter⟩ := actsBeside_of_besideCompletion he s
  rw [hbefore] at hs₁
  cases hs₁
  rw [exec_busy ((hf.phase s).trans hbusy)] at ht₁
  cases ht₁
  rw [exec_busy hbusy] at ht
  cases ht
  rw [finish_effectOf, hafter, ← finish_effectOf] at ht₂
  cases ht₂
  exact hf.completion_comm i s

/-! ### What every step keeps, and that it steps -/

/-- Settles O56, by the three kinds of step. -/
theorem stepKeepsMemoryGood : Obligations.StepKeepsMemoryGood := by
  intro s t hs hstep
  rcases step_cases hstep with ⟨i, _, _, rfl⟩ | ⟨rest, _, _, rfl⟩ | ⟨_, hquiet⟩
  · exact effectOf_memoryGood hs i
  · exact (inv_afterReset _ _ _ _).memory
  · exact hquiet.memoryGood hs

/-- The host's turn, with an event pending. -/
theorem step_host {s : State} {e : HostEvent} {rest : List HostEvent} (hturn : engineTurn s = false)
    (hhost : s.host = e :: rest) :
    step s = hostEvent e (takeEvent rest s) := by
  simp only [step, hturn, Bool.false_eq_true, if_false, hostStep, hhost]

theorem engineTurn_idle {s : State} (hidle : s.phase = .idle) : engineTurn s = false := by
  simp [engineTurn, busyBit, hidle]

/-- Settles O6: in IDLE it is the host's turn, and its write reaches CMD. -/
theorem stepIssuesWrittenCommand : Obligations.StepIssuesWrittenCommand := by
  intro s w rest i hidle hhost hd
  calc step s = writeCmd w (respond .none (takeEvent rest s)) := step_host (engineTurn_idle hidle) hhost
    _ = exec i (respond .none (takeEvent rest s)) := by simp only [writeCmd, respond_phase, takeEvent_phase, hidle, hd]

/-- The step that completes the running command (R77). -/
theorem step_completes {s : State} (hs : RunningGood s) (hturn : engineTurn s = true) :
    ∃ i, step s = .next (finish (effectOf i s)) := by
  have hbusy := engineTurn_busy hturn
  obtain ⟨_, i, hd, _⟩ := hs hbusy
  refine ⟨i, ?_⟩
  rw [step, if_pos hturn, engineStep, hd]
  exact exec_busy hbusy i

/-- Settles O59: the running command decodes, and a host event always has a next state. -/
theorem noStepStops : Obligations.NoStepStops := by
  intro s hs
  cases hturn : engineTurn s with
  | true =>
    obtain ⟨i, hstep⟩ := step_completes hs hturn
    exact ⟨_, hstep⟩
  | false =>
    cases hhost : s.host with
    | nil => exact ⟨s, by simp [step, hturn, hostStep, hhost]⟩
    | cons e rest =>
      obtain ⟨t, ht, _⟩ := hostEvent_effect e (takeEvent rest s)
      exact ⟨t, (step_host hturn hhost).trans ht⟩

/-- While BUSY with the completion not yet due, an event is pending and may still pass. -/
theorem pending_of_not_due {s : State} (hbusy : s.phase = .busy) (hturn : engineTurn s = false) :
    0 < s.delay ∧ ∃ e rest, s.host = e :: rest := by
  obtain ⟨hdelay, hhost⟩ : s.delay ≠ 0 ∧ s.host ≠ [] := by simpa [engineTurn, busyBit, hbusy] using hturn
  exact ⟨Nat.pos_of_ne_zero hdelay, List.exists_cons_of_ne_nil hhost⟩

/-- Settles O60, by induction on the delay: each event that may still pass leaves the command running, with one less to pass. -/
theorem runningCommandCompletes : Obligations.RunningCommandCompletes := by
  intro s hbusy hs hhost
  induction hdelay : s.delay using Nat.strong_induction_on generalizing s with
  | _ n ih =>
    cases hturn : engineTurn s with
    | true =>
      obtain ⟨i, hstep⟩ := step_completes hs hturn
      exact ⟨0, s, _, Nat.zero_le _, rfl, hturn, rfl, rfl, rfl, rfl, hstep, rfl⟩
    | false =>
      obtain ⟨hpos, e, rest, hpending⟩ := pending_of_not_due hbusy hturn
      rw [hpending] at hhost
      obtain ⟨he, hrest⟩ := List.forall_mem_cons.mp hhost
      obtain ⟨s', hs'⟩ := noStepStops s hs
      have hevent : hostEvent e (takeEvent rest s) = .next s' := (step_host hturn hpending).symm.trans hs'
      have hrun := hostEvent_stillRunning (s := takeEvent rest s) hbusy he hevent
      have hless : s'.delay < n := by rw [hrun.delay, takeEvent_delay]; omega
      obtain ⟨k, t, u, hk, hruns, hdue, hcmd, hbudget, hmem, hflags, hlast⟩ :=
        ih s'.delay hless s' hrun.phase ((hostEvent_quiet he hevent).of_takeEvent.runningGood hs) (hrun.host ▸ hrest) rfl
      refine ⟨k + 1, t, u, by omega, ?_, hdue, hcmd.trans hrun.curCmd, hbudget.trans hrun.curBudget, hmem.trans hrun.mem,
        hflags.trans hrun.flags, hlast⟩
      rw [runSteps, hs']
      exact hruns

end Sys2Proof.Proofs
end

section
/-! SUPPORT. The statements of `30_encoding.md`: the decoder against the encoder (R70 to R73, R81), and what a word written to CMD
does: the overrun (R78), and in IDLE the checks of R75. -/

open Sys2Proof Sys2Proof.Machine Sys2Proof.Claims

namespace Sys2Proof.Proofs

/-! ### The decoder and the encoder (R70, R71, R73, R81) -/

/-- Settles O1, by the three fields of an encoded command. -/
theorem decodeOfEncode : Obligations.DecodeOfEncode :=
  decode_encode

/-- Settles O2: the three fields of a decoded word are those of its command's encoding. -/
theorem encodeOfDecode : Obligations.EncodeOfDecode :=
  fun _ _ => encode_of_decode

/-- Settles O4: each of the words is the encoding of its command. -/
theorem specWordsDecode : Obligations.SpecWordsDecode :=
  ⟨decode_encode .nop, decode_encode .basisgen, decode_encode (.dctf ⟨true, true, true⟩),
    decode_encode (.zzsel ⟨true, false, false⟩), decode_encode (.dcti ⟨false, false, true⟩),
    decode_encode (.dwtf ⟨true, false, true⟩), decode_encode (.dwtselr ⟨true, true, false⟩),
    decode_encode (.dwtselb ⟨false, true, true⟩), decode_encode (.dwti ⟨true, true, true⟩), decode_encode .asm⟩

/-! ### The words the decoder turns away (R75 checks 1 and 2, R79) -/

/-- What R75 check 2 turns away: a bit of RSV, or a bit of CH with an opcode that takes no mask. -/
def ReservedSet (w : Word) : Prop := rsvOf w ≠ 0 ∨ (opcOf w ∈ maskless ∧ chOf w ≠ 0)

theorem opcForm_eq_none_iff {o : Nat} : opcForm o = none ↔ o ∉ assigned := by
  unfold opcForm
  split <;> simp_all [assigned]

theorem mem_maskless_of_plain {o : Nat} {i : Instr} (h : opcForm o = some (.plain i)) : o ∈ maskless := by
  unfold opcForm at h
  split at h <;> simp_all [maskless]

theorem not_mem_maskless_of_channel {o : Nat} {mk : ChanMask → Instr} (h : opcForm o = some (.channel mk)) : o ∉ maskless := by
  unfold opcForm at h
  split at h <;> simp_all [maskless]

theorem rsvField_eq_zero_iff {w : Word} : rsvField w = 0 ↔ rsvOf w = 0 :=
  BitVec.toNat_eq

theorem chField_eq_zero_iff {w : Word} : chField w = 0 ↔ chOf w = 0 :=
  BitVec.toNat_eq

theorem decode_of_unassigned {w : Word} (h : opcOf w ∉ assigned) : decode w = .error .illegal := by
  have hform : opcForm (opcField w).toNat = none := opcForm_eq_none_iff.mpr h
  rw [decode, hform]

theorem decode_of_reservedSet {w : Word} (h : opcOf w ∈ assigned) (hr : ReservedSet w) : decode w = .error .reserved := by
  unfold decode
  cases hform : opcForm (opcField w).toNat with
  | none => exact absurd h (opcForm_eq_none_iff.mp hform)
  | some form =>
    by_cases hrsv : rsvField w = 0
    · obtain ⟨hopc, hch⟩ := hr.resolve_left (not_not.mpr (rsvField_eq_zero_iff.mp hrsv))
      cases form with
      | plain i => simp only [hrsv, ne_eq, not_true, if_false, if_pos (mt chField_eq_zero_iff.mp hch)]
      | channel mk => exact absurd hopc (not_mem_maskless_of_channel hform)
    · exact if_pos hrsv

theorem decode_of_not_reservedSet {w : Word} (h : opcOf w ∈ assigned) (hr : ¬ ReservedSet w) : ∃ i, decode w = .ok i := by
  obtain ⟨hrsv, hch⟩ := not_or.mp hr
  have hrsv : rsvField w = 0 := rsvField_eq_zero_iff.mpr (not_not.mp hrsv)
  unfold decode
  cases hform : opcForm (opcField w).toNat with
  | none => exact absurd h (opcForm_eq_none_iff.mp hform)
  | some form =>
    cases form with
    | plain i =>
      have hch : chField w = 0 :=
        chField_eq_zero_iff.mpr (not_not.mp fun hne => hch ⟨mem_maskless_of_plain hform, hne⟩)
      exact ⟨i, by simp only [hrsv, hch, ne_eq, not_true, if_false]⟩
    | channel mk => exact ⟨_, by simp only [hrsv, ne_eq, not_true, if_false]; rfl⟩

/-- The decoder's answer for every word, by checks 1 and 2 of R75. -/
theorem decode_cases (w : Word) :
    (opcOf w ∉ assigned ∧ decode w = .error .illegal)
      ∨ (opcOf w ∈ assigned ∧ ReservedSet w ∧ decode w = .error .reserved)
      ∨ (opcOf w ∈ assigned ∧ ¬ ReservedSet w ∧ ∃ i, decode w = .ok i) := by
  by_cases h : opcOf w ∈ assigned
  · by_cases hr : ReservedSet w
    · exact .inr (.inl ⟨h, hr, decode_of_reservedSet h hr⟩)
    · exact .inr (.inr ⟨h, hr, decode_of_not_reservedSet h hr⟩)
  · exact .inl ⟨h, decode_of_unassigned h⟩

/-- Settles O3: the three answers of the decoder exclude each other. -/
theorem decoderRejectsExactly : Obligations.DecoderRejectsExactly := by
  intro w
  change _ ∧ (_ ↔ _ ∧ ReservedSet w) ∧ _
  rcases decode_cases w with ⟨h, hd⟩ | ⟨h, hr, hd⟩ | ⟨h, hr, i, hd⟩
  · simp [hd, h]
  · simp [hd, h, hr]
  · simp [hd, h, hr]

/-! ### A word written to CMD (R74, R78, R145) -/

/-- A word write to CMD reaches `writeCmd`, with the empty answer of a write (R20, R46). -/
theorem hostEvent_writeCmd (w : Word) (s : State) :
    hostEvent (.write32 0x00000008 w) s = writeCmd w (respond .none s) := rfl

theorem writeCmd_busy {s : State} (hbusy : s.phase = .busy) (w : Word) : writeCmd w s = .next (overrun s) := by
  rw [writeCmd, hbusy]

/-- The error that turns a word away in IDLE: the decoder's, or that of a check of the decoded command. -/
def verdict (w : Word) (s : State) : Option CmdError :=
  match decode w with
  | .error e => some e
  | .ok i => check i s

theorem verdict_of_error {w : Word} {e : CmdError} (h : decode w = .error e) (s : State) : verdict w s = some e := by
  rw [verdict, h]

theorem verdict_of_ok {w : Word} {i : Instr} (h : decode w = .ok i) (s : State) : verdict w s = check i s := by
  rw [verdict, h]

theorem verdict_congr {s t : State} (h : t.flags = s.flags) (w : Word) : verdict w t = verdict w s := by
  cases hd : decode w with
  | error e => rw [verdict_of_error hd, verdict_of_error hd]
  | ok i => rw [verdict_of_ok hd, verdict_of_ok hd, check_congr h]

theorem writeCmd_rejects {w : Word} {e : CmdError} {s : State} (hidle : s.phase = .idle) (h : verdict w s = some e) :
    writeCmd w s = .next (reject w e s) := by
  rw [writeCmd, hidle]
  cases hd : decode w with
  | error e' =>
    rw [verdict_of_error hd] at h
    cases h
    rfl
  | ok i =>
    rw [verdict_of_ok hd] at h
    simp only [exec_idle hidle, issue, h, encode_of_decode hd]

theorem writeCmd_accepts {w : Word} {s : State} (hidle : s.phase = .idle) (h : verdict w s = none) :
    writeCmd w s = .next (accept w s) := by
  rw [writeCmd, hidle]
  cases hd : decode w with
  | error e =>
    rw [verdict_of_error hd] at h
    cases h
  | ok i =>
    rw [verdict_of_ok hd] at h
    simp only [exec_idle hidle, issue, h, encode_of_decode hd]

/-- Settles O10. -/
theorem overrunDropsTheWord : Obligations.OverrunDropsTheWord := by
  intro s w hbusy
  rw [hostEvent_writeCmd, writeCmd_busy (s := respond .none s) hbusy]
  rfl

/-- Settles O11: NOP has no effect and leaves the flags, so its completion is the common part. -/
theorem nopCompletes : Obligations.NopCompletes := by
  intro s hbusy
  rw [exec_busy hbusy, finish_effectOf]
  rfl

/-! ### The checks of R75 on an encoded command -/

theorem opcOf_encode (i : Instr) : opcOf (encode i) = i.opc.toNat :=
  congrArg BitVec.toNat (opcField_encode i)

theorem rsvOf_encode (i : Instr) : rsvOf (encode i) = 0 :=
  congrArg BitVec.toNat (rsvField_encode i)

theorem chOf_encode (i : Instr) : chOf (encode i) = i.chBits.toNat :=
  congrArg BitVec.toNat (chField_encode i)

theorem bits_toNat_eq_zero_iff {m : ChanMask} : m.bits.toNat = 0 ↔ m.nonempty = false := by
  obtain ⟨r, g, b⟩ := m
  revert r g b
  decide

/-- Bit 8 + ch of a word is bit ch of CH (R70). -/
theorem getLsbD_channel (w : Word) (ch : Channel) :
    w.getLsbD (8 + Channel.index ch) = (ChanMask.ofBits (chField w)).has ch := by
  cases ch <;> simp [chField, ChanMask.ofBits, ChanMask.has, Channel.index]

/-- The checks of a command, in the order of R75. -/
def checks : Instr → State → List (Option CmdError)
  | .nop, _ => []
  | .basisgen, _ => []
  | .dctf m, s => [needChannel m, needBasis s]
  | .zzsel m, s => [needChannel m, needFreqKind m .dct s]
  | .dcti m, s => [needChannel m, needBasis s, needSelKind m .dct s]
  | .dwtf m, _ => [needChannel m]
  | .dwtselr m, s => [needChannel m, needFreqKind m .dwt s]
  | .dwtselb m, s => [needChannel m, needFreqKind m .dwt s]
  | .dwti m, s => [needChannel m, needSelKind m .dwt s]
  | .asm, s => [needAllRecon s]

theorem check_eq_firstError (i : Instr) (s : State) : check i s = firstError (checks i s) := by
  cases i <;> rfl

@[simp] theorem some_eq_require {ok : Bool} {e e' : CmdError} : some e' = require ok e ↔ ok = false ∧ e' = e := by
  cases ok <;> simp [require]

theorem everyChannel_eq_false {m : ChanMask} {ok : Channel → Bool} :
    everyChannel m ok = false ↔ ∃ ch, m.has ch = true ∧ ok ch = false := by
  rw [← Bool.not_eq_true, everyChannel_eq_true]
  simp

@[simp] theorem some_eq_needChannel {m : ChanMask} {e : CmdError} :
    some e = needChannel m ↔ m.nonempty = false ∧ e = .noChan :=
  some_eq_require

@[simp] theorem some_eq_needBasis {s : State} {e : CmdError} :
    some e = needBasis s ↔ s.flags.basisValid = false ∧ e = .noBasis :=
  some_eq_require

@[simp] theorem some_eq_needFreqKind {m : ChanMask} {k : Kind} {s : State} {e : CmdError} :
    some e = needFreqKind m k s ↔ (∃ ch, m.has ch = true ∧ s.flags.fkind.get ch ≠ k) ∧ e = .kind := by
  simp [needFreqKind, everyChannel_eq_false]

@[simp] theorem some_eq_needSelKind {m : ChanMask} {k : Kind} {s : State} {e : CmdError} :
    some e = needSelKind m k s ↔ (∃ ch, m.has ch = true ∧ s.flags.skind.get ch ≠ k) ∧ e = .kind := by
  simp [needSelKind, everyChannel_eq_false]

@[simp] theorem some_eq_needAllRecon {s : State} {e : CmdError} :
    some e = needAllRecon s ↔ (∃ ch, s.flags.rvalid.get ch = false) ∧ e = .notReady := by
  simp [needAllRecon]

/-- An encoded command fails a check in the bits of its word and the flags exactly if the command's own check raises that error. -/
theorem fails_encode_iff (i : Instr) (s : State) (e : CmdError) : fails (encode i) s e ↔ some e ∈ checks i s := by
  cases e with
  | illegal =>
    rw [fails, opcOf_encode]
    cases i <;> simp [Instr.opc, assigned, checks]
  | reserved =>
    rw [fails, opcOf_encode, rsvOf_encode, chOf_encode]
    cases i <;> simp [Instr.opc, Instr.chBits, Instr.mask?, maskless, checks]
  | noChan =>
    rw [fails, opcOf_encode, chOf_encode]
    cases i <;> simp [Instr.opc, Instr.chBits, Instr.mask?, maskless, checks, bits_toNat_eq_zero_iff]
  | noBasis =>
    rw [fails, opcOf_encode]
    cases i <;> simp [Instr.opc, checks]
  | kind =>
    simp only [fails, opcOf_encode, getLsbD_channel, chField_encode]
    cases i <;> simp [Instr.opc, Instr.chBits, Instr.mask?, checks]
  | notReady =>
    rw [fails, opcOf_encode]
    cases i <;> simp [Instr.opc, checks]

/-! ### The first failing check (R75, R146) -/

/-- The place of an error's check in the order of R75: its code (R143). -/
def checkNumber (e : CmdError) : Nat := (errorCode e).toNat

theorem checkNumber_injective : Function.Injective checkNumber := by
  intro e e' h
  cases e <;> cases e' <;> simp_all [checkNumber, errorCode]

theorem not_before_illegal (e : CmdError) : ¬ checkNumber e < checkNumber .illegal := by
  cases e <;> decide

theorem eq_illegal_of_before_reserved {e : CmdError} (h : checkNumber e < checkNumber .reserved) : e = .illegal := by
  cases e <;> simp_all [checkNumber, errorCode]

/-- The errors that a list of checks can raise come in the order of R75. -/
def InOrder (l : List (Option CmdError)) : Prop :=
  l.Pairwise fun a b => ∀ e e', some e = a → some e' = b → checkNumber e < checkNumber e'

theorem checks_inOrder (i : Instr) (s : State) : InOrder (checks i s) := by
  cases i <;> simp +contextual [InOrder, checks, checkNumber, errorCode]

theorem first_of_firstError {l : List (Option CmdError)} {e : CmdError} (hl : InOrder l) (h : firstError l = some e) :
    some e ∈ l ∧ ∀ e', some e' ∈ l → checkNumber e ≤ checkNumber e' := by
  induction l with
  | nil => cases h
  | cons c l ih =>
    obtain ⟨hc, hrest⟩ := List.pairwise_cons.mp hl
    cases c with
    | some d =>
      cases h
      refine ⟨List.mem_cons_self, fun e' he' => ?_⟩
      rcases List.mem_cons.mp he' with heq | htail
      · cases heq
        exact Nat.le_refl _
      · exact Nat.le_of_lt (hc _ htail _ _ rfl rfl)
    | none =>
      obtain ⟨hmem, hfirst⟩ := ih hrest h
      exact ⟨List.mem_cons_of_mem _ hmem, fun e' he' => hfirst e' (List.mem_of_ne_of_mem (by simp) he')⟩

theorem firstFailing_of_decode_error {w : Word} {e : CmdError} (h : decode w = .error e) (s : State) : firstFailing w s e := by
  rcases decode_cases w with ⟨hopc, hd⟩ | ⟨hopc, hr, hd⟩ | ⟨_, _, i, hd⟩ <;> rw [h] at hd <;> cases hd
  · refine ⟨hopc, fun e' hlt => ?_⟩
    exact absurd hlt (not_before_illegal e')
  · refine ⟨hr, fun e' hlt => ?_⟩
    rw [eq_illegal_of_before_reserved hlt]
    exact not_not.mpr hopc

theorem firstFailing_of_check {i : Instr} {s : State} {e : CmdError} (h : check i s = some e) : firstFailing (encode i) s e := by
  rw [check_eq_firstError] at h
  obtain ⟨hmem, hfirst⟩ := first_of_firstError (checks_inOrder i s) h
  refine ⟨(fails_encode_iff i s e).mpr hmem, fun e' hlt hfail => ?_⟩
  exact Nat.not_lt.mpr (hfirst e' ((fails_encode_iff i s e').mp hfail)) hlt

theorem not_fails_of_check {i : Instr} {s : State} (h : check i s = none) (e : CmdError) : ¬ fails (encode i) s e := by
  rw [check_eq_firstError, firstError_eq_none] at h
  rw [fails_encode_iff]
  exact fun hmem => Option.some_ne_none e (h _ hmem)

/-- The verdict on a word is its first failing check. -/
theorem firstFailing_of_verdict {w : Word} {s : State} {e : CmdError} (h : verdict w s = some e) : firstFailing w s e := by
  cases hd : decode w with
  | error e' =>
    rw [verdict_of_error hd] at h
    cases h
    exact firstFailing_of_decode_error hd s
  | ok i =>
    rw [verdict_of_ok hd] at h
    exact encode_of_decode hd ▸ firstFailing_of_check h

theorem not_fails_of_verdict {w : Word} {s : State} (h : verdict w s = none) (e : CmdError) : ¬ fails w s e := by
  cases hd : decode w with
  | error e' =>
    rw [verdict_of_error hd] at h
    cases h
  | ok i =>
    rw [verdict_of_ok hd] at h
    exact encode_of_decode hd ▸ not_fails_of_check h e

theorem firstFailing_unique {w : Word} {s : State} {e e' : CmdError} (h : firstFailing w s e) (h' : firstFailing w s e') :
    e = e' :=
  checkNumber_injective (Nat.le_antisymm (Nat.not_lt.mp fun hlt => h.2 e' hlt h'.1) (Nat.not_lt.mp fun hlt => h'.2 e hlt h.1))

/-- Settles O7: a word has one first failing check at most, and the verdict names it. -/
theorem cmdWriteFollowsTheChecks : Obligations.CmdWriteFollowsTheChecks := by
  intro s w hidle
  have hverdict : verdict w (respond .none s) = verdict w s := verdict_congr rfl w
  rw [hostEvent_writeCmd]
  cases hv : verdict w s with
  | some e =>
    have hfirst := firstFailing_of_verdict hv
    refine ⟨fun e' he' => ?_, fun hnone => absurd hfirst.1 (hnone e)⟩
    rw [← firstFailing_unique hfirst he']
    exact writeCmd_rejects (s := respond .none s) hidle (hverdict.trans hv)
  | none =>
    exact ⟨fun e he => absurd he.1 (not_fails_of_verdict hv e),
      fun _ => writeCmd_accepts (s := respond .none s) hidle (hverdict.trans hv)⟩

end Sys2Proof.Proofs
end

section
/-! SUPPORT. The statements of `41_dct.md`: the completions of DCTF and DCTI (R94, R97), a tile of zeros (R102), and the tile means of
the DC coefficient (R101). -/

open Sys2Proof Sys2Proof.Machine Sys2Proof.Claims

namespace Sys2Proof.Proofs

/-! ### The two loops as one sum (R94, R97) -/

/-- A row of the two loops: `n` rounds of the inner loop after `i` rounds of the outer one. -/
theorem loopSum_row (term : Nat → Nat → F64) (i : Nat) {n : Nat} (hn : n ≤ 8) :
    loopSum term (8 * i + n) = (List.range n).foldl (fun s j => fadd s (term i j)) (loopSum term (8 * i)) := by
  induction n with
  | zero => rfl
  | succ n ih =>
    rw [List.range_succ, List.foldl_append, ← ih (by omega), ← Nat.add_assoc, loopSum]
    rw [show (8 * i + n) / 8 = i by omega, show (8 * i + n) % 8 = n by omega]
    rfl

theorem loopSum_rows (term : Nat → Nat → F64) (n : Nat) :
    loopSum term (8 * n) = (List.range n).foldl (fun s i => (List.range 8).foldl (fun s j => fadd s (term i j)) s) fzero := by
  induction n with
  | zero => rfl
  | succ n ih =>
    rw [List.range_succ (n := n), List.foldl_append, ← ih, Nat.mul_succ, loopSum_row term n le_rfl]
    rfl

theorem sum64_eq_loopSum (term : Nat → Nat → F64) : sum64 term = loopSum term 64 := (loopSum_rows term 8).symm

/-- The sum of the 64 terms, after the terms are written in another way. -/
theorem sum64_eq_loopSum_of {f g : Nat → Nat → F64} (h : ∀ i j, i < 8 → j < 8 → f i j = g i j) :
    sum64 f = loopSum g 64 := by
  rw [sum64_congr h, sum64_eq_loopSum]

theorem dctForward_at {n r c : Nat} (U V W : Plane) (hr : r < n) (hc : c < n) :
    (dctForward n U V W).at r c
      = dctForwardTile (fun x y => W.at (8 * (r / 8) + x) (8 * (c / 8) + y)) U V (r % 8) (c % 8) :=
  tilewise_at W _ hr hc

/-- Settles O13: the elements of `dctForward`, with the operands read from memory and the two loops as one sum. -/
theorem dctfCompletes : Obligations.DctfCompletes := by
  intro s m hbusy
  obtain ⟨t, hexec, hframe, hflags, helement, hout⟩ := channel_completion (i := .dctf m) hbusy rfl
  refine ⟨t, hexec, hframe, hflags ▸ forwardFlags_flagsForward m .dct s.flags, fun ch r c hm hr hc => ?_, hout⟩
  rw [helement ch r c hm hr hc, dctForward_at _ _ _ hr hc, dctForwardTile]
  refine congrArg (fmul _) (sum64_eq_loopSum_of fun x y hx hy => ?_)
  rw [inputPlane_at s ch (tile_lt hr hx) (tile_lt hc hy), basisU_at s (Nat.mod_lt _ (by decide)) hx,
    basisV_at s (Nat.mod_lt _ (by decide)) hy]
  rfl

/-- Settles O15: the elements of `dctInverse`, with the operands read from memory and the two loops as one sum. -/
theorem dctiCompletes : Obligations.DctiCompletes := by
  intro s m hbusy
  obtain ⟨t, hexec, hframe, hflags, helement, hout⟩ := channel_completion (i := .dcti m) hbusy rfl
  refine ⟨t, hexec, hframe, hflags ▸ inverseFlags_flagsInverse m s.flags, fun ch r c hm hr hc => ?_, hout⟩
  rw [helement ch r c hm hr hc, dctInverse_at _ _ _ hr hc, dctInverseTile]
  refine congrArg (fun sum => clamp255 (fmul _ sum)) (sum64_eq_loopSum_of fun u v hu hv => ?_)
  rw [coefPlane_at s .sel ch (tile_lt hr hu) (tile_lt hc hv), basisU_at s hu (Nat.mod_lt _ (by decide)),
    basisV_at s hv (Nat.mod_lt _ (by decide))]
  rfl

/-! ### Tiles of zeros (R102) -/

/-- An encoding that is neither an infinity nor a NaN. -/
def IsFinite (v : F64) : Prop := ∃ n m e, unpack v = .finite n m e

theorem isFinite_of_expField {v : F64} (h : expField v ≠ 2047) : IsFinite v := by
  unfold IsFinite unpack
  rw [if_neg h]
  split <;> exact ⟨_, _, _, rfl⟩

theorem isZero_fmul_left {a b : F64} (ha : isZero a) (hb : IsFinite b) : isZero (fmul a b) := by
  obtain ⟨n, m, e, hb⟩ := hb
  exact fmul_zeros_left ha hb

theorem isZero_fmul_right {a b : F64} (ha : IsFinite a) (hb : isZero b) : isZero (fmul a b) := by
  obtain ⟨n, m, e, ha⟩ := ha
  exact fmul_zeros_right hb ha

/-- Every entry of the basis is finite (R103). -/
theorem isFinite_basisTable (p : Params) {k i : Nat} (hk : k < 8) (hi : i < 8) : IsFinite ((basisTable p).at k i) := by
  have entries4 : ∀ k i : Fin 8, expField (basisTable4.at k i) ≠ 2047 := by decide
  have entries2 : ∀ k i : Fin 8, expField (basisTable2.at k i) ≠ 2047 := by decide
  unfold basisTable
  cases p.basisDiv
  · exact isFinite_of_expField (entries2 ⟨k, hk⟩ ⟨i, hi⟩)
  · exact isFinite_of_expField (entries4 ⟨k, hk⟩ ⟨i, hi⟩)

/-- Row 0 of the basis is 1.0 at both divisors (R88). -/
theorem basisTable_row_zero (p : Params) {i : Nat} (hi : i < 8) : (basisTable p).at 0 i = fone := by
  have entries4 : ∀ i : Fin 8, basisTable4.at 0 i = fone := by decide
  have entries2 : ∀ i : Fin 8, basisTable2.at 0 i = fone := by decide
  unfold basisTable
  cases p.basisDiv
  · exact entries2 ⟨i, hi⟩
  · exact entries4 ⟨i, hi⟩

theorem isFinite_scale_mul (u v : Nat) : IsFinite (fmul (scale u) (scale v)) := by
  unfold scale
  split <;> split <;> exact isFinite_of_expField (by decide)

/-- The term of R97 for coefficient (u, v), at row x and column y of the tile. -/
def inverseTerm (s : State) (F : Nat → Nat → F64) (x y u v : Nat) : F64 :=
  fmul (fmul (fmul (fmul (scale u) (scale v)) (F u v)) (readF64 s (basisUAddr u x))) (readF64 s (basisVAddr v y))

/-- A zero coefficient gives a zero term. -/
theorem isZero_inverseTerm {s : State} (hs : basisHeld s) {F : Nat → Nat → F64} {x y u v : Nat} (hx : x < 8) (hy : y < 8)
    (hu : u < 8) (hv : v < 8) (hF : isZero (F u v)) : isZero (inverseTerm s F x y u v) := by
  unfold inverseTerm
  rw [(hs u x hu hx).1, (hs v y hv hy).2]
  exact isZero_fmul_left (isZero_fmul_left (isZero_fmul_right (isFinite_scale_mul u v) hF) (isFinite_basisTable _ hu hx))
    (isFinite_basisTable _ hv hy)

/-- Rounds that add zeros leave a partial sum that is no negative number and not -0.0. -/
theorem loopSum_of_zero_tail {term : Nat → Nat → F64} {a n : Nat} (han : a ≤ n) {m : Nat} {e : Int}
    (ha : unpack (loopSum term a) = .finite false m e) (h : ∀ k, a ≤ k → k < n → isZero (term (k / 8) (k % 8))) :
    loopSum term n = loopSum term a := by
  induction n, han using Nat.le_induction with
  | base => rfl
  | succ n han ih =>
    rw [loopSum, ih fun k hk hlt => h k hk (by omega)]
    exact fadd_zeros_right (h n han (Nat.lt_succ_self n)) ha (.inr rfl)

/-- A sum of zeros of either sign is the +0.0 it starts from. -/
theorem loopSum_of_zeros {term : Nat → Nat → F64} (n : Nat) (h : ∀ k < n, isZero (term (k / 8) (k % 8))) :
    loopSum term n = fzero := by
  have hstart : unpack (loopSum term 0) = .finite false 0 (-1074) := (by decide : unpack fzero = _)
  exact loopSum_of_zero_tail (Nat.zero_le n) hstart fun k _ hk => h k hk

theorem next_unique {i : Instr} {s t t' : State} (h : exec i s = .next t) (h' : exec i s = .next t') : t' = t := by
  rw [h] at h'
  cases h'
  rfl

/-- What a completed DCTI leaves in REC, tile by tile. -/
theorem element_of_dcti {s t : State} {m : ChanMask} (hbusy : s.phase = .busy) (hexec : exec (.dcti m) s = .next t)
    {ch : Channel} (hm : m.has ch = true) {r c : Nat} (hr : r < side s.params) (hc : c < side s.params) :
    element t .recon ch r c
      = clamp255 (fmul fquarter
          (loopSum (inverseTerm s (fun u v => element s .sel ch (8 * (r / 8) + u) (8 * (c / 8) + v)) (r % 8) (c % 8)) 64)) := by
  obtain ⟨t', hexec', _, _, helement, _⟩ := dctiCompletes s m hbusy
  obtain rfl := next_unique hexec hexec'
  exact helement ch r c hm hr hc

/-- Settles O32: all 64 rounds add a zero to +0.0. -/
theorem zeroTileReconstructsToZero : Obligations.ZeroTileReconstructsToZero := by
  intro s t m ch tr tc hbusy hbasis hexec hm htr htc hzero x y hx hy
  rw [element_of_dcti hbusy hexec hm (by omega) (by omega), loopSum_of_zeros 64 fun k hk => ?_]
  · decide
  · refine isZero_inverseTerm hbasis (by omega) (by omega) (by omega) (by omega) ?_
    rw [show (8 * tr + x) / 8 = tr by omega, show (8 * tc + y) / 8 = tc by omega]
    exact hzero _ _ (by omega) (by omega)

/-! ### Values as rationals (R14) -/

/-- The encoding `v` has its sign bit clear and the finite value `x`. -/
def HasValue (v : F64) (x : ℚ) : Prop := ∃ (m : Nat) (e : Int), unpack v = .finite false m e ∧ x = m * 2 ^ e

/-- The value of 63 magnitude bits below infinity, in units of 2^-1074. -/
def units (mag : Nat) : Nat :=
  if mag / 2 ^ 52 = 0 then mag else (2 ^ 52 + mag % 2 ^ 52) * 2 ^ (mag / 2 ^ 52 - 1)

/-- A significand at an exponent: a subnormal, a normal one, or the carry into the next exponent. -/
theorem units_join {k sig : Nat} (hhigh : sig ≤ 2 ^ 53) (hlow : k = 0 ∨ 2 ^ 52 ≤ sig) :
    units (k * 2 ^ 52 + sig) = sig * 2 ^ k := by
  unfold units
  by_cases hsub : sig < 2 ^ 52
  · obtain rfl : k = 0 := by omega
    rw [if_pos (by omega)]
    omega
  · by_cases hcarry : sig = 2 ^ 53
    · rw [show (k * 2 ^ 52 + sig) / 2 ^ 52 = k + 2 by omega, show (k * 2 ^ 52 + sig) % 2 ^ 52 = 0 by omega, if_neg (by omega),
        show k + 2 - 1 = k + 1 by omega, hcarry]
      ring
    · rw [show (k * 2 ^ 52 + sig) / 2 ^ 52 = k + 1 by omega, show (k * 2 ^ 52 + sig) % 2 ^ 52 = sig - 2 ^ 52 by omega,
        if_neg (by omega), show 2 ^ 52 + (sig - 2 ^ 52) = sig by omega]
      rfl

/-- Larger magnitude bits are a larger value. -/
theorem units_strictMono : StrictMono units := by
  refine strictMono_nat_of_lt_succ fun mag => ?_
  by_cases hsub : mag < 2 ^ 52
  · have hthis := units_join (k := 0) (sig := mag) (by omega) (.inl rfl)
    have hnext := units_join (k := 0) (sig := mag + 1) (by omega) (.inl rfl)
    rw [Nat.zero_mul, Nat.zero_add] at hthis hnext
    omega
  · obtain ⟨k, sig, rfl, hlow, hhigh⟩ : ∃ k sig, mag = k * 2 ^ 52 + sig ∧ 2 ^ 52 ≤ sig ∧ sig < 2 ^ 53 :=
      ⟨mag / 2 ^ 52 - 1, 2 ^ 52 + mag % 2 ^ 52, by omega, by omega, by omega⟩
    rw [Nat.add_assoc, units_join hhigh.le (.inr hlow), units_join hhigh (.inr (by omega))]
    exact Nat.mul_lt_mul_of_pos_right (Nat.lt_succ_self sig) (Nat.two_pow_pos k)

theorem two_zpow_toNat {a b : Int} (h : b ≤ a) : (2 : ℚ) ^ (a - b).toNat * 2 ^ b = 2 ^ a := by
  rw [← zpow_natCast, Int.toNat_of_nonneg (by omega), ← zpow_add₀ two_ne_zero, sub_add_cancel]

/-- The 63 bits below the sign, the magnitude bits of an encoding. -/
def magnitude (v : F64) : Nat := (v.extractLsb' 0 63).toNat

theorem magnitude_fields (v : F64) : magnitude v / 2 ^ 52 = expField v ∧ magnitude v % 2 ^ 52 = fracField v := by
  unfold magnitude expField fracField
  simp only [BitVec.extractLsb'_toNat, Nat.shiftRight_eq_div_pow]
  omega

/-- A finite encoding without a sign has the value of its magnitude bits. -/
theorem hasValue_units {v : F64} (hsign : signBit v = false) (hexp : expField v ≠ 2047) :
    HasValue v (units (magnitude v) * 2 ^ (-1074 : Int)) := by
  obtain ⟨hE, hF⟩ := magnitude_fields v
  unfold HasValue unpack units
  rw [if_neg hexp, hsign, hE, hF]
  by_cases h0 : expField v = 0
  · rw [if_pos h0, if_pos h0, show magnitude v = fracField v by omega]
    exact ⟨_, _, rfl, rfl⟩
  · rw [if_neg h0, if_neg h0]
    refine ⟨_, _, rfl, ?_⟩
    rw [show expField v - 1 = ((expField v : Int) - 1075 - -1074).toNat by omega, Nat.cast_mul, Nat.cast_pow, Nat.cast_ofNat,
      mul_assoc, two_zpow_toNat (by omega)]

theorem HasValue.unique {v : F64} {x y : ℚ} (hx : HasValue v x) (hy : HasValue v y) : x = y := by
  obtain ⟨m, e, hm, rfl⟩ := hx
  obtain ⟨m', e', hm', rfl⟩ := hy
  rw [hm] at hm'
  cases hm'
  rfl

theorem HasValue.isFinite {v : F64} {x : ℚ} (h : HasValue v x) : IsFinite v := by
  obtain ⟨m, e, hm, _⟩ := h
  exact ⟨_, _, _, hm⟩

theorem HasValue.isNaN {v : F64} {x : ℚ} (h : HasValue v x) : isNaN v = false := by
  obtain ⟨m, e, hm, _⟩ := h
  simp [Machine.isNaN, hm]

theorem HasValue.nonneg {v : F64} {x : ℚ} (h : HasValue v x) : 0 ≤ x := by
  obtain ⟨m, e, _, rfl⟩ := h
  positivity

theorem HasValue.signBit {v : F64} {x : ℚ} (h : HasValue v x) : signBit v = false := by
  obtain ⟨m, e, hm, _⟩ := h
  unfold unpack at hm
  split at hm
  · split at hm <;> cases hm
  · split at hm <;> (injection hm)

theorem HasValue.expField {v : F64} {x : ℚ} (h : HasValue v x) : expField v ≠ 2047 := by
  obtain ⟨m, e, hm, _⟩ := h
  intro hexp
  unfold unpack at hm
  rw [if_pos hexp] at hm
  split at hm <;> cases hm

theorem HasValue.eq_units {v : F64} {x : ℚ} (h : HasValue v x) : x = units (magnitude v) * 2 ^ (-1074 : Int) :=
  h.unique (hasValue_units h.signBit h.expField)

/-- The comparison of encodings is that of their values. -/
theorem fgt_iff {a b : F64} {x y : ℚ} (ha : HasValue a x) (hb : HasValue b y) : fgt a b = true ↔ y < x := by
  have hkey : ∀ {v : F64} {z : ℚ}, HasValue v z → orderKey v = magnitude v := fun h => by
    unfold orderKey
    rw [h.signBit]
    rfl
  have hpos : (0 : ℚ) < 2 ^ (-1074 : Int) := by positivity
  rw [ha.eq_units, hb.eq_units, mul_lt_mul_iff_left₀ hpos, Nat.cast_lt, units_strictMono.lt_iff_lt]
  simp [fgt, ha.isNaN, hb.isNaN, hkey ha, hkey hb]

theorem hasValue_fzero : HasValue fzero 0 := ⟨0, -1074, by decide, by simp⟩

theorem hasValue_f255 : HasValue f255 255 := ⟨255 * 2 ^ 45, -45, by decide, by norm_num⟩

/-- The clamp bounds the value by 255 (R134). -/
theorem hasValue_clamp255 {v : F64} {x : ℚ} (h : HasValue v x) : HasValue (clamp255 v) (min x 255) := by
  have hzero := fgt_iff h hasValue_fzero
  have htop := fgt_iff h hasValue_f255
  unfold clamp255
  cases hpos : fgt v fzero with
  | false =>
    have hx : x = 0 := le_antisymm (not_lt.mp fun hlt => by simp [hzero.mpr hlt] at hpos) h.nonneg
    rw [if_pos (by decide), hx, min_eq_left (by norm_num)]
    exact hasValue_fzero
  | true =>
    rw [if_neg (by decide)]
    split
    · next hgt =>
      rw [min_eq_right (htop.mp hgt).le]
      exact hasValue_f255
    · next hle =>
      rw [min_eq_left (not_lt.mp (mt htop.mpr hle))]
      exact h

/-- The integer part is the floor of the value (R135). -/
theorem floorNat_of_hasValue {v : F64} {x : ℚ} (h : HasValue v x) : floorNat v = ⌊x⌋₊ := by
  obtain ⟨m, e, hm, rfl⟩ := h
  unfold floorNat
  rw [hm]
  dsimp only
  split
  · next he =>
    rw [show (m : ℚ) * 2 ^ e = ((m * 2 ^ e.toNat : Nat) : ℚ) by
      rw [Nat.cast_mul, Nat.cast_pow, Nat.cast_ofNat, ← zpow_natCast, Int.toNat_of_nonneg he], Nat.floor_natCast]
  · next he =>
    rw [show (m : ℚ) * 2 ^ e = (m : ℚ) / ((2 ^ (-e).toNat : Nat) : ℚ) by
      rw [Nat.cast_pow, Nat.cast_ofNat, ← zpow_natCast, Int.toNat_of_nonneg (by omega), zpow_neg, div_inv_eq_mul],
      Nat.floor_div_eq_div]

/-! ### Rounding (R14) -/

/-- Rounding a quotient is off by half a unit at most. -/
theorem roundShift_near (m sh : Nat) :
    2 * (roundShift m sh * 2 ^ sh) ≤ 2 * m + 2 ^ sh ∧ 2 * m ≤ 2 * (roundShift m sh * 2 ^ sh) + 2 ^ sh := by
  have hdiv := Nat.div_add_mod' m (2 ^ sh)
  have hmod : m % 2 ^ sh < 2 ^ sh := Nat.mod_lt _ (Nat.two_pow_pos sh)
  have hsucc := Nat.add_one_mul (m / 2 ^ sh) (2 ^ sh)
  unfold roundShift
  dsimp only
  split
  · omega
  · split
    · rcases Nat.mod_two_eq_zero_or_one (m / 2 ^ sh) with heven | hodd
      · rw [heven, Nat.add_zero]
        omega
      · rw [hodd]
        omega
    · omega

/-- The significand that `roundMagnitude` makes of `m · 2^e`, in units of the last place. -/
def significand (m : Nat) (e : Int) : Nat :=
  if ulpExp m e ≤ e then m * 2 ^ (e - ulpExp m e).toNat else roundShift m (ulpExp m e - e).toNat

/-- The significand times its unit is off by half a unit at most. -/
theorem significand_near (m : Nat) (e : Int) :
    |(significand m e : ℚ) * 2 ^ ulpExp m e - m * 2 ^ e| ≤ 2 ^ ulpExp m e / 2 := by
  unfold significand
  generalize ulpExp m e = q
  by_cases hq : q ≤ e
  · rw [if_pos hq, Nat.cast_mul, Nat.cast_pow, Nat.cast_ofNat, mul_assoc, two_zpow_toNat hq, sub_self, abs_zero]
    positivity
  · rw [if_neg hq, ← two_zpow_toNat (not_le.mp hq).le]
    generalize (q - e).toNat = sh
    have hpos : (0 : ℚ) < 2 ^ e := by positivity
    obtain ⟨hhigh, hlow⟩ := roundShift_near m sh
    have hhigh' : (2 : ℚ) * (roundShift m sh * 2 ^ sh) ≤ 2 * m + 2 ^ sh := by exact_mod_cast hhigh
    have hlow' : (2 : ℚ) * m ≤ 2 * (roundShift m sh * 2 ^ sh) + 2 ^ sh := by exact_mod_cast hlow
    rw [abs_le]
    constructor <;> nlinarith

/-- The power of two at or below `m · 2^e`. -/
theorem binade_bounds {m : Nat} (hm : m ≠ 0) (e : Int) :
    (2 : ℚ) ^ (e + Nat.log2 m) ≤ m * 2 ^ e ∧ (m : ℚ) * 2 ^ e < 2 ^ (e + Nat.log2 m + 1) := by
  have hpos : (0 : ℚ) < 2 ^ e := by positivity
  have hlow : (2 : ℚ) ^ Nat.log2 m ≤ m := by exact_mod_cast Nat.log2_self_le hm
  have hhigh : (m : ℚ) < 2 ^ (Nat.log2 m + 1) := by exact_mod_cast Nat.lt_log2_self
  rw [add_assoc, zpow_add₀ two_ne_zero, zpow_add₀ two_ne_zero, mul_comm _ (2 ^ e), zpow_natCast, ← Nat.cast_succ,
    zpow_natCast]
  exact ⟨mul_le_mul_of_nonneg_left hlow hpos.le, mul_lt_mul_of_pos_left hhigh hpos⟩

theorem ulpExp_eq (m : Nat) (e : Int) : ulpExp m e = max (e + Nat.log2 m - 52) (-1074) := by
  unfold ulpExp
  omega

/-- A significand has 53 bits at most, or is the carry to 2^53; and 53 bits at least, unless it is subnormal. -/
theorem significand_range {m : Nat} (hm : m ≠ 0) (e : Int) :
    significand m e ≤ 2 ^ 53 ∧ (ulpExp m e = -1074 ∨ 2 ^ 52 ≤ significand m e) := by
  obtain ⟨hlow, hhigh⟩ := binade_bounds hm e
  obtain ⟨hnear1, hnear2⟩ := abs_le.mp (significand_near m e)
  have hq := ulpExp_eq m e
  generalize ulpExp m e = q at *
  generalize significand m e = sig at *
  have hpos : (0 : ℚ) < 2 ^ q := by positivity
  have hscale : ∀ k : ℕ, (2 : ℚ) ^ ((k : Int) + q) = 2 ^ k * 2 ^ q := fun k => by rw [zpow_add₀ two_ne_zero, zpow_natCast]
  have hlt : ∀ {a b : Nat}, (a : ℚ) * 2 ^ q < b * 2 ^ q → a < b := fun h =>
    Nat.cast_lt.mp (lt_of_mul_lt_mul_right h hpos.le)
  constructor
  · have htop := hhigh.trans_le (zpow_le_zpow_right₀ one_le_two (show e + Nat.log2 m + 1 ≤ (53 : Nat) + q by omega))
    rw [hscale] at htop
    refine Nat.lt_succ_iff.mp (hlt ?_)
    push_cast
    linarith
  · refine or_iff_not_imp_left.mpr fun hsub => ?_
    rw [show e + Nat.log2 m = (52 : Nat) + q by omega, hscale] at hlow
    refine Nat.lt_succ_iff.mp (hlt ?_)
    push_cast
    linarith

theorem roundMagnitude_eq {m : Nat} (hm : m ≠ 0) {e : Int} (hq : ulpExp m e ≤ 200) :
    roundMagnitude m e = (ulpExp m e + 1074).toNat * 2 ^ 52 + significand m e
      ∧ roundMagnitude m e < infMagnitude := by
  obtain ⟨hhigh, _⟩ := significand_range hm e
  have hround : roundMagnitude m e = min ((ulpExp m e + 1074).toNat * 2 ^ 52 + significand m e) infMagnitude := if_neg hm
  unfold infMagnitude at *
  omega

/-- A packed value is its significand in units of the last place. -/
theorem hasValue_significand {m : Nat} (hm : m ≠ 0) {e : Int} (hq : ulpExp m e ≤ 200) :
    HasValue (roundPack false m e) (significand m e * 2 ^ ulpExp m e) := by
  obtain ⟨heq, hfin⟩ := roundMagnitude_eq hm hq
  obtain ⟨hhigh, hnormal⟩ := significand_range hm e
  have hulp := ulpExp_eq m e
  unfold infMagnitude at hfin
  have hmag : magnitude (roundPack false m e) = roundMagnitude m e := by
    unfold magnitude roundPack
    rw [BitVec.extractLsb'_toNat, toNat_pack false (by omega), Nat.shiftRight_zero, Bool.toNat_false]
    omega
  have hexp : expField (roundPack false m e) ≠ 2047 := by
    have hfields := (magnitude_fields (roundPack false m e)).1
    omega
  have hvalue := hasValue_units (v := roundPack false m e) (signBit_pack _ _) hexp
  rwa [hmag, heq, units_join hhigh (by omega), Nat.cast_mul, Nat.cast_pow, Nat.cast_ofNat, mul_assoc,
    show ulpExp m e + 1074 = ulpExp m e - -1074 by omega, two_zpow_toNat (by omega)] at hvalue

/-- `y` is as near to `x` as one rounding leaves it: off by 2^-53 of `x` at most, plus 2^-100 for the subnormals. -/
def Rounds (x y : ℚ) : Prop := |y - x| ≤ x / 2 ^ 53 + 1 / 2 ^ 100

/-- Half a unit in the last place, against the value. -/
theorem half_ulp_le {m : Nat} (hm : m ≠ 0) (e : Int) :
    (2 : ℚ) ^ ulpExp m e / 2 ≤ m * 2 ^ e / 2 ^ 53 + 1 / 2 ^ 100 := by
  obtain ⟨hlow, _⟩ := binade_bounds hm e
  have hq := ulpExp_eq m e
  rcases le_total (e + Nat.log2 m - 52) (-1074) with hsub | hnorm
  · have htiny : (2 : ℚ) ^ ulpExp m e ≤ 2 ^ (-100 : Int) := zpow_le_zpow_right₀ one_le_two (by omega)
    have hx : (0 : ℚ) ≤ m * 2 ^ e := by positivity
    rw [zpow_neg] at htiny
    norm_num at htiny ⊢
    linarith
  · rw [show e + Nat.log2 m = (52 : Nat) + ulpExp m e by omega, zpow_add₀ two_ne_zero, zpow_natCast] at hlow
    linarith

/-- Packing a value rounds it once. -/
theorem hasValue_roundPack {m : Nat} {e : Int} (h : (m : ℚ) * 2 ^ e < 2 ^ 200) :
    ∃ y, HasValue (roundPack false m e) y ∧ Rounds (m * 2 ^ e) y := by
  by_cases hm : m = 0
  · have hzero : roundPack false m e = fzero := by
      rw [hm, roundPack, roundMagnitude, if_pos rfl]
      rfl
    exact ⟨0, hzero ▸ hasValue_fzero, by simp [Rounds, hm]⟩
  · obtain ⟨hlow, _⟩ := binade_bounds hm e
    have hbinade : e + Nat.log2 m < (200 : Nat) :=
      (zpow_lt_zpow_iff_right₀ (one_lt_two (α := ℚ))).mp (hlow.trans_lt (by rwa [zpow_natCast]))
    have hq := ulpExp_eq m e
    exact ⟨_, hasValue_significand hm (by omega), (significand_near m e).trans (half_ulp_le hm e)⟩

/-! ### Products (R14) -/

/-- A product is the product of the values, rounded once. -/
theorem hasValue_fmul {a b : F64} {x y : ℚ} (ha : HasValue a x) (hb : HasValue b y) (h : x * y < 2 ^ 200) :
    ∃ z, HasValue (fmul a b) z ∧ Rounds (x * y) z := by
  obtain ⟨m₁, e₁, hm₁, rfl⟩ := ha
  obtain ⟨m₂, e₂, hm₂, rfl⟩ := hb
  have hprod : (m₁ : ℚ) * 2 ^ e₁ * (m₂ * 2 ^ e₂) = (m₁ * m₂ : Nat) * 2 ^ (e₁ + e₂) := by
    rw [zpow_add₀ two_ne_zero, Nat.cast_mul]
    ring
  have hmul : fmul a b = roundPack false (m₁ * m₂) (e₁ + e₂) := by
    unfold fmul
    rw [hm₁, hm₂]
    rfl
  rw [hprod] at h ⊢
  rw [hmul]
  exact hasValue_roundPack h

/-- Multiplying a finite value by 1.0 leaves it, bit for bit. -/
theorem fmul_fone {v : F64} (h : IsFinite v) : fmul v fone = v := by
  obtain ⟨n, m, e, hv⟩ := h
  have hone : unpack fone = .finite false (2 ^ 52) (-52) := by decide
  unfold fmul
  rw [hv, hone]
  dsimp only
  rw [Bool.bne_false, ← sub_eq_add_neg]
  exact (roundPack_scale n m 52 e).trans (roundPack_unpack hv)

/-- A sum of finite values does not depend on their order. -/
theorem fadd_comm {a b : F64} (ha : IsFinite a) (hb : IsFinite b) : fadd a b = fadd b a := by
  obtain ⟨n₁, m₁, e₁, ha⟩ := ha
  obtain ⟨n₂, m₂, e₂, hb⟩ := hb
  unfold fadd
  rw [ha, hb]
  simp only [addVals, addFinite, min_comm e₁ e₂, add_comm (signed n₁ _), Bool.and_comm n₁ n₂]

/-! ### The sum of a tile of bytes (R101) -/

/-- Integers are exact. -/
theorem hasValue_scaled {k : Nat} (hk : k < 2 ^ 33) : HasValue (scaled (k * 2 ^ 20)) k := by
  obtain ⟨m, e, hm, he, hval⟩ := unpack_scaled (k := (k : Int) * 2 ^ 20) (by omega)
  rw [decide_eq_false (show ¬ (k : Int) * 2 ^ 20 < 0 by omega)] at hm
  have habs : ((k : Int) * 2 ^ 20).natAbs = k * 2 ^ 20 := by omega
  refine ⟨_, e, hm, ?_⟩
  rw [hval, habs, Nat.cast_mul, Nat.cast_mul, Nat.cast_pow, Nat.cast_pow, Nat.cast_ofNat,
    mul_assoc, two_zpow_toNat he, mul_assoc, zpow_neg]
  norm_num

theorem hasValue_f64OfByte (b : Byte) : HasValue (f64OfByte b) b.toNat := by
  rw [f64OfByte_scaled]
  exact hasValue_scaled (by omega)

/-- The bytes added in the first `n` rounds of the two loops. -/
def byteSum (b : Nat → Nat → Byte) : Nat → Nat
  | 0 => 0
  | k + 1 => byteSum b k + (b (k / 8) (k % 8)).toNat

theorem byteSum_le (b : Nat → Nat → Byte) (n : Nat) : byteSum b n ≤ 255 * n := by
  induction n with
  | zero => exact Nat.zero_le _
  | succ n ih =>
    rw [byteSum]
    omega

/-- Sums of widened bytes are exact. -/
theorem loopSum_f64OfByte {term : Nat → Nat → F64} {b : Nat → Nat → Byte} {n : Nat} (hn : n ≤ 64)
    (h : ∀ k < n, term (k / 8) (k % 8) = f64OfByte (b (k / 8) (k % 8))) :
    loopSum term n = scaled (byteSum b n * 2 ^ 20) := by
  induction n with
  | zero =>
    rw [byteSum, Nat.cast_zero, zero_mul, scaled_zero]
    rfl
  | succ n ih =>
    have hbound := byteSum_le b n
    rw [loopSum, ih (by omega) fun k hk => h k (by omega), h n (by omega), f64OfByte_scaled, fadd_scaled (by omega) (by omega),
      byteSum, Nat.cast_add, add_mul]

/-- Byte (x, y) of tile (tr, tc) of IN[ch]. -/
def tileByte (s : State) (ch : Channel) (tr tc x y : Nat) : Byte :=
  readByte s (inputAddr s.params ch ((8 * tr + x) * side s.params + (8 * tc + y)))

theorem byteSum_tileByte (s : State) (ch : Channel) (tr tc : Nat) : byteSum (tileByte s ch tr tc) 64 = tileSum s ch tr tc := by
  simp [byteSum, tileByte, tileSum, List.range_succ, add_assoc]

theorem tileSum_le (s : State) (ch : Channel) (tr tc : Nat) : tileSum s ch tr tc ≤ 16320 :=
  byteSum_tileByte s ch tr tc ▸ byteSum_le (tileByte s ch tr tc) 64

/-! ### The DC coefficient and its reconstruction (R101) -/

/-- The DC coefficient of a tile whose bytes add to `S`. -/
def dcCoefficient (S : Nat) : F64 := fmul (fmul (fmul (scale 0) (scale 0)) fquarter) (scaled (S * 2 ^ 20))

/-- The sample that DCTI makes of a tile with that coefficient alone. -/
def dcSample (S : Nat) : F64 := clamp255 (fmul fquarter (fmul (fmul (scale 0) (scale 0)) (dcCoefficient S)))

theorem hasValue_dcScale : HasValue (fmul (fmul (scale 0) (scale 0)) fquarter) ((2 ^ 52 + 1) / 2 ^ 55) :=
  ⟨2 ^ 52 + 1, -55, by decide, by norm_num⟩

theorem hasValue_scale_sq : HasValue (fmul (scale 0) (scale 0)) ((2 ^ 52 + 1) / 2 ^ 53) :=
  ⟨2 ^ 52 + 1, -53, by decide, by norm_num⟩

theorem hasValue_fquarter : HasValue fquarter (1 / 4) := ⟨2 ^ 52, -54, by decide, by norm_num⟩

/-- The two constants err upwards by more than the three roundings can take back, and all errors together stay below 1/64: the
value lies in the right unit. -/
theorem mean_bounds {S : Nat} (hS : S ≤ 16320) {f w g : ℚ} (hf : Rounds ((2 ^ 52 + 1) / 2 ^ 55 * S) f)
    (hw : Rounds ((2 ^ 52 + 1) / 2 ^ 53 * f) w) (hg : Rounds (1 / 4 * w) g) (hg0 : 0 ≤ g) :
    (S : ℚ) / 64 ≤ g ∧ g < (S + 1) / 64 := by
  have hS' : (S : ℚ) ≤ 16320 := by exact_mod_cast hS
  obtain ⟨hf1, hf2⟩ := abs_le.mp hf
  obtain ⟨hw1, hw2⟩ := abs_le.mp hw
  obtain ⟨hg1, hg2⟩ := abs_le.mp hg
  refine ⟨?_, by linarith⟩
  rcases Nat.eq_zero_or_pos S with rfl | hpos
  · simpa using hg0
  · have hpos' : (1 : ℚ) ≤ S := by exact_mod_cast hpos
    linarith

/-- The DC coefficient, and the one term of its inverse, each a product rounded once. -/
theorem dc_values {S : Nat} (hS : S ≤ 16320) :
    ∃ f w, HasValue (dcCoefficient S) f ∧ Rounds ((2 ^ 52 + 1) / 2 ^ 55 * S) f
      ∧ HasValue (fmul (fmul (scale 0) (scale 0)) (dcCoefficient S)) w ∧ Rounds ((2 ^ 52 + 1) / 2 ^ 53 * f) w := by
  have hS' : (S : ℚ) ≤ 16320 := by exact_mod_cast hS
  obtain ⟨f, hf, hfr⟩ := hasValue_fmul hasValue_dcScale (hasValue_scaled (k := S) (by omega)) (by linarith)
  have hbound : f < 4096 := by linarith [(abs_le.mp hfr).2]
  obtain ⟨w, hw, hwr⟩ := hasValue_fmul hasValue_scale_sq hf (by linarith)
  exact ⟨f, w, hf, hfr, hw, hwr⟩

/-- R101: the byte of the sample is the floor of the mean. -/
theorem trunc8_dcSample {S : Nat} (hS : S ≤ 16320) : (trunc8 (dcSample S)).toNat = S / 64 := by
  have hS' : (S : ℚ) ≤ 16320 := by exact_mod_cast hS
  obtain ⟨f, w, _, hfr, hw, hwr⟩ := dc_values hS
  have hbound : w < 4096 := by linarith [(abs_le.mp hfr).2, (abs_le.mp hwr).2]
  obtain ⟨g, hg, hgr⟩ := hasValue_fmul hasValue_fquarter hw (by linarith)
  obtain ⟨hlow, hhigh⟩ := mean_bounds hS hfr hwr hgr hg.nonneg
  have hfloor : ⌊min g 255⌋₊ = S / 64 := by
    have hdiv : 64 * (S / 64) ≤ S ∧ S < 64 * (S / 64 + 1) ∧ S / 64 ≤ 255 := by omega
    generalize S / 64 = d at hdiv
    have hd : (64 : ℚ) * d ≤ S ∧ (S : ℚ) + 1 ≤ 64 * (d + 1) ∧ (d : ℚ) ≤ 255 := by exact_mod_cast hdiv
    obtain ⟨hd1, hd2, hd3⟩ := hd
    rw [Nat.floor_eq_iff (le_min hg.nonneg (by norm_num))]
    exact ⟨le_min (by linarith) hd3, (min_le_left _ _).trans_lt (by linarith)⟩
  unfold trunc8 dcSample
  rw [floorNat_of_hasValue (hasValue_clamp255 hg), hfloor, BitVec.toNat_ofNat]
  omega

/-! ### The three commands on a tile (R94, R97, R109) -/

/-- A command that does not write the BASIS window leaves the basis in U and V. -/
theorem basisHeld_completion {s : State} (h : basisHeld s) {i : Instr} (hi : writesTo i ≠ some .basis) :
    basisHeld (finish (effectOf i s)) := by
  intro k j hk hj
  simp only [finish_params, effectOf_params, readF64_finish]
  obtain ⟨hU, hV⟩ := h k j hk hj
  exact ⟨(readF64_congr fun _ hx => effectOf_frame hi (basisU_in_window hk hj hx)).trans hU,
    (readF64_congr fun _ hx => effectOf_frame hi (basisV_in_window hk hj hx)).trans hV⟩

/-- The parameters and the basis after a completion, as the statements name it. -/
theorem operands_of_exec {s t : State} {i : Instr} (hbusy : s.phase = .busy) (hexec : exec i s = .next t)
    (hi : writesTo i ≠ some .basis) (h : basisHeld s) : t.params = s.params ∧ basisHeld t := by
  rw [exec_busy hbusy] at hexec
  cases hexec
  exact ⟨effectOf_params i s, basisHeld_completion h hi⟩

/-- DCTF puts the DC coefficient of the tile's byte sum at position (0, 0): row 0 of the basis is 1.0, so the sum is of the bytes
alone. -/
theorem dc_of_dctf {s t : State} {m : ChanMask} (hbusy : s.phase = .busy) (hbasis : basisHeld s)
    (hexec : exec (.dctf m) s = .next t) {ch : Channel} (hm : m.has ch = true) {tr tc : Nat} (htr : 8 * tr < side s.params)
    (htc : 8 * tc < side s.params) : element t .freq ch (8 * tr) (8 * tc) = dcCoefficient (tileSum s ch tr tc) := by
  obtain ⟨t', hexec', _, _, helement, _⟩ := dctfCompletes s m hbusy
  obtain rfl := next_unique hexec hexec'
  rw [helement ch _ _ hm htr htc]
  simp only [Nat.mul_mod_right, Nat.mul_div_cancel_left _ (show 0 < 8 by decide)]
  rw [loopSum_f64OfByte (b := tileByte s ch tr tc) le_rfl fun k hk => ?_, byteSum_tileByte]
  · rfl
  · have hfin := (hasValue_f64OfByte (tileByte s ch tr tc (k / 8) (k % 8))).isFinite
    rw [(hbasis 0 (k / 8) (by omega) (by omega)).1, (hbasis 0 (k % 8) (by omega) (by omega)).2,
      basisTable_row_zero _ (by omega), basisTable_row_zero _ (by omega)]
    exact (congrArg (fmul · fone) (fmul_fone hfin)).trans (fmul_fone hfin)

/-- ZZSEL at a quota of 1 keeps position (0, 0) of a tile, and nothing else. -/
theorem element_of_zzsel_one {s t : State} {m : ChanMask} (hbusy : s.phase = .busy) (hexec : exec (.zzsel m) s = .next t)
    (hquota : min (rhu s.curBudget.toNat (side s.params * side s.params / 64)) 64 = 1) {ch : Channel} (hm : m.has ch = true)
    {r c : Nat} (hr : r < side s.params) (hc : c < side s.params) :
    element t .sel ch r c = if r % 8 = 0 ∧ c % 8 = 0 then element s .freq ch r c else 0 := by
  obtain ⟨t', hexec', _, _, helement, _⟩ := zzselCompletes s m hbusy
  obtain rfl := next_unique hexec hexec'
  rw [helement ch r c hm hr hc, hquota, show zigzag.take 1 = [(0, 0)] from rfl]
  simp

/-- The first round of the two loops leaves its term. -/
theorem loopSum_one {term : Nat → Nat → F64} {x : ℚ} (h : HasValue (term 0 0) x) : loopSum term 1 = term 0 0 := by
  obtain ⟨m, e, hm, _⟩ := h
  refine (fadd_comm hasValue_fzero.isFinite ⟨_, _, _, hm⟩).trans ?_
  exact fadd_zeros_right (.inl rfl) hm (.inr rfl)

/-- The term of a DC coefficient is that coefficient, scaled: row 0 of the basis is 1.0. -/
theorem inverseTerm_zero {s : State} (hbasis : basisHeld s) {F : Nat → Nat → F64} {x y : Nat} (hx : x < 8) (hy : y < 8)
    (h : IsFinite (fmul (fmul (scale 0) (scale 0)) (F 0 0))) :
    inverseTerm s F x y 0 0 = fmul (fmul (scale 0) (scale 0)) (F 0 0) := by
  unfold inverseTerm
  rw [(hbasis 0 x (by decide) hx).1, (hbasis 0 y (by decide) hy).2, basisTable_row_zero _ hx, basisTable_row_zero _ hy,
    fmul_fone h, fmul_fone h]

/-- DCTI of a tile with a DC coefficient alone: the other 63 rounds add zeros. -/
theorem element_of_dcti_dc {s t : State} {m : ChanMask} (hbusy : s.phase = .busy) (hbasis : basisHeld s)
    (hexec : exec (.dcti m) s = .next t) {ch : Channel} (hm : m.has ch = true) {r c : Nat} (hr : r < side s.params)
    (hc : c < side s.params) {S : Nat} (hS : S ≤ 16320)
    (hsel : ∀ u v, u < 8 → v < 8 →
      element s .sel ch (8 * (r / 8) + u) (8 * (c / 8) + v) = if u = 0 ∧ v = 0 then dcCoefficient S else 0) :
    element t .recon ch r c = dcSample S := by
  rw [element_of_dcti hbusy hexec hm hr hc]
  generalize hF : (fun u v => element s .sel ch (8 * (r / 8) + u) (8 * (c / 8) + v)) = F
  have hsel' : ∀ u v, u < 8 → v < 8 → F u v = if u = 0 ∧ v = 0 then dcCoefficient S else 0 := hF ▸ hsel
  have hx : r % 8 < 8 := Nat.mod_lt _ (by decide)
  have hy : c % 8 < 8 := Nat.mod_lt _ (by decide)
  have hdc : F 0 0 = dcCoefficient S := (hsel' 0 0 (by decide) (by decide)).trans (if_pos ⟨rfl, rfl⟩)
  obtain ⟨f, w, _, _, hw, _⟩ := dc_values hS
  have hterm := inverseTerm_zero hbasis (F := F) hx hy (hdc ▸ hw.isFinite)
  rw [hdc] at hterm
  have hfirst := loopSum_one (hterm ▸ hw)
  obtain ⟨k, e, hk, _⟩ := hw
  have htail := loopSum_of_zero_tail (term := inverseTerm s F (r % 8) (c % 8)) (show 1 ≤ 64 by decide) (by rw [hfirst, hterm, hk])
    fun k hk hlt => isZero_inverseTerm hbasis hx hy (by omega) (by omega)
      (.inl ((hsel' _ _ (by omega) (by omega)).trans (if_neg (by omega))))
  rw [htail, hfirst, hterm]
  rfl

/-- Settles O33: every sample of the tile is the sample of its DC coefficient, whose byte is the floor of the mean. -/
theorem dctAtOneCoefficientShowsTileMeans : Obligations.DctAtOneCoefficientShowsTileMeans := by
  intro s t₁ t₂ t₃ m n₁ n₂ n₃ hbasis hquota hdctf hzzsel hdcti ch r c hm hr hc
  obtain ⟨hp₁, hb₁⟩ := operands_of_exec (s := running s n₁) rfl hdctf nofun hbasis
  obtain ⟨hp₂, hb₂⟩ := operands_of_exec (s := running t₁ n₂) rfl hzzsel nofun hb₁
  have hside₁ : side t₁.params = side s.params := congrArg side hp₁
  have hside₂ : side t₂.params = side s.params := (congrArg side hp₂).trans hside₁
  have hsample : ∀ r' c', r' < side s.params → c' < side s.params → r' / 8 = r / 8 → c' / 8 = c / 8 →
      element t₃ .recon ch r' c' = dcSample (tileSum s ch (r / 8) (c / 8)) := by
    intro r' c' hr' hc' hrow hcol
    refine element_of_dcti_dc (s := running t₂ n₃) rfl hb₂ hdcti hm (hside₂ ▸ hr') (hside₂ ▸ hc')
      (tileSum_le s ch _ _) fun u v hu hv => ?_
    have hru := tile_lt hr' hu
    have hcv := tile_lt hc' hv
    refine (element_of_zzsel_one (s := running t₁ n₂) rfl hzzsel (hside₁ ▸ hquota) hm (hside₁ ▸ hru) (hside₁ ▸ hcv)).trans ?_
    by_cases h0 : u = 0 ∧ v = 0
    · obtain ⟨rfl, rfl⟩ := h0
      rw [if_pos (by omega), if_pos ⟨rfl, rfl⟩, ← hrow, ← hcol]
      exact dc_of_dctf (s := running s n₁) rfl hbasis hdctf hm hru hcv
    · rw [if_neg (by omega), if_neg h0]
  have hcorner := hsample (8 * (r / 8)) (8 * (c / 8)) (by omega) (by omega) (by omega) (by omega)
  rw [hcorner, hsample r c hr hc rfl rfl]
  exact ⟨rfl, trunc8_dcSample (tileSum_le s ch _ _)⟩

end Sys2Proof.Proofs
end

section
/-! SUPPORT. The statements of `42_zigzag.md`: the rounding of R106, the zig-zag order (R107, R108), and what the quotas make of the
budget (R110 to R112, and R131, R133 for the two policies of `44_dwtsel.md`). -/

open Sys2Proof Sys2Proof.Machine Sys2Proof.Claims

namespace Sys2Proof.Proofs

/-! ### The rounded quotient (R106) -/

/-- Settles O25: `rhu` is a quotient, and `2 * b` times a quotient is the last multiple not above the dividend. -/
theorem rhuRoundsHalfUp : Obligations.RhuRoundsHalfUp := by
  intro n b hb
  rw [← Nat.mul_assoc, ← Nat.mul_assoc]
  exact ⟨Nat.mul_div_le _ _, Nat.lt_mul_div_succ _ (by omega)⟩

theorem rhu_mono {n₁ n₂ : Nat} (h : n₁ ≤ n₂) (b : Nat) : rhu n₁ b ≤ rhu n₂ b :=
  Nat.div_le_div_right (by omega)

/-- A budget of 0 rounds to 0, for every divisor. -/
@[simp] theorem rhu_zero (b : Nat) : rhu 0 b = 0 :=
  Nat.div_eq_zero_iff.mpr (by omega)

theorem rhu_lt_iff {b : Nat} (hb : 0 < b) (n k : Nat) : rhu n b < k ↔ 2 * n + b < k * (2 * b) :=
  Nat.div_lt_iff_lt_mul (by omega)

/-- The quota is short of the 64 entries below `63.5 * b`. -/
theorem min_rhu_lt_iff {b : Nat} (hb : 0 < b) (n : Nat) : min (rhu n b) 64 < 64 ↔ 2 * n + b < 128 * b := by
  have hlt := rhu_lt_iff hb n 64
  omega

/-! ### The zig-zag order (R107, R108) -/

/-- The walk is a reordering of the tile's positions in row order. -/
theorem zigzag_perm_tile : zigzag.Perm (List.range 8 ×ˢ List.range 8) := by decide

theorem zigzag_nodup : zigzag.Nodup :=
  zigzag_perm_tile.nodup_iff.mpr (List.nodup_range.product List.nodup_range)

theorem mem_zigzag {r c : Nat} (hr : r < 8) (hc : c < 8) : (r, c) ∈ zigzag :=
  zigzag_perm_tile.mem_iff.mpr (List.mem_product.mpr ⟨List.mem_range.mpr hr, List.mem_range.mpr hc⟩)

/-- Settles O27: the 64 steps of the walk run to the table, and the walk reorders the tile. -/
theorem zigzagOrderIsTheSpecTable : Obligations.ZigzagOrderIsTheSpecTable :=
  ⟨rfl, zigzag_nodup, fun _ _ => mem_zigzag⟩

/-! ### The quotas at two budgets (R110, R131) -/

theorem isqrt_eq_sqrt (n : Word) : isqrt n = n.toNat.sqrt :=
  Nat.eq_sqrt.mpr (isFloorRoot_isqrt n)

theorem zigzagQuota_mono (s : State) {n₁ n₂ : Word} (h : n₁.toNat ≤ n₂.toNat) :
    zigzagQuota { s with curBudget := n₁ } ≤ zigzagQuota { s with curBudget := n₂ } :=
  min_le_min_right 64 (rhu_mono h _)

theorem blockQuota_mono (s : State) {n₁ n₂ : Word} (h : n₁.toNat ≤ n₂.toNat) :
    blockQuota { s with curBudget := n₁ } ≤ blockQuota { s with curBudget := n₂ } :=
  min_le_min_right 64 (rhu_mono h _)

theorem radius_mono (s : State) {n₁ n₂ : Word} (h : n₁.toNat ≤ n₂.toNat) :
    radius { s with curBudget := n₁ } ≤ radius { s with curBudget := n₂ } := by
  simp only [radius, isqrt_eq_sqrt]
  exact min_le_min_right _ (Nat.sqrt_le_sqrt h)

theorem blockKept_mono {p : Params} {q₁ q₂ : Nat} (h : q₁ ≤ q₂) {br bc : Nat} (hkept : blockKept p q₁ br bc = true) :
    blockKept p q₂ br bc = true := by
  rw [blockKept_iff] at hkept ⊢
  obtain ⟨e, he, hpos⟩ := hkept
  exact ⟨e, List.take_subset_take_left _ h he, hpos⟩

/-- Settles O28: each quota grows with the budget, and a longer prefix of a list has the entries of a shorter one. -/
theorem largerBudgetKeepsMore : Obligations.LargerBudgetKeepsMore := fun s _ _ h =>
  ⟨fun _ hq => List.take_subset_take_left _ (zigzagQuota_mono s h) hq, radius_mono s h,
    fun _ _ => blockKept_mono (blockQuota_mono s h)⟩

/-! ### Truncation (R111, R133) -/

theorem tileCount_pos (p : Params) : 0 < tileCount p :=
  Nat.div_pos (Nat.mul_self_le_mul_self (eight_le_side p)) (by decide)

theorem mbSide_pos (p : Params) : 0 < mbSide p :=
  Nat.div_pos (eight_le_side p) (by decide)

theorem radius_lt_side {s : State} (h : s.curBudget.toNat < side s.params * side s.params) : radius s < side s.params :=
  lt_of_le_of_lt (min_le_left _ _) (isqrt_eq_sqrt s.curBudget ▸ Nat.sqrt_lt.mpr h)

/-- Settles O29: both quotas are the rounded quotient of R106 cut at 64, by a positive divisor. -/
theorem truncationThresholds : Obligations.TruncationThresholds := fun s =>
  ⟨min_rhu_lt_iff (tileCount_pos s.params) _,
    min_rhu_lt_iff (Nat.mul_pos (mbSide_pos s.params) (mbSide_pos s.params)) _,
    fun h => Nat.le_sub_one_of_lt (radius_lt_side h)⟩

/-! ### A budget of 0 (R112) -/

/-- Settles O30: the quota is 0, so no position of a tile is kept. -/
theorem zzselAtZeroBudgetWritesZeros : Obligations.ZzselAtZeroBudgetWritesZeros := by
  intro s t m hexec ch r c hm hr hc
  obtain ⟨t', hexec', _, _, helement, _⟩ := zzselCompletes (running s 0) m rfl
  obtain rfl := next_unique hexec hexec'
  exact (helement ch r c hm hr hc).trans (if_neg (by simp [running, rhu_zero]))

end Sys2Proof.Proofs
end

section
/-! SUPPORT. The statements of `43_dwt.md`: what one level of the DWT computes (R114, R117), the DWT of a constant plane (R116),
and the exact round trip of DWTF and DWTI (R119, R121). -/

open Sys2Proof Sys2Proof.Machine Sys2Proof.Claims

namespace Sys2Proof.Proofs

/-! ### One row or column (R114, R117) -/

theorem analyse_low {h j : Nat} (a : Nat → F64) (hj : j < h) :
    analyse (2 * h) a j = lowPass (a (2 * j)) (a (2 * j + 1)) :=
  if_pos (by omega)

theorem analyse_high (h j : Nat) (a : Nat → F64) :
    analyse (2 * h) a (h + j) = highPass (a (2 * j)) (a (2 * j + 1)) := by
  have hhalf : h + j - 2 * h / 2 = j := by omega
  rw [analyse, if_neg (by omega), hhalf]

theorem synthesise_even (w i : Nat) (a : Nat → F64) : synthesise w a (2 * i) = fadd (a i) (a (i + w)) := by
  have hhalf : 2 * i / 2 = i := by omega
  rw [synthesise, if_pos (by omega), hhalf]

theorem synthesise_odd (w i : Nat) (a : Nat → F64) : synthesise w a (2 * i + 1) = fsub (a i) (a (i + w)) := by
  have hhalf : (2 * i + 1) / 2 = i := by omega
  rw [synthesise, if_neg (by omega), hhalf]

/-- Analysis reads the first `2 * h` samples alone. -/
theorem analyse_congr {h j : Nat} {a b : Nat → F64} (hab : ∀ i < 2 * h, a i = b i) (hj : j < 2 * h) :
    analyse (2 * h) a j = analyse (2 * h) b j := by
  unfold analyse
  split <;> rw [hab _ (by omega), hab _ (by omega)]

/-- Synthesis reads the first `2 * w` samples alone. -/
theorem synthesise_congr {w j : Nat} {a b : Nat → F64} (hab : ∀ i < 2 * w, a i = b i) (hj : j < 2 * w) :
    synthesise w a j = synthesise w b j := by
  unfold synthesise
  split <;> rw [hab _ (by omega), hab _ (by omega)]

/-! ### One level (R114, R117) -/

section Passes
variable {n w r c : Nat} (g : (Nat → F64) → Nat → F64) (W : Plane)

theorem rowPass_inside (hn : w ≤ n) (hr : r < w) (hc : c < w) : (rowPass n w g W).at r c = g (fun j => W.at r j) c :=
  (at_tabulate _ (by omega) (by omega)).trans (if_pos ⟨hr, hc⟩)

theorem rowPass_outside (hr : r < n) (hc : c < n) (hout : w ≤ r ∨ w ≤ c) : (rowPass n w g W).at r c = W.at r c :=
  (at_tabulate _ hr hc).trans (if_neg (by omega))

theorem colPass_inside (hn : w ≤ n) (hr : r < w) (hc : c < w) : (colPass n w g W).at r c = g (fun i => W.at i c) r :=
  (at_tabulate _ (by omega) (by omega)).trans (if_pos ⟨hr, hc⟩)

theorem colPass_outside (hr : r < n) (hc : c < n) (hout : w ≤ r ∨ w ≤ c) : (colPass n w g W).at r c = W.at r c :=
  (at_tabulate _ hr hc).trans (if_neg (by omega))

end Passes

/-- A sample of the working region after a forward level: its row analysed, then its column. -/
theorem forwardLevel_inside {n h r c : Nat} (W : Plane) (hn : 2 * h ≤ n) (hr : r < 2 * h) (hc : c < 2 * h) :
    (forwardLevel n (2 * h) W).at r c = analyse (2 * h) (fun i => analyse (2 * h) (fun j => W.at i j) c) r :=
  (colPass_inside _ _ hn hr hc).trans (analyse_congr (fun _ hi => rowPass_inside _ W hn hi hc) hr)

theorem forwardLevel_outside {n w r c : Nat} (W : Plane) (hr : r < n) (hc : c < n) (hout : w ≤ r ∨ w ≤ c) :
    (forwardLevel n w W).at r c = W.at r c :=
  (colPass_outside _ _ hr hc hout).trans (rowPass_outside _ _ hr hc hout)

/-- A sample of the working region after a synthesis level: its column synthesised, then its row. -/
theorem inverseLevel_inside {n w r c : Nat} (W : Plane) (hn : 2 * w ≤ n) (hr : r < 2 * w) (hc : c < 2 * w) :
    (inverseLevel n w W).at r c = synthesise w (fun j => synthesise w (fun i => W.at i j) r) c :=
  (rowPass_inside _ _ hn hr hc).trans (synthesise_congr (fun _ hj => colPass_inside _ W hn hr hj) hc)

theorem inverseLevel_outside {n w r c : Nat} (W : Plane) (hr : r < n) (hc : c < n) (hout : 2 * w ≤ r ∨ 2 * w ≤ c) :
    (inverseLevel n w W).at r c = W.at r c :=
  (rowPass_outside _ _ hr hc hout).trans (colPass_outside _ _ hr hc hout)

/-- Settles O21: each band is a half of the analysed rows and a half of the analysed columns. -/
theorem forwardLevelFormula : Obligations.ForwardLevelFormula := by
  refine fun n h W hn => ⟨fun r c hr hc => ⟨?lowLow, ?lowHigh, ?highLow, ?highHigh⟩,
    fun r c hr hc hout => forwardLevel_outside W hr hc hout⟩
  case lowLow =>
    rw [forwardLevel_inside W hn (by omega) (by omega), analyse_low _ hr, analyse_low _ hc, analyse_low _ hc]
    rfl
  case lowHigh =>
    rw [forwardLevel_inside W hn (by omega) (by omega), analyse_low _ hr, analyse_high, analyse_high]
    rfl
  case highLow =>
    rw [forwardLevel_inside W hn (by omega) (by omega), analyse_high, analyse_low _ hc, analyse_low _ hc]
    rfl
  case highHigh =>
    rw [forwardLevel_inside W hn (by omega) (by omega), analyse_high, analyse_high, analyse_high]
    rfl

/-- Settles O22: each sample is a sum or difference of two synthesised columns. -/
theorem inverseLevelFormula : Obligations.InverseLevelFormula := by
  refine fun n w W hn => ⟨fun i j hi hj => ⟨?evenEven, ?evenOdd, ?oddEven, ?oddOdd⟩,
    fun r c hr hc hout => inverseLevel_outside W hr hc hout⟩
  case evenEven =>
    rw [inverseLevel_inside W hn (by omega) (by omega), synthesise_even, synthesise_even, synthesise_even]
  case evenOdd =>
    rw [inverseLevel_inside W hn (by omega) (by omega), synthesise_odd, synthesise_even, synthesise_even]
  case oddEven =>
    rw [inverseLevel_inside W hn (by omega) (by omega), synthesise_even, synthesise_odd, synthesise_odd]
  case oddOdd =>
    rw [inverseLevel_inside W hn (by omega) (by omega), synthesise_odd, synthesise_odd, synthesise_odd]

/-! ### Exact halves (R119) -/

section EvenIntegers
variable {x y : Int} (hx : x.natAbs < 2 ^ 50) (hy : y.natAbs < 2 ^ 50)
include hx hy

theorem lowPass_scaled : lowPass (scaled (2 * x)) (scaled (2 * y)) = scaled (x + y) := by
  rw [lowPass, fadd_scaled (by omega) (by omega), ← mul_add, fmul_half_scaled (by omega)]

theorem highPass_scaled : highPass (scaled (2 * x)) (scaled (2 * y)) = scaled (x - y) := by
  rw [highPass, fsub_scaled (by omega) (by omega), ← mul_sub, fmul_half_scaled (by omega)]

/-- The low and the high of two samples add up to the first (R117). -/
theorem fadd_lowPass_highPass :
    fadd (lowPass (scaled (2 * x)) (scaled (2 * y))) (highPass (scaled (2 * x)) (scaled (2 * y))) = scaled (2 * x) := by
  rw [lowPass_scaled hx hy, highPass_scaled hx hy, fadd_scaled (by omega) (by omega)]
  congr 1
  ring

/-- The low less the high of two samples is the second (R117). -/
theorem fsub_lowPass_highPass :
    fsub (lowPass (scaled (2 * x)) (scaled (2 * y))) (highPass (scaled (2 * x)) (scaled (2 * y))) = scaled (2 * y) := by
  rw [lowPass_scaled hx hy, highPass_scaled hx hy, fsub_scaled (by omega) (by omega)]
  congr 1
  ring

end EvenIntegers

/-! ### A constant plane (R116) -/

/-- Inside the plane, the top-left square of side `w` holds `v` and the rest +0.0. -/
def ConstantOn (n w : Nat) (v : F64) (W : Plane) : Prop :=
  ∀ r c, r < n → c < n → W.at r c = if r < w ∧ c < w then v else 0

/-- A value that is its own low, and whose high is +0.0, as that of equal samples should be. -/
def IsOwnMean (v : F64) : Prop := lowPass v v = v ∧ highPass v v = 0

theorem isOwnMean_zero : IsOwnMean 0 := by
  unfold IsOwnMean
  decide

/-- The analysis of equal samples: the sample in the low half, +0.0 in the high half. -/
theorem analyse_constant {h j : Nat} {a : Nat → F64} {v : F64} (hv : IsOwnMean v) (ha : ∀ i < 2 * h, a i = v)
    (hj : j < 2 * h) : analyse (2 * h) a j = if j < h then v else 0 := by
  obtain ⟨hlow, hhigh⟩ := hv
  by_cases hjh : j < h
  · rw [analyse_low _ hjh, ha _ (by omega), ha _ (by omega), hlow, if_pos hjh]
  · obtain ⟨i, rfl⟩ := Nat.exists_eq_add_of_le (not_lt.mp hjh)
    rw [analyse_high, ha _ (by omega), ha _ (by omega), hhigh, if_neg hjh]

/-- A forward level on a constant square halves its side: the rows are constant, and then the columns are. -/
theorem forwardLevel_constantOn {n h : Nat} {v : F64} {W : Plane} (hn : 2 * h ≤ n) (hv : IsOwnMean v)
    (hW : ConstantOn n (2 * h) v W) : ConstantOn n h v (forwardLevel n (2 * h) W) := by
  intro r c hr hc
  by_cases hout : 2 * h ≤ r ∨ 2 * h ≤ c
  · rw [forwardLevel_outside W hr hc hout, hW r c hr hc, if_neg (by omega), if_neg (by omega)]
  · have hr2 : r < 2 * h := by omega
    have hc2 : c < 2 * h := by omega
    have hrow : ∀ i < 2 * h, analyse (2 * h) (fun j => W.at i j) c = if c < h then v else 0 := fun i hi =>
      analyse_constant hv (fun j hj => (hW i j (by omega) (by omega)).trans (if_pos ⟨hi, hj⟩)) hc2
    have hcol : IsOwnMean (if c < h then v else 0) := by
      split
      · exact hv
      · exact isOwnMean_zero
    rw [forwardLevel_inside W hn hr2 hc2, analyse_constant hcol hrow hr2, ite_and]

theorem forwardLevels_constantOn {n k : Nat} {v : F64} (hn : 2 ^ k ≤ n) (hv : IsOwnMean v) {W : Plane}
    (hW : ConstantOn n (2 ^ k) v W) : ConstantOn n 1 v (forwardLevels n k W) := by
  induction k generalizing W with
  | zero => exact hW
  | succ k ih =>
    rw [pow_succ'] at hn hW
    rw [forwardLevels, pow_succ']
    exact ih (by omega) (forwardLevel_constantOn hn hv hW)

/-- The widening of a byte is an even scaled integer. -/
theorem f64OfByte_even (b : Byte) : f64OfByte b = scaled (2 * (b.toNat * 2 ^ 19)) := by
  rw [f64OfByte_scaled]
  congr 1
  ring

theorem isOwnMean_f64OfByte (b : Byte) : IsOwnMean (f64OfByte b) := by
  rw [IsOwnMean, f64OfByte_even, lowPass_scaled (by omega) (by omega), highPass_scaled (by omega) (by omega), sub_self, two_mul]
  exact ⟨rfl, scaled_zero⟩

/-- Settles O23: each level keeps the constant in a square of half the side, down to side 1. -/
theorem constantPlaneTransformsToItsMean : Obligations.ConstantPlaneTransformsToItsMean := by
  intro p k r c hr hc
  have hstart : ConstantOn (side p) (2 ^ log2N p) (f64OfByte k) (tabulate (side p) fun _ _ => f64OfByte k) :=
    fun r c hr hc => (at_tabulate _ hr hc).trans (if_pos ⟨hr, hc⟩).symm
  have hend : ConstantOn (side p) 1 (f64OfByte k) (dwtForward p _) :=
    forwardLevels_constantOn le_rfl (isOwnMean_f64OfByte k) hstart
  simpa only [Nat.lt_one_iff] using hend r c hr hc

/-! ### The round trip on planes (R119, R121) -/

/-- A value of the DWT of bytes with `d` levels of halving to spare: a multiple of `2 ^ d` units, at most 255 in magnitude. -/
def Halvable (d : Nat) (v : F64) : Prop := ∃ k : Int, v = scaled k ∧ (2 : Int) ^ d ∣ k ∧ k.natAbs ≤ 255 * 2 ^ 20

theorem Halvable.mono {d d' : Nat} (hd : d ≤ d') {v : F64} (h : Halvable d' v) : Halvable d v := by
  obtain ⟨k, hv, hdvd, hk⟩ := h
  exact ⟨k, hv, (pow_dvd_pow 2 hd).trans hdvd, hk⟩

/-- What one more halving needs: the value is an even integer of units. -/
theorem Halvable.even {d : Nat} {v : F64} (h : Halvable (d + 1) v) :
    ∃ x : Int, v = scaled (2 * x) ∧ (2 : Int) ^ d ∣ x ∧ (2 * x).natAbs ≤ 255 * 2 ^ 20 := by
  obtain ⟨_, hv, ⟨y, rfl⟩, hk⟩ := h
  rw [pow_succ', mul_assoc] at hv hk
  exact ⟨2 ^ d * y, hv, Dvd.intro _ rfl, hk⟩

theorem halvable_f64OfByte (b : Byte) : Halvable 20 (f64OfByte b) :=
  ⟨_, f64OfByte_scaled b, Dvd.intro_left _ rfl, by omega⟩

/-- Analysis spends one halving. -/
theorem halvable_analyse {h d j : Nat} {a : Nat → F64} (ha : ∀ i < 2 * h, Halvable (d + 1) (a i)) (hj : j < 2 * h) :
    Halvable d (analyse (2 * h) a j) := by
  by_cases hjh : j < h
  · obtain ⟨x, hx, hxd, hxb⟩ := (ha (2 * j) (by omega)).even
    obtain ⟨y, hy, hyd, hyb⟩ := (ha (2 * j + 1) (by omega)).even
    rw [analyse_low _ hjh, hx, hy, lowPass_scaled (by omega) (by omega)]
    exact ⟨x + y, rfl, dvd_add hxd hyd, by omega⟩
  · obtain ⟨i, rfl⟩ := Nat.exists_eq_add_of_le (not_lt.mp hjh)
    obtain ⟨x, hx, hxd, hxb⟩ := (ha (2 * i) (by omega)).even
    obtain ⟨y, hy, hyd, hyb⟩ := (ha (2 * i + 1) (by omega)).even
    rw [analyse_high, hx, hy, highPass_scaled (by omega) (by omega)]
    exact ⟨x - y, rfl, dvd_sub hxd hyd, by omega⟩

/-- Synthesis undoes analysis, sample by sample (R117). -/
theorem synthesise_analyse {w d j : Nat} {a : Nat → F64} (ha : ∀ i < 2 * w, Halvable (d + 1) (a i)) (hj : j < 2 * w) :
    synthesise w (analyse (2 * w) a) j = a j := by
  obtain ⟨i, hi⟩ := j.even_or_odd'
  obtain ⟨x, hx, _, hxb⟩ := (ha (2 * i) (by omega)).even
  obtain ⟨y, hy, _, hyb⟩ := (ha (2 * i + 1) (by omega)).even
  rcases hi with rfl | rfl
  · rw [synthesise_even, analyse_low _ (by omega), add_comm i w, analyse_high, hx, hy,
      fadd_lowPass_highPass (by omega) (by omega)]
  · rw [synthesise_odd, analyse_low _ (by omega), add_comm i w, analyse_high, hx, hy,
      fsub_lowPass_highPass (by omega) (by omega)]

/-- A plane that is its own table of n×n elements. -/
def IsSquare (n : Nat) (W : Plane) : Prop := tabulate n W.at = W

theorem isSquare_tabulate (n : Nat) (f : Nat → Nat → F64) : IsSquare n (tabulate n f) :=
  tabulate_congr fun _ _ hr hc => at_tabulate f hr hc

theorem isSquare_rowPass (n w : Nat) (g : (Nat → F64) → Nat → F64) (W : Plane) : IsSquare n (rowPass n w g W) :=
  isSquare_tabulate _ _

theorem isSquare_forwardLevel (n w : Nat) (W : Plane) : IsSquare n (forwardLevel n w W) :=
  isSquare_tabulate _ _

theorem isSquare_forwardLevels {n : Nat} (k : Nat) {W : Plane} (hW : IsSquare n W) : IsSquare n (forwardLevels n k W) := by
  induction k generalizing W with
  | zero => exact hW
  | succ k ih => exact ih (isSquare_forwardLevel _ _ _)

/-- Every sample of the top-left square of side `w` has `d` halvings to spare. -/
def HalvableOn (w d : Nat) (W : Plane) : Prop := ∀ r c, r < w → c < w → Halvable d (W.at r c)

section RoundTrip
variable {n w d : Nat} {W : Plane}

theorem rowPass_halvableOn (hn : 2 * w ≤ n) (hW : HalvableOn (2 * w) (d + 1) W) :
    HalvableOn (2 * w) d (rowPass n (2 * w) (analyse (2 * w)) W) := by
  intro r c hr hc
  rw [rowPass_inside _ W hn hr hc]
  exact halvable_analyse (fun j hj => hW r j hr hj) hc

theorem colPass_halvableOn (hn : 2 * w ≤ n) (hW : HalvableOn (2 * w) (d + 1) W) :
    HalvableOn (2 * w) d (colPass n (2 * w) (analyse (2 * w)) W) := by
  intro r c hr hc
  rw [colPass_inside _ W hn hr hc]
  exact halvable_analyse (fun i hi => hW i c hi hc) hr

theorem rowPass_synthesise_analyse (hn : 2 * w ≤ n) (hsq : IsSquare n W) (hW : HalvableOn (2 * w) (d + 1) W) :
    rowPass n (2 * w) (synthesise w) (rowPass n (2 * w) (analyse (2 * w)) W) = W := by
  refine (tabulate_congr fun r c hr hc => ?_).trans hsq
  split
  · next hin =>
    rw [synthesise_congr (fun j hj => rowPass_inside _ W hn hin.1 hj) hin.2]
    exact synthesise_analyse (fun j hj => hW r j hin.1 hj) hin.2
  · exact rowPass_outside _ W hr hc (by omega)

theorem colPass_synthesise_analyse (hn : 2 * w ≤ n) (hsq : IsSquare n W) (hW : HalvableOn (2 * w) (d + 1) W) :
    colPass n (2 * w) (synthesise w) (colPass n (2 * w) (analyse (2 * w)) W) = W := by
  refine (tabulate_congr fun r c hr hc => ?_).trans hsq
  split
  · next hin =>
    rw [synthesise_congr (fun i hi => colPass_inside _ W hn hi hin.2) hin.1]
    exact synthesise_analyse (fun i hi => hW i c hi hin.2) hin.1
  · exact colPass_outside _ W hr hc (by omega)

/-- A forward level spends two halvings, and its region stays one of exact values. -/
theorem forwardLevel_halvableOn (hn : 2 * w ≤ n) (hW : HalvableOn (2 * w) (d + 2) W) :
    HalvableOn (2 * w) d (forwardLevel n (2 * w) W) :=
  colPass_halvableOn hn (rowPass_halvableOn hn hW)

/-- A synthesis level undoes its forward level: the columns meet first, then the rows. -/
theorem inverseLevel_forwardLevel (hn : 2 * w ≤ n) (hsq : IsSquare n W) (hW : HalvableOn (2 * w) (d + 2) W) :
    inverseLevel n w (forwardLevel n (2 * w) W) = W := by
  unfold inverseLevel forwardLevel
  rw [colPass_synthesise_analyse hn (isSquare_rowPass _ _ _ _) (rowPass_halvableOn hn hW)]
  exact rowPass_synthesise_analyse hn hsq hW

end RoundTrip

/-- The synthesis levels undo the forward levels, when the samples have two halvings to spare for each. -/
theorem inverseLevels_forwardLevels {n k : Nat} {W : Plane} (hn : 2 ^ k ≤ n) (hsq : IsSquare n W)
    (hW : HalvableOn (2 ^ k) (2 * k) W) : inverseLevels n k (forwardLevels n k W) = W := by
  induction k generalizing W with
  | zero => rfl
  | succ k ih =>
    rw [pow_succ'] at hn hW
    have hlevel : HalvableOn (2 ^ k) (2 * k) (forwardLevel n (2 * 2 ^ k) W) := fun r c hr hc =>
      forwardLevel_halvableOn hn hW r c (by omega) (by omega)
    rw [inverseLevels, forwardLevels, pow_succ', ih (by omega) (isSquare_forwardLevel _ _ _) hlevel]
    exact inverseLevel_forwardLevel hn hsq hW

/-- DWTI of the whole DWT of a plane of bytes, before the clamp, is that plane. -/
theorem inverseLevels_dwtForward (p : Params) (b : Nat → Nat → Byte) :
    inverseLevels (side p) (log2N p) (dwtForward p (tabulate (side p) fun r c => f64OfByte (b r c)))
      = tabulate (side p) fun r c => f64OfByte (b r c) := by
  refine inverseLevels_forwardLevels (n := side p) le_rfl (isSquare_tabulate _ _) fun r c hr hc => ?_
  rw [at_tabulate (n := side p) _ hr hc]
  exact (halvable_f64OfByte _).mono (by have := log2N_le p; omega)

/-- The clamp leaves a widened byte (R121). -/
theorem clamp255_f64OfByte (b : Byte) : clamp255 (f64OfByte b) = f64OfByte b := by
  have hb := hasValue_f64OfByte b
  have hle : fgt (f64OfByte b) f255 = false := by
    rw [Bool.eq_false_iff, ne_eq, fgt_iff hb hasValue_f255]
    exact_mod_cast (by omega : ¬ 255 < b.toNat)
  unfold clamp255
  rw [hle]
  by_cases h0 : b = 0
  · subst h0
    decide
  · have hpos : fgt (f64OfByte b) fzero = true := by
      rw [fgt_iff hb hasValue_fzero]
      exact_mod_cast Nat.pos_of_ne_zero fun h => h0 (BitVec.eq_of_toNat_eq h)
    rw [hpos]
    rfl

/-! ### The round trip on the machine (R121) -/

theorem params_of_exec {s t : State} {i : Instr} (hbusy : s.phase = .busy) (hexec : exec i s = .next t) : t.params = s.params := by
  rw [exec_busy hbusy] at hexec
  cases hexec
  exact effectOf_params i s

/-- DWTF makes the DWT of IN. -/
theorem element_of_dwtf {s t : State} {m : ChanMask} (hbusy : s.phase = .busy) (hexec : exec (.dwtf m) s = .next t)
    {ch : Channel} (hm : m.has ch = true) {r c : Nat} (hr : r < side s.params) (hc : c < side s.params) :
    element t .freq ch r c = (dwtForward s.params (tabulate (side s.params) (sample s ch))).at r c := by
  obtain ⟨t', hexec', _, _, helement, _⟩ := dwtfCompletes.1 s m hbusy
  obtain rfl := next_unique hexec hexec'
  exact helement ch r c hm hr hc

/-- DWTSELR at a budget of N·N keeps every coefficient. -/
theorem element_of_dwtselr_all {s t : State} {m : ChanMask} (hbusy : s.phase = .busy) (hexec : exec (.dwtselr m) s = .next t)
    (hbudget : side s.params * side s.params ≤ s.curBudget.toNat) {ch : Channel} (hm : m.has ch = true) {r c : Nat}
    (hr : r < side s.params) (hc : c < side s.params) : element t .sel ch r c = element s .freq ch r c := by
  obtain ⟨t', hexec', _, _, helement, _⟩ := dwtselrCompletes s m hbusy
  obtain rfl := next_unique hexec hexec'
  have hroot : side s.params ≤ isqrt s.curBudget := isqrt_eq_sqrt s.curBudget ▸ Nat.le_sqrt.mpr hbudget
  rw [helement ch r c hm hr hc, min_eq_right hroot, if_pos ⟨hr, hc⟩]

/-- A row or column of the plane lies in one of the eight bands of blocks (R127). -/
theorem block_lt {p : Params} {r : Nat} (hr : r < side p) : r / (side p / 8) < 8 := by
  rw [Nat.div_lt_iff_lt_mul (show 0 < side p / 8 from mbSide_pos p)]
  rw [side_eq] at hr ⊢
  omega

/-- DWTSELB at a quota of 64, with a table that lists every block, keeps every coefficient. -/
theorem element_of_dwtselb_all {s t : State} {m : ChanMask} (hbusy : s.phase = .busy) (hexec : exec (.dwtselb m) s = .next t)
    (hquota : min (rhu s.curBudget.toNat ((side s.params / 8) * (side s.params / 8))) 64 = 64)
    (htable : ∀ e : BlockPos, e ∈ mbPriority s.params) {ch : Channel} (hm : m.has ch = true) {r c : Nat}
    (hr : r < side s.params) (hc : c < side s.params) : element t .sel ch r c = element s .freq ch r c := by
  obtain ⟨t', hexec', _, _, helement, _⟩ := dwtselbCompletes s m hbusy
  obtain rfl := next_unique hexec hexec'
  refine (helement ch r c hm hr hc).1 ⟨(⟨_, block_lt hr⟩, ⟨_, block_lt hc⟩), ?_, rfl, rfl⟩
  rw [hquota, List.take_of_length_le (mbPriority_length s.params).le]
  exact htable _

/-- What DWTI makes of a selection that is all of the DWT of IN: IN, since the clamp leaves bytes. -/
theorem element_of_dwti_all {s t : State} {m : ChanMask} (hbusy : s.phase = .busy) (hexec : exec (.dwti m) s = .next t)
    {ch : Channel} (hm : m.has ch = true) (b : Nat → Nat → Byte)
    (hsel : ∀ r c, r < side s.params → c < side s.params →
      element s .sel ch r c = (dwtForward s.params (tabulate (side s.params) fun r c => f64OfByte (b r c))).at r c)
    {r c : Nat} (hr : r < side s.params) (hc : c < side s.params) : element t .recon ch r c = f64OfByte (b r c) := by
  obtain ⟨t', hexec', _, _, helement, _⟩ := dwtiCompletes.1 s m hbusy
  obtain rfl := next_unique hexec hexec'
  have hplane : tabulate (side s.params) (element s .sel ch)
      = dwtForward s.params (tabulate (side s.params) fun r c => f64OfByte (b r c)) :=
    (tabulate_congr hsel).trans (isSquare_forwardLevels _ (isSquare_tabulate _ _))
  rw [helement ch r c hm hr hc, hplane, inverseLevels_dwtForward, at_tabulate _ hr hc, clamp255_f64OfByte]

section Running
variable (s : State) (n : Word)

@[simp] theorem running_params : (running s n).params = s.params := rfl

@[simp] theorem element_running (w : Window) (ch : Channel) : element (running s n) w ch = element s w ch := rfl

@[simp] theorem sample_running (ch : Channel) : sample (running s n) ch = sample s ch := rfl

end Running

/-- Settles O24: FREQ holds the DWT of IN, either selector copies it to SEL, and the synthesis levels undo the forward levels. -/
theorem dwtRoundTripIsExact : Obligations.DwtRoundTripIsExact := by
  intro s t₁ t₂ t₃ m n₁ n₂ n₃ hdwtf hselector hdwti ch r c hm hr hc
  have hp₁ : t₁.params = s.params := params_of_exec (s := running s n₁) rfl hdwtf
  have hp₂ : t₂.params = s.params := by
    rcases hselector with ⟨hsel, _⟩ | ⟨hsel, _⟩ <;>
      exact (params_of_exec (s := running t₁ n₂) rfl hsel).trans hp₁
  have hfreq : ∀ r c, r < side s.params → c < side s.params →
      element t₁ .freq ch r c = (dwtForward s.params (tabulate (side s.params) (sample s ch))).at r c := by
    intro r c hr hc
    have h := element_of_dwtf (s := running s n₁) rfl hdwtf hm hr hc
    rwa [running_params, sample_running] at h
  have hkept : ∀ r c, r < side s.params → c < side s.params → element t₂ .sel ch r c = element t₁ .freq ch r c := by
    intro r c hr hc
    rw [← hp₁] at hr hc hselector
    rcases hselector with ⟨hsel, hbudget⟩ | ⟨hsel, hquota, htable⟩
    · exact element_of_dwtselr_all (s := running t₁ n₂) rfl hsel hbudget hm hr hc
    · exact element_of_dwtselb_all (s := running t₁ n₂) rfl hsel hquota htable hm hr hc
  have hrecon := element_of_dwti_all (s := running t₂ n₃) rfl hdwti hm
    fun r c => readByte s (inputAddr s.params ch (r * side s.params + c))
  rw [running_params, hp₂, element_running] at hrecon
  exact hrecon (fun r c hr hc => (hkept r c hr hc).trans (hfreq r c hr hc)) hr hc

end Sys2Proof.Proofs
end

section
/-! SUPPORT. The statements of `44_dwtsel.md`: what the two DWT policies select at a budget of 0, and what DWTI makes of it (R132). -/

open Sys2Proof Sys2Proof.Machine Sys2Proof.Claims

namespace Sys2Proof.Proofs

/-- A budget of 0 has the integer root 0, the d of R132. -/
@[simp] theorem isqrt_zero : isqrt 0#32 = 0 := isqrt_eq_sqrt 0#32

/-- The radius policy: the square it keeps has side 0. -/
theorem element_of_dwtselr_zero {s t : State} {m : ChanMask} (hexec : exec (.dwtselr m) (running s 0) = .next t)
    {ch : Channel} (hm : m.has ch = true) {r c : Nat} (hr : r < side s.params) (hc : c < side s.params) :
    element t .sel ch r c = 0 := by
  obtain ⟨t', hexec', _, _, helement, _⟩ := dwtselrCompletes (running s 0) m rfl
  obtain rfl := next_unique hexec hexec'
  exact (helement ch r c hm hr hc).trans (if_neg (by simp [running]))

/-- The block policy: the prefix of the table that it keeps is empty. -/
theorem element_of_dwtselb_zero {s t : State} {m : ChanMask} (hexec : exec (.dwtselb m) (running s 0) = .next t)
    {ch : Channel} (hm : m.has ch = true) {r c : Nat} (hr : r < side s.params) (hc : c < side s.params) :
    element t .sel ch r c = 0 := by
  obtain ⟨t', hexec', _, _, helement, _⟩ := dwtselbCompletes (running s 0) m rfl
  obtain rfl := next_unique hexec hexec'
  exact (helement ch r c hm hr hc).2 (by simp [running])

theorem f64OfByte_zero : f64OfByte 0 = 0 := by decide

/-- A plane of +0.0 is the DWT of a black input: the constant plane of R116 at byte 0. -/
theorem dwtForward_black (p : Params) {r c : Nat} (hr : r < side p) (hc : c < side p) :
    (dwtForward p (tabulate (side p) fun _ _ => f64OfByte 0)).at r c = 0 := by
  rw [constantPlaneTransformsToItsMean p 0 r c hr hc, f64OfByte_zero, ite_self]

/-- DWTI of a selection of +0.0 alone is the black input, by the exact round trip. -/
theorem element_of_dwti_zero {s t : State} {m : ChanMask} (hbusy : s.phase = .busy) (hexec : exec (.dwti m) s = .next t)
    {ch : Channel} (hm : m.has ch = true)
    (hsel : ∀ r c, r < side s.params → c < side s.params → element s .sel ch r c = 0)
    {r c : Nat} (hr : r < side s.params) (hc : c < side s.params) : element t .recon ch r c = 0 :=
  (element_of_dwti_all hbusy hexec hm (fun _ _ => 0)
    (fun r c hr hc => (hsel r c hr hc).trans (dwtForward_black s.params hr hc).symm) hr hc).trans f64OfByte_zero

/-- Settles O31: either policy leaves +0.0 alone in SEL, and DWTI of it is the reconstruction of a black input. -/
theorem dwtSelectorsAtZeroBudgetWriteZeros : Obligations.DwtSelectorsAtZeroBudgetWriteZeros := by
  intro s t u m n hselector hdwti ch r c hm hr hc
  have hparams : t.params = s.params := by
    rcases hselector with hsel | hsel <;> exact params_of_exec (s := running s 0) rfl hsel
  have hzero : ∀ r c, r < side s.params → c < side s.params → element t .sel ch r c = 0 := by
    intro r c hr hc
    rcases hselector with hsel | hsel
    · exact element_of_dwtselr_zero hsel hm hr hc
    · exact element_of_dwtselb_zero hsel hm hr hc
  have hrecon := element_of_dwti_zero (s := running t n) rfl hdwti hm (r := r) (c := c)
  rw [running_params, hparams, element_running] at hrecon
  exact ⟨hzero r c hr hc, hrecon hzero hr hc⟩

end Sys2Proof.Proofs
end

section
/-! SUPPORT. The statements of `45_assemble.md`: the clamp and the truncation that take a sample to its byte (R134, R135). -/

open Sys2Proof Sys2Proof.Machine Sys2Proof.Claims

namespace Sys2Proof.Proofs

/-! ### The comparison of encodings (R14) -/

theorem fgt_trans {a b c : F64} (hab : fgt a b = true) (hbc : fgt b c = true) : fgt a c = true := by
  simp only [fgt, Bool.and_eq_true, decide_eq_true_eq] at *
  obtain ⟨⟨ha, _⟩, hkeyab⟩ := hab
  obtain ⟨⟨_, hc⟩, hkeybc⟩ := hbc
  exact ⟨⟨ha, hc⟩, hkeybc.trans hkeyab⟩

theorem fgt_eq_false_iff_orderKey_le {a b : F64} (ha : isNaN a = false) (hb : isNaN b = false) :
    fgt a b = false ↔ orderKey a ≤ orderKey b := by
  simp [fgt, ha, hb]

theorem orderKey_of_signBit_false {v : F64} (h : signBit v = false) : orderKey v = magnitude v := by
  rw [orderKey, h]
  rfl

theorem orderKey_of_signBit_true {v : F64} (h : signBit v = true) : orderKey v = -(magnitude v : Int) := by
  rw [orderKey, h]
  rfl

/-- Without magnitude bits an encoding is a zero of either sign. -/
theorem isZero_of_magnitude_eq_zero {v : F64} (h : magnitude v = 0) : isZero v := by
  obtain ⟨hexp, hfrac⟩ := magnitude_fields v
  have hv : unpack v = .finite (signBit v) 0 (-1074) := by simp [unpack, ← hexp, ← hfrac, h]
  have hzero := zeros_of_pack (signBit v) (-1074)
  rwa [roundPack_unpack hv] at hzero

/-! ### The clamp (R134) -/

section Clamp
variable {v : F64}

theorem clamp255_of_not_pos (h : fgt v fzero = false) : clamp255 v = fzero := by
  simp [clamp255, h]

theorem clamp255_of_inRange (hpos : fgt v fzero = true) (hle : fgt v f255 = false) : clamp255 v = v := by
  simp [clamp255, hpos, hle]

/-- What is above 255.0 is above +0.0, so the first test of the clamp lets it pass. -/
theorem clamp255_of_above (h : fgt v f255 = true) : clamp255 v = f255 := by
  have hpos : fgt v fzero = true := fgt_trans h (by decide)
  simp [clamp255, hpos, h]

theorem clamped_iff : clamped v = true ↔ v = fzero ∨ (fgt v fzero = true ∧ fgt v f255 = false) := by
  simp [clamped]

/-- A clamped value is a fixed point of the clamp. -/
theorem clamp255_of_clamped (h : clamped v = true) : clamp255 v = v := by
  rcases clamped_iff.mp h with rfl | ⟨hpos, hle⟩
  · exact clamp255_of_not_pos (by decide)
  · exact clamp255_of_inRange hpos hle

end Clamp

/-- Settles O34: one clause for each branch of the clamp, and whatever it makes is a fixed point. -/
theorem clampLandsInRange : Obligations.ClampLandsInRange := fun v =>
  ⟨clamped_iff.mp (clamped_clamp255 v), clamp255_of_inRange, clamp255_of_not_pos, clamp255_of_above,
    clamp255_of_clamped (clamped_clamp255 v)⟩

/-! ### The truncation (R135) -/

theorem fgt_eq_false_iff {a b : F64} {x y : ℚ} (ha : HasValue a x) (hb : HasValue b y) : fgt a b = false ↔ x ≤ y := by
  rw [Bool.eq_false_iff, ne_eq, fgt_iff ha hb, not_lt]

/-- An encoding that is no NaN, not below 0 and not above 255 is a zero (-0.0 too) or has a value up to 255. -/
theorem isZero_or_hasValue_of_inRange {v : F64} (hnan : isNaN v = false) (hlow : fgt fzero v = false)
    (hhigh : fgt v f255 = false) : isZero v ∨ ∃ x ≤ 255, HasValue v x := by
  rw [fgt_eq_false_iff_orderKey_le (by decide) hnan, show orderKey fzero = 0 by decide] at hlow
  cases hsign : signBit v with
  | true =>
    rw [orderKey_of_signBit_true hsign] at hlow
    exact .inl (isZero_of_magnitude_eq_zero (by omega))
  | false =>
    have hkey := (fgt_eq_false_iff_orderKey_le hnan (by decide)).mp hhigh
    rw [orderKey_of_signBit_false hsign, show orderKey f255 = 0x406FE00000000000 by decide] at hkey
    have hexp : expField v ≠ 2047 := by
      have hfield := (magnitude_fields v).1
      omega
    have hx := hasValue_units hsign hexp
    exact .inr ⟨_, (fgt_eq_false_iff hx hasValue_f255).mp hhigh, hx⟩

/-- Up to 255 the byte holds the whole floor. -/
theorem toNat_trunc8 {v : F64} {x : ℚ} (h : HasValue v x) (hle : x ≤ 255) : (trunc8 v).toNat = ⌊x⌋₊ := by
  have hfloor : ⌊x⌋₊ ≤ 255 := Nat.floor_le_of_le hle
  rw [trunc8, floorNat_of_hasValue h, BitVec.toNat_ofNat]
  omega

theorem trunc8_f64OfByte (b : Byte) : trunc8 (f64OfByte b) = b := by
  have hb : (b.toNat : ℚ) ≤ 255 := by exact_mod_cast Nat.le_of_lt_succ b.isLt
  exact BitVec.eq_of_toNat_eq (by rw [toNat_trunc8 (hasValue_f64OfByte b) hb, Nat.floor_natCast])

/-- The byte is the largest whose widening is not above the value. -/
theorem trunc8_bounds {v : F64} {x : ℚ} (h : HasValue v x) (hle : x ≤ 255) :
    fgt (f64OfByte (trunc8 v)) v = false ∧ (trunc8 v ≠ 255 → fgt (f64OfByte (trunc8 v + 1)) v = true) := by
  have hfloor := toNat_trunc8 h hle
  constructor
  · rw [fgt_eq_false_iff (hasValue_f64OfByte _) h, hfloor]
    exact Nat.floor_le h.nonneg
  · intro hmax
    have hnext : (trunc8 v + 1).toNat = ⌊x⌋₊ + 1 := by bv_omega
    rw [fgt_iff (hasValue_f64OfByte _) h, hnext, Nat.cast_succ]
    exact Nat.lt_floor_add_one x

/-- Either zero truncates to byte 0. -/
theorem trunc8_of_isZero {v : F64} (h : isZero v) : trunc8 v = 0 := by
  obtain ⟨n, hv⟩ := unpack_zeros h
  rw [trunc8, floorNat, hv]
  exact congrArg (BitVec.ofNat 8) (Nat.zero_div _)

/-- Byte 0 is not above a zero of either sign, and byte 1 is. -/
theorem trunc8_bounds_of_isZero {v : F64} (h : isZero v) :
    fgt (f64OfByte (trunc8 v)) v = false ∧ fgt (f64OfByte (trunc8 v + 1)) v = true := by
  rw [trunc8_of_isZero h]
  rcases h with rfl | rfl <;> decide

/-- Settles O35: a zero of either sign by its byte 0, every other value by its floor; a byte is the floor of its widening. -/
theorem truncationIsTheFloor : Obligations.TruncationIsTheFloor := by
  refine ⟨fun v hnan hlow hhigh => ?_, fun b => ⟨clamp255_f64OfByte b, trunc8_f64OfByte b⟩⟩
  rcases isZero_or_hasValue_of_inRange hnan hlow hhigh with hzero | ⟨x, hle, hx⟩
  · exact (trunc8_bounds_of_isZero hzero).imp_right fun hnext _ => hnext
  · exact trunc8_bounds hx hle

end Sys2Proof.Proofs
end

section
/-! SUPPORT. The statements of `60_exceptions.md`: the rejection (R145), the irq line (R148) and the pending bits of one event (R150). -/

open Sys2Proof Sys2Proof.Machine Sys2Proof.Claims

namespace Sys2Proof.Proofs

/-! ### The pending bits of one event (R149, R150) -/

/-- No host event sets DONE: of those that write IRQ_PEND, the errors set ERR, and the acknowledgement and the reset only clear. -/
theorem hostEffect_done {s t : State} (h : HostEffect s t) (hdone : s.irqPend.done = false) : t.irqPend.done = false := by
  cases h with
  | acknowledge v => simp [hdone]
  | reset => rfl
  | issue w i => rcases issue_cases i (respond .none s) with ⟨_, he⟩ | ⟨_, _, he⟩ <;> rw [he] <;> exact hdone
  | _ => exact hdone

/-- A completion leaves ERR of IRQ_PEND. -/
theorem completion_err (i : Instr) (s : State) : (finish (effectOf i s)).irqPend.err = s.irqPend.err := by
  rw [finish_effectOf]
  rfl

/-- Settles O53: a completion leaves ERR, and a host event never sets DONE. -/
theorem oneEventSetsOnePendingBit : Obligations.OneEventSetsOnePendingBit := by
  rintro s t hstep ⟨hdone, hdone', herr, herr'⟩
  cases step_effect hstep with
  | complete i => exact absurd ((completion_err i s).symm.trans herr') (by simp [herr])
  | rest => exact absurd (hdone.symm.trans hdone') (by decide)
  | host e rest _ _ _ _ heff => exact absurd ((hostEffect_done heff hdone).symm.trans hdone') (by decide)

/-! ### The rejection (R145) -/

/-- Settles O9: whichever of the two turns the word away is its verdict. -/
theorem rejectionIsPrecise : Obligations.RejectionIsPrecise := by
  intro s w e hidle hcause
  have hverdict : verdict w s = some e := by
    rcases hcause with hd | ⟨i, hd, hcheck⟩
    · exact verdict_of_error hd s
    · exact (verdict_of_ok hd s).trans hcheck
  exact writeCmd_rejects hidle hverdict

/-! ### The irq line (R148) -/

theorem irq_iff (s : State) :
    s.irq = true ↔ (s.irqPend.done = true ∧ s.irqEn.done = true) ∨ (s.irqPend.err = true ∧ s.irqEn.err = true) := by
  simp only [State.irq, Bool.or_eq_true, Bool.and_eq_true]

/-- A completion raises the line when DONE is enabled. -/
theorem completion_irq (i : Instr) {s : State} (hen : s.irqEn.done = true) : (finish (effectOf i s)).irq = true := by
  rw [finish_effectOf]
  exact (irq_iff _).mpr (.inl ⟨rfl, hen⟩)

/-- With both pending bits acknowledged the line is low. -/
theorem acknowledgeIrq_irq (s : State) : (acknowledgeIrq 3 s).irq = false := by
  simp [State.irq]

/-- With neither bit enabled the line is low. -/
theorem writeIrqEn_irq (s : State) : (writeIrqEn 0 s).irq = false := by
  simp [State.irq]

/-- Settles O45: the completion sets DONE, and the two writes reach IRQ_PEND and IRQ_EN. -/
theorem irqFollowsTheEnabledPendingBits : Obligations.IrqFollowsTheEnabledPendingBits := by
  refine fun s i => ⟨irq_iff s, fun hbusy hen => ⟨_, exec_busy hbusy i, completion_irq i hen⟩, fun t h => ?_, fun t h => ?_⟩
  · cases h
    exact acknowledgeIrq_irq (respond .none s)
  · cases h
    exact writeIrqEn_irq (respond .none s)

end Sys2Proof.Proofs
end
